-- ==== Sys2Proof/Word.lean ====
section
/-!
DEFINITION. The bit-vector types of the machine: a cell (and an instruction word), the field widths of a word, and the
pattern of a binary32 datum.
-/

namespace Sys2Proof

/-- A cell, a stack value, a pc value or an instruction word: 64 bits (spec/00_scope R6(a), spec/30_encoding R49). -/
abbrev Word := BitVec 64

/-- One 4-bit field of an instruction word (spec/30_encoding R50). -/
abbrev Nibble := BitVec 4

/-- Eight bits: an iid, a pair-addressed cell index, an 8-bit immediate, or a byte of text. -/
abbrev Byte := BitVec 8

/-- The bit pattern of an IEEE-754 binary32 datum (spec/00_scope R14). -/
abbrev F32 := BitVec 32

end Sys2Proof
end

