-- ==== Sys2Proof/Syntax.lean ====
section
/-!
DEFINITION. The instructions: one constructor per row of spec/opcode_table.json, holding the operands its rule reads and
nothing else (a field a rule does not read is ignored, spec/30_encoding R52). A register, device, port or count is its
nibble; a pair-addressed cell is its index `16*h + l`; an immediate is its value.
-/

namespace Sys2Proof

inductive Instr where
  -- spec/40_system.md
  | haltF
  | halt0
  | halt1
  | nop
  -- spec/41_data_move.md
  | ldi (rd : Nibble) (imm : Byte)
  | ldiM (cell : Byte) (imm : Byte)
  | swap (ra rb : Nibble)
  -- spec/42_device.md; the four nibbles of `wdevL` are r3, u1, u2, x1
  | wdevS (dev port rv : Nibble)
  | wdevL (dev port n3 n2 n1 n0 : Nibble)
  | emit (dev port rv : Nibble)
  -- spec/43_control.md
  | pcap (rd : Nibble)
  | jumpT (rt : Nibble)
  | jumpE (rt ra rb : Nibble)
  | jumpG (rt ra rb : Nibble)
  | jumpU (rt ra rb : Nibble)
  | jumpY (rt ra rb : Nibble)
  | orb (count : Nibble)
  | pull (rd : Nibble)
  | rdev (dev port : Nibble)
  | sig (rd : Nibble)
  | ret
  -- spec/44_alu.md, and `dup` of spec/41_data_move.md
  | inc (rd : Nibble)
  | dec (rd : Nibble)
  | dup (src dst : Byte)
  | ckft (cell : Byte)
  | xor (ca cb : Byte)
  | or (ca cb : Byte)
  -- spec/46_debug.md
  | brkNow
  | brkNext
  | brkAfter
  -- spec/44_alu.md
  | add (rd ra rb : Nibble)
  | sub (rd ra rb : Nibble)
  | mul (rd ra rb : Nibble)
  | div (rd ra rb : Nibble)
  | pow (rd ra rb : Nibble)
  | sqrt (rd ra : Nibble)
  -- spec/45_frame_extern.md
  | xcall (rs : Nibble)
  | prune
  | locals (count : Nibble)
  -- spec/47_math_table.md
  | abs (rd ra : Nibble)
  | sin (rd ra : Nibble)
  | cos (rd ra : Nibble)
  | tan (rd ra : Nibble)
  | asin (rd ra : Nibble)
  | acos (rd ra : Nibble)
  | atan (rd ra : Nibble)
  | sinh (rd ra : Nibble)
  | cosh (rd ra : Nibble)
  | tanh (rd ra : Nibble)
  | asinh (rd ra : Nibble)
  | acosh (rd ra : Nibble)
  | atanh (rd ra : Nibble)
  | ceiling (rd ra : Nibble)
  | floor (rd ra : Nibble)
  | truncate (rd ra : Nibble)
  | log (rd ra : Nibble)
  | log10 (rd ra : Nibble)
  | exp (rd ra : Nibble)
  | cbrt (rd ra : Nibble)
  | atan2 (rd ra rb : Nibble)
  | min (rd ra rb : Nibble)
  | max (rd ra rb : Nibble)
  | bitinc (rd ra : Nibble)
  | bitdec (rd ra : Nibble)
  deriving DecidableEq, Repr

end Sys2Proof
end

