-- ==== Sys2Proof/WellFormed.lean ====
section
/-!
DEFINITION. Which instructions have an encoding. Every operand but one is a field of the word, so it can hold any value;
the immediate of `ldi` cannot be 0x10, 0x20, ..., 0xF0 (spec/30_encoding R55).
-/

namespace Sys2Proof

/-- Whether `imm_ldi` takes the value: 0..15, or a value above with a low nibble that is not 0 (spec/30_encoding R55). -/
def ldiEncodable (imm : Byte) : Bool :=
  imm.toNat < 16 || imm.toNat % 16 != 0

/-- Whether an instruction has an encoding. -/
def Instr.wellFormed : Instr → Bool
  | .ldi _ imm => ldiEncodable imm
  | .haltF | .halt0 | .halt1 | .nop
  | .ldiM .. | .swap .. | .dup .. | .pull ..
  | .wdevS .. | .wdevL .. | .emit .. | .rdev ..
  | .pcap .. | .jumpT .. | .jumpE .. | .jumpG .. | .jumpU .. | .jumpY ..
  | .orb .. | .sig .. | .ret
  | .inc .. | .dec .. | .ckft .. | .xor .. | .or ..
  | .brkNow | .brkNext | .brkAfter
  | .add .. | .sub .. | .mul .. | .div .. | .pow .. | .sqrt ..
  | .xcall .. | .prune | .locals ..
  | .abs .. | .sin .. | .cos .. | .tan .. | .asin .. | .acos .. | .atan ..
  | .sinh .. | .cosh .. | .tanh .. | .asinh .. | .acosh .. | .atanh ..
  | .ceiling .. | .floor .. | .truncate .. | .log .. | .log10 .. | .exp .. | .cbrt ..
  | .atan2 .. | .min .. | .max .. | .bitinc .. | .bitdec .. => true

end Sys2Proof
end

