-- ==== Sys2Proof/Decode.lean ====
section
/-!
DEFINITION. The decoder and the encoder (spec/30_encoding.md): the fields of a word, the three-stage match, the operand
forms that decoding computes, and the inverse. The opcode table stands as data, row by row.
-/

namespace Sys2Proof

/-- The eight fields of an instruction word (spec/30_encoding R49). -/
structure Fields where
  iid : Byte
  r1 : Nibble
  r2 : Nibble
  r3 : Nibble
  u1 : Nibble
  u2 : Nibble
  x1 : Nibble
  x2 : Nibble
  deriving DecidableEq, Repr

/-- `Decode(w)` of spec/30_encoding R50: total, reads `w[35:0]` only (R51). -/
def fields (w : Word) : Fields where
  iid := w.extractLsb' 28 8
  r1 := w.extractLsb' 24 4
  r2 := w.extractLsb' 20 4
  r3 := w.extractLsb' 16 4
  u1 := w.extractLsb' 12 4
  u2 := w.extractLsb' 8 4
  x1 := w.extractLsb' 4 4
  x2 := w.extractLsb' 0 4

/-- `enc` of spec/30_encoding R60: the word with these fields and bits 63:36 zero. -/
def encFields (f : Fields) : Word :=
  0#28 ++ (f.iid ++ (f.r1 ++ (f.r2 ++ (f.r3 ++ (f.u1 ++ (f.u2 ++ (f.x1 ++ f.x2)))))))

/-! ## Operand forms (spec/30_encoding R54) -/

/-- `pair(h, l) = 16*h + l` (spec/00_scope R11(e)). -/
def pair (h l : Nibble) : Byte := h ++ l

/-- The high nibble of a pair. -/
def pairHigh (p : Byte) : Nibble := p.extractLsb' 4 4

/-- The low nibble of a pair. -/
def pairLow (p : Byte) : Nibble := p.extractLsb' 0 4

/-- `imm_ldi`: u1 when u2 = 0, else `16*u1 + u2`. -/
def immLdi (u1 u2 : Nibble) : Byte :=
  if u2 = 0 then u1.zeroExtend 8 else pair u1 u2

/-- The u1 field that encodes an immediate of `ldi` (spec/30_encoding R55). -/
def immLdiU1 (imm : Byte) : Nibble :=
  if imm.toNat < 16 then pairLow imm else pairHigh imm

/-- The u2 field that encodes an immediate of `ldi` (spec/30_encoding R55). -/
def immLdiU2 (imm : Byte) : Nibble :=
  if imm.toNat < 16 then 0 else pairLow imm

/-! ## Stage 1: the halt patterns (spec/30_encoding R53, spec/40_system R66..R68) -/

/-- Whether all seven sub-fields are 0xF. -/
def Fields.allOnes (f : Fields) : Bool :=
  f.x2 == 0xF && f.x1 == 0xF && f.u2 == 0xF && f.u1 == 0xF && f.r3 == 0xF && f.r2 == 0xF && f.r1 == 0xF

/-- `HALT_PATTERNS`: the iid equals the halt code and every sub-field is 0xF (92 D4). -/
def haltPattern (f : Fields) : Option Instr :=
  if f.allOnes then
    if f.iid = 0x0F then some .haltF
    else if f.iid = 0x00 then some .halt0
    else if f.iid = 0x01 then some .halt1
    else none
  else none

/-! ## Stage 2: the opcode table (spec/30_encoding R56) -/

/-- A row: its iid, its selector fields, and the instruction it builds from the operand fields. -/
structure Row where
  iid : Byte
  u2 : Option Nibble := none
  x1 : Option Nibble := none
  x2 : Option Nibble := none
  build : Fields → Instr

/-- Whether a selector accepts a field; a field that is no selector of the row is ignored (spec/30_encoding R53). -/
def selector (want : Option Nibble) (got : Nibble) : Bool :=
  match want with
  | none => true
  | some v => got == v

/-- Whether the row has the word's iid and every selector field of the row equals the word's. -/
def Row.selects (r : Row) (f : Fields) : Bool :=
  f.iid == r.iid && (selector r.u2 f.u2 && (selector r.x1 f.x1 && selector r.x2 f.x2))

/-- Control, moves and devices: iids 0x00..0x38. -/
def rowsLow : List Row := [
  { iid := 0x00, build := fun _ => .nop },
  { iid := 0x01, x2 := some 0x0, build := fun f => .ldi f.r1 (immLdi f.u1 f.u2) },
  { iid := 0x01, x2 := some 0xA, build := fun f => .ldiM (pair f.r1 f.r2) (pair f.u1 f.u2) },
  { iid := 0x03, build := fun f => .swap f.r1 f.r2 },
  { iid := 0x08, u2 := some 0xC, build := fun f => .pcap f.r1 },
  { iid := 0x08, u2 := some 0xF, x1 := some 0x0, build := fun f => .jumpT f.r1 },
  { iid := 0x08, u2 := some 0xF, x1 := some 0x1, build := fun f => .jumpE f.r1 f.r2 f.r3 },
  { iid := 0x08, u2 := some 0xF, x1 := some 0x2, build := fun f => .jumpG f.r1 f.r2 f.r3 },
  { iid := 0x08, u2 := some 0xF, x1 := some 0x3, build := fun f => .jumpU f.r1 f.r2 f.r3 },
  { iid := 0x08, u2 := some 0xF, x1 := some 0x4, build := fun f => .jumpY f.r1 f.r2 f.r3 },
  { iid := 0x0F, x2 := some 0xE, build := fun f => .wdevS f.r1 f.r2 f.r3 },
  { iid := 0x0F, x2 := some 0xC, build := fun f => .wdevL f.r1 f.r2 f.r3 f.u1 f.u2 f.x1 },
  { iid := 0x0F, x2 := some 0xF, build := fun f => .emit f.r1 f.r2 f.r3 },
  { iid := 0x36, build := fun f => .xcall f.r1 },
  { iid := 0x37, build := fun _ => .prune },
  { iid := 0x38, build := fun f => .locals f.r1 } ]

/-- Stack, arithmetic and debug: iids 0xA0..0xCF. -/
def rowsMiddle : List Row := [
  { iid := 0xA0, build := fun f => .orb f.r1 },
  { iid := 0xA1, build := fun f => .pull f.r1 },
  { iid := 0xA4, build := fun f => .rdev f.r1 f.r2 },
  { iid := 0xA5, x2 := some 0x1, build := fun f => .sig f.r1 },
  { iid := 0xA5, x2 := some 0x2, build := fun _ => .ret },
  { iid := 0xB1, build := fun f => .inc f.r1 },
  { iid := 0xB2, build := fun f => .dec f.r1 },
  { iid := 0xB3, build := fun f => .dup (pair f.r1 f.r2) (pair f.r3 f.u1) },
  { iid := 0xB4, build := fun f => .ckft (pair f.r1 f.r2) },
  { iid := 0xB5, build := fun f => .xor (pair f.r1 f.r2) (pair f.r3 f.u1) },
  { iid := 0xB6, build := fun f => .or (pair f.r1 f.r2) (pair f.r3 f.u1) },
  { iid := 0xC1, x2 := some 0x1, build := fun _ => .brkNow },
  { iid := 0xC1, x2 := some 0x2, build := fun _ => .brkNext },
  { iid := 0xC1, x2 := some 0x3, build := fun _ => .brkAfter },
  { iid := 0xCA, build := fun f => .add f.r1 f.r2 f.r3 },
  { iid := 0xCB, build := fun f => .sub f.r1 f.r2 f.r3 },
  { iid := 0xCC, build := fun f => .mul f.r1 f.r2 f.r3 },
  { iid := 0xCD, build := fun f => .div f.r1 f.r2 f.r3 },
  { iid := 0xCE, build := fun f => .pow f.r1 f.r2 f.r3 },
  { iid := 0xCF, build := fun f => .sqrt f.r1 f.r2 } ]

/-- The math table: iids 0xD0..0xE8 (spec/47_math_table.md). -/
def rowsMath : List Row := [
  { iid := 0xD0, build := fun f => .abs f.r1 f.r2 },
  { iid := 0xD1, build := fun f => .sin f.r1 f.r2 },
  { iid := 0xD2, build := fun f => .cos f.r1 f.r2 },
  { iid := 0xD3, build := fun f => .tan f.r1 f.r2 },
  { iid := 0xD4, build := fun f => .asin f.r1 f.r2 },
  { iid := 0xD5, build := fun f => .acos f.r1 f.r2 },
  { iid := 0xD6, build := fun f => .atan f.r1 f.r2 },
  { iid := 0xD7, build := fun f => .sinh f.r1 f.r2 },
  { iid := 0xD8, build := fun f => .cosh f.r1 f.r2 },
  { iid := 0xD9, build := fun f => .tanh f.r1 f.r2 },
  { iid := 0xDA, build := fun f => .asinh f.r1 f.r2 },
  { iid := 0xDB, build := fun f => .acosh f.r1 f.r2 },
  { iid := 0xDC, build := fun f => .atanh f.r1 f.r2 },
  { iid := 0xDD, build := fun f => .ceiling f.r1 f.r2 },
  { iid := 0xDE, build := fun f => .floor f.r1 f.r2 },
  { iid := 0xDF, build := fun f => .truncate f.r1 f.r2 },
  { iid := 0xE0, build := fun f => .log f.r1 f.r2 },
  { iid := 0xE1, build := fun f => .log10 f.r1 f.r2 },
  { iid := 0xE2, build := fun f => .exp f.r1 f.r2 },
  { iid := 0xE3, build := fun f => .cbrt f.r1 f.r2 },
  { iid := 0xE4, build := fun f => .atan2 f.r1 f.r2 f.r3 },
  { iid := 0xE5, build := fun f => .min f.r1 f.r2 f.r3 },
  { iid := 0xE6, build := fun f => .max f.r1 f.r2 f.r3 },
  { iid := 0xE7, build := fun f => .bitinc f.r1 f.r2 },
  { iid := 0xE8, build := fun f => .bitdec f.r1 f.r2 } ]

/-- The opcode table but for the three halt words. -/
def rows : List Row := rowsLow ++ (rowsMiddle ++ rowsMath)

/-! ## The decoder -/

/-- Why a word is unlisted (spec/30_encoding R57). -/
inductive Unlisted where
  /-- R57(a): no row has the iid. -/
  | unknownIid (iid : Byte)
  /-- R57(b)..(f): rows have the iid, and none has the word's selector fields. -/
  | unknownSelector (iid : Byte)
  deriving DecidableEq, Repr

/-- `Match(F)` of spec/30_encoding R53. -/
def matchFields (f : Fields) : Except Unlisted Instr :=
  match haltPattern f with
  | some i => .ok i
  | none =>
    match rows.find? (fun r => r.selects f) with
    | some r => .ok (r.build f)
    | none => .error (if rows.any (fun r => r.iid == f.iid) then .unknownSelector f.iid else .unknownIid f.iid)

/-- The instruction a word is, or why it is unlisted: `Match(Decode(w))`. Total on every word. -/
def decode (w : Word) : Except Unlisted Instr := matchFields (fields w)

/-- The instruction the decoder reads from an instruction whose bits are `w`, numbered as spec/opcode_table.json numbers
them (bit 0 the least significant of the word). Words are numbers: no byte order stands between (spec/20_memory R41). -/
def decodeTableWord (nbits w : Nat) : Option Instr :=
  match decode (BitVec.ofNat 64 (w % 2 ^ nbits)) with
  | .ok i => some i
  | .error _ => none

/-! ## The encoder -/

/-- The fields an assembler gives an instruction: the row's iid and selectors, the operands, and 0 in every field that
neither selects nor is read (spec/30_encoding R51, R56). -/
def Instr.toFields : Instr → Fields
  | .haltF => ⟨0x0F, 0xF, 0xF, 0xF, 0xF, 0xF, 0xF, 0xF⟩
  | .halt0 => ⟨0x00, 0xF, 0xF, 0xF, 0xF, 0xF, 0xF, 0xF⟩
  | .halt1 => ⟨0x01, 0xF, 0xF, 0xF, 0xF, 0xF, 0xF, 0xF⟩
  | .nop => ⟨0x00, 0, 0, 0, 0, 0, 0, 0⟩
  | .ldi rd imm => ⟨0x01, rd, 0, 0, immLdiU1 imm, immLdiU2 imm, 0, 0x0⟩
  | .ldiM c imm => ⟨0x01, pairHigh c, pairLow c, 0, pairHigh imm, pairLow imm, 0, 0xA⟩
  | .swap ra rb => ⟨0x03, ra, rb, 0, 0, 0, 0, 0⟩
  | .pcap rd => ⟨0x08, rd, 0, 0, 0, 0xC, 0, 0⟩
  | .jumpT rt => ⟨0x08, rt, 0, 0, 0, 0xF, 0x0, 0⟩
  | .jumpE rt ra rb => ⟨0x08, rt, ra, rb, 0, 0xF, 0x1, 0⟩
  | .jumpG rt ra rb => ⟨0x08, rt, ra, rb, 0, 0xF, 0x2, 0⟩
  | .jumpU rt ra rb => ⟨0x08, rt, ra, rb, 0, 0xF, 0x3, 0⟩
  | .jumpY rt ra rb => ⟨0x08, rt, ra, rb, 0, 0xF, 0x4, 0⟩
  | .wdevS d p rv => ⟨0x0F, d, p, rv, 0, 0, 0, 0xE⟩
  | .wdevL d p n3 n2 n1 n0 => ⟨0x0F, d, p, n3, n2, n1, n0, 0xC⟩
  | .emit d p rv => ⟨0x0F, d, p, rv, 0, 0, 0, 0xF⟩
  | .xcall rs => ⟨0x36, rs, 0, 0, 0, 0, 0, 0⟩
  | .prune => ⟨0x37, 0, 0, 0, 0, 0, 0, 0⟩
  | .locals n => ⟨0x38, n, 0, 0, 0, 0, 0, 0⟩
  | .orb n => ⟨0xA0, n, 0, 0, 0, 0, 0, 0⟩
  | .pull rd => ⟨0xA1, rd, 0, 0, 0, 0, 0, 0⟩
  | .rdev d p => ⟨0xA4, d, p, 0, 0, 0, 0, 0⟩
  | .sig rd => ⟨0xA5, rd, 0, 0, 0, 0, 0, 0x1⟩
  | .ret => ⟨0xA5, 0, 0, 0, 0, 0, 0, 0x2⟩
  | .inc rd => ⟨0xB1, rd, 0, 0, 0, 0, 0, 0⟩
  | .dec rd => ⟨0xB2, rd, 0, 0, 0, 0, 0, 0⟩
  | .dup a b => ⟨0xB3, pairHigh a, pairLow a, pairHigh b, pairLow b, 0, 0, 0⟩
  | .ckft a => ⟨0xB4, pairHigh a, pairLow a, 0, 0, 0, 0, 0⟩
  | .xor a b => ⟨0xB5, pairHigh a, pairLow a, pairHigh b, pairLow b, 0, 0, 0⟩
  | .or a b => ⟨0xB6, pairHigh a, pairLow a, pairHigh b, pairLow b, 0, 0, 0⟩
  | .brkNow => ⟨0xC1, 0, 0, 0, 0, 0, 0, 0x1⟩
  | .brkNext => ⟨0xC1, 0, 0, 0, 0, 0, 0, 0x2⟩
  | .brkAfter => ⟨0xC1, 0, 0, 0, 0, 0, 0, 0x3⟩
  | .add rd ra rb => ⟨0xCA, rd, ra, rb, 0, 0, 0, 0⟩
  | .sub rd ra rb => ⟨0xCB, rd, ra, rb, 0, 0, 0, 0⟩
  | .mul rd ra rb => ⟨0xCC, rd, ra, rb, 0, 0, 0, 0⟩
  | .div rd ra rb => ⟨0xCD, rd, ra, rb, 0, 0, 0, 0⟩
  | .pow rd ra rb => ⟨0xCE, rd, ra, rb, 0, 0, 0, 0⟩
  | .sqrt rd ra => ⟨0xCF, rd, ra, 0, 0, 0, 0, 0⟩
  | .abs rd ra => ⟨0xD0, rd, ra, 0, 0, 0, 0, 0⟩
  | .sin rd ra => ⟨0xD1, rd, ra, 0, 0, 0, 0, 0⟩
  | .cos rd ra => ⟨0xD2, rd, ra, 0, 0, 0, 0, 0⟩
  | .tan rd ra => ⟨0xD3, rd, ra, 0, 0, 0, 0, 0⟩
  | .asin rd ra => ⟨0xD4, rd, ra, 0, 0, 0, 0, 0⟩
  | .acos rd ra => ⟨0xD5, rd, ra, 0, 0, 0, 0, 0⟩
  | .atan rd ra => ⟨0xD6, rd, ra, 0, 0, 0, 0, 0⟩
  | .sinh rd ra => ⟨0xD7, rd, ra, 0, 0, 0, 0, 0⟩
  | .cosh rd ra => ⟨0xD8, rd, ra, 0, 0, 0, 0, 0⟩
  | .tanh rd ra => ⟨0xD9, rd, ra, 0, 0, 0, 0, 0⟩
  | .asinh rd ra => ⟨0xDA, rd, ra, 0, 0, 0, 0, 0⟩
  | .acosh rd ra => ⟨0xDB, rd, ra, 0, 0, 0, 0, 0⟩
  | .atanh rd ra => ⟨0xDC, rd, ra, 0, 0, 0, 0, 0⟩
  | .ceiling rd ra => ⟨0xDD, rd, ra, 0, 0, 0, 0, 0⟩
  | .floor rd ra => ⟨0xDE, rd, ra, 0, 0, 0, 0, 0⟩
  | .truncate rd ra => ⟨0xDF, rd, ra, 0, 0, 0, 0, 0⟩
  | .log rd ra => ⟨0xE0, rd, ra, 0, 0, 0, 0, 0⟩
  | .log10 rd ra => ⟨0xE1, rd, ra, 0, 0, 0, 0, 0⟩
  | .exp rd ra => ⟨0xE2, rd, ra, 0, 0, 0, 0, 0⟩
  | .cbrt rd ra => ⟨0xE3, rd, ra, 0, 0, 0, 0, 0⟩
  | .atan2 rd ra rb => ⟨0xE4, rd, ra, rb, 0, 0, 0, 0⟩
  | .min rd ra rb => ⟨0xE5, rd, ra, rb, 0, 0, 0, 0⟩
  | .max rd ra rb => ⟨0xE6, rd, ra, rb, 0, 0, 0, 0⟩
  | .bitinc rd ra => ⟨0xE7, rd, ra, 0, 0, 0, 0, 0⟩
  | .bitdec rd ra => ⟨0xE8, rd, ra, 0, 0, 0, 0, 0⟩

/-- The word of an instruction (spec/30_encoding R60); for a well-formed instruction the decoder gives it back. -/
def encode (i : Instr) : Word := encFields i.toFields

end Sys2Proof
end

