-- ==== Sys2Proof/Config.lean ====
section
/-!
DEFINITION. What the spec leaves OPEN: the host's functions, the draws and the codes to which it gives no value. Each is a
constant with no body, so a theorem about it holds whatever its value is.
-/

namespace Sys2Proof

/-- The one-operand host functions `MATHF.<fn>` (spec/47_math_table R112..R123, R127..R130). -/
inductive HostFn1 where
  | sin | cos | tan | asin | acos | atan
  | sinh | cosh | tanh | asinh | acosh | atanh
  | log | log10 | exp | cbrt
  deriving DecidableEq, Repr

/-- The two-operand host functions: `MATHF.pow` (spec/44_alu R96) and `MATHF.atan2` (spec/47_math_table R131). -/
inductive HostFn2 where
  | pow | atan2
  deriving DecidableEq, Repr

/-- The halts whose message the spec leaves unspecified (spec/60_exceptions R136, 92 D58): every halt but the unknown
opcode, the halt triplet and a native routine's own error. -/
inductive HaltCause where
  | cellRange | deviceNotFound | externUnresolved | argumentsUnimplemented
  | divisionByZero | nonFinite | floatModeRequired | streamExhausted
  deriving DecidableEq, Repr

/-- What an invoked native routine gives back (spec/45_frame_extern R101): success, with the host's conversion
`toWord(out.value)` of its result (used only when the routine is non-void), or an error with its text. -/
inductive NativeOutcome where
  | ok (word : Word)
  | error (text : String)
  deriving DecidableEq, Repr, Inhabited

namespace Config

/-- Free value: the answer of device `id` to a read of `port`, as draw number `n` (spec/42_device R76, U8). Log 5. -/
opaque deviceAnswer (n : Nat) (id port : Nibble) : Word

/-- Free value: what the native routine of a signature gives back, as draw number `n` (spec/45_frame_extern R101, U9). Log 7. -/
opaque nativeOutcome (n : Nat) (signature : BitVec 32) : NativeOutcome

/-- Free value: the sign bit of the `FLOAT_NAN` pattern of draw number `n` (spec/44_alu R89(e), U7). Log 6. -/
opaque nanSign (n : Nat) : BitVec 1

/-- Free value: the fraction of the `FLOAT_NAN` pattern of draw number `n`, less one, so that bits 22:0 are any of the
2^23 - 1 values that are not 0 (spec/44_alu R89(e)). Log 6. -/
opaque nanFractionLessOne (n : Nat) : Fin 8388607

/-- OPEN: the host's one-operand binary32 functions (92 D47). Log 8. -/
opaque mathf1 (fn : HostFn1) (a : F32) : F32

/-- OPEN: the host's two-operand binary32 functions (92 D47). Log 8. -/
opaque mathf2 (fn : HostFn2) (a b : F32) : F32

/-- OPEN: `FLOAT_TO_TEXT`, the bytes `emit` sends for a binary32 value (spec/42_device R77, 92 D20). Log 9. -/
opaque floatToText (a : F32) : List Byte

/-- OPEN: `OOR_HALT_CODE` (spec/20_memory R39, 92 D8). Log 10. -/
opaque oorHaltCode : Nat

/-- OPEN: `DEVICE_NOT_FOUND_CODE` (92 D31). Log 10. -/
opaque deviceNotFoundCode : Nat

/-- OPEN: `EXTERN_HALT_BASE` (92 D31). Log 10. -/
opaque externHaltBase : Nat

/-- OPEN: how far the offset of failure kind `k` lies above that of kind `k - 1`, less one; the kinds are numbered in the
order of their offsets, which are distinct (92 D31). Log 10. -/
opaque externKindGap (k : Nat) : Nat

/-- Free value: the failure kind of a signature the registry does not list (spec/45_frame_extern R101). Log 12. -/
opaque unlistedSignatureKind (signature : BitVec 32) : Nat

/-- Free value: the message of a halt at the word with index `pc`, where the spec leaves it unspecified (92 D58). Log 11. -/
opaque haltMessage (cause : HaltCause) (pc : Word) : Option String

end Config

end Sys2Proof
end

