-- ==== Sys2Proof/Machine/Float.lean ====
section
/-!
DEFINITION. Binary32 arithmetic (spec/44_alu R89, spec/47_math_table R110): exact, over natural numbers, with one rounding
at the end. A finite datum is a whole number of units of 2^-149, the smallest subnormal. A function answers `none` for a
NaN, whose pattern is a draw, and `some` pattern for every other datum. The format is the spec's own general knowledge
(GK1..GK8, log 21).
-/

namespace Sys2Proof.Machine

/-! ## The parts of a pattern -/

/-- Bits 30:0, which order the magnitudes: 0 for zero, 0x7F800000 for infinity, more for a NaN. -/
def magnitudeCode (a : F32) : Nat := a.toNat % 2 ^ 31

/-- The magnitude code of infinity. -/
def infinityCode : Nat := 0x7F800000

/-- Bit 31. -/
def isNegative (a : F32) : Bool := a.toNat / 2 ^ 31 == 1

/-- `finite(f)`: the exponent field is not 0xFF (spec/00_scope R14(d)). -/
def isFinite (a : F32) : Bool := magnitudeCode a < infinityCode

def isInfinite (a : F32) : Bool := magnitudeCode a == infinityCode

def isNaN (a : F32) : Bool := infinityCode < magnitudeCode a

/-- The magnitude of a finite datum, in units of 2^-149 (exponent bias 127, GK1): the fraction itself for a subnormal,
else the 24-bit significand shifted by the exponent field less one. -/
def units (a : F32) : Nat :=
  let e := magnitudeCode a / 2 ^ 23
  let f := magnitudeCode a % 2 ^ 23
  if e = 0 then f else (2 ^ 23 + f) * 2 ^ (e - 1)

/-- The value of a finite datum, in units of 2^-149. -/
def signedUnits (a : F32) : Int := if isNegative a then -(units a : Int) else units a

/-- The datum with a sign and a magnitude code. -/
def withSign (negative : Bool) (code : Nat) : F32 :=
  BitVec.ofNat 32 (if negative then 2 ^ 31 + code else code)

/-! ## Rounding (roundTiesToEven, the one mode: spec/44_alu R89(b)) -/

/-- The quotient `num / den` rounded to the nearest natural number, a tie to the even one. -/
def divNearestEven (num den : Nat) : Nat :=
  let q := num / den
  let r := num % den
  if 2 * r < den then q
  else if den < 2 * r then q + 1
  else if q % 2 = 0 then q else q + 1

/-- How many low bits a magnitude of `whole` units has beyond 24. -/
def excessBits (whole : Nat) : Nat := Nat.log2 whole - 23

/-- The magnitude code of `num / den` units, rounded. A carry out of the significand raises the exponent by itself, and
what rounds to 2^128 or more is infinity; subnormals are kept (R89(c)). -/
def roundCode (num den : Nat) : Nat :=
  let e := excessBits (num / den)
  min infinityCode (e * 2 ^ 23 + divNearestEven num (den * 2 ^ e))

/-- A signed exact quotient of units, rounded. -/
def roundSigned (negative : Bool) (num den : Nat) : F32 := withSign negative (roundCode num den)

/-- An exact sum of units, rounded; `zeroSign` is the sign a zero sum takes. -/
def roundSum (zeroSign : Bool) (v : Int) : F32 :=
  if v = 0 then withSign zeroSign 0 else roundSigned (v < 0) v.natAbs 1

/-! ## Arithmetic (spec/44_alu R92..R97) -/

def floatNeg (a : F32) : F32 := a ^^^ 0x80000000

/-- `fa + fb`. An exact zero sum is +0 unless both operands are negative zeros. -/
def floatAdd (a b : F32) : Option F32 :=
  if isNaN a || isNaN b then none
  else if isInfinite a then
    if isInfinite b && isNegative a != isNegative b then none else some a
  else if isInfinite b then some b
  else some (roundSum (isNegative a && isNegative b) (signedUnits a + signedUnits b))

/-- `fa - fb`. -/
def floatSub (a b : F32) : Option F32 := floatAdd a (floatNeg b)

/-- `fa * fb`: the product of the units counts units of 2^-298. -/
def floatMul (a b : F32) : Option F32 :=
  let sign := isNegative a != isNegative b
  if isNaN a || isNaN b then none
  else if isInfinite a || isInfinite b then
    if magnitudeCode a = 0 || magnitudeCode b = 0 then none else some (withSign sign infinityCode)
  else some (roundSigned sign (units a * units b) (2 ^ 149))

/-- `fa / fb`. A finite number over zero is an infinity (R89(f)). -/
def floatDiv (a b : F32) : Option F32 :=
  let sign := isNegative a != isNegative b
  if isNaN a || isNaN b then none
  else if isInfinite a then
    if isInfinite b then none else some (withSign sign infinityCode)
  else if isInfinite b then some (withSign sign 0)
  else if units b = 0 then
    if units a = 0 then none else some (withSign sign infinityCode)
  else some (roundSigned sign (units a * 2 ^ 149) (units b))

/-- The integer square root of `n < 4^k`, one bit of the root at a time from bit `k - 1` down. -/
def rootBits : Nat → Nat → Nat → Nat
  | 0, _, r => r
  | k + 1, n, r => rootBits k n (if (r + 2 ^ k) * (r + 2 ^ k) ≤ n then r + 2 ^ k else r)

/-- `floor(sqrt(n))` for `n < 4^k`. -/
def floorSqrt (k n : Nat) : Nat := rootBits k n 0

/-- `sqrt(fa)`. The root of `u` units of 2^-149 is the root of `u * 2^149` units; where that is no whole number, a half
beyond its floor stands for it, which rounds alike since every midpoint between data of this size is whole. -/
def floatSqrt (a : F32) : Option F32 :=
  if isNaN a then none
  else if magnitudeCode a = 0 then some a
  else if isNegative a then none
  else if isInfinite a then some a
  else
    let n := units a * 2 ^ 149
    let r := floorSqrt 213 n
    some (roundSigned false (2 * r + (if r * r = n then 0 else 1)) 2)

/-! ## Comparison -/

/-- Where a datum that is no NaN stands in the order of IEEE minimum and maximum, with -0 below +0. -/
def orderKey (a : F32) : Int :=
  if isNegative a then -(magnitudeCode a : Int) - 1 else magnitudeCode a

/-- Where a datum that is no NaN stands in the order of comparison, with -0 equal to +0. -/
def compareKey (a : F32) : Int :=
  if isNegative a then -(magnitudeCode a : Int) else magnitudeCode a

/-! ## The exact functions of the math table (spec/47_math_table R111, R124..R126, R132..R135) -/

/-- `abs` clears the sign bit, of a NaN too (R111). -/
def floatAbs (a : F32) : F32 := a &&& 0x7FFFFFFF

/-- How many units make one. -/
def unitsPerOne : Nat := 2 ^ 149

/-- Rounding to an integral value that keeps the sign, by the integral part of the magnitude and whether to go one up. -/
def roundIntegral (up : F32 → Bool) (a : F32) : Option F32 :=
  if isNaN a then none
  else if isInfinite a then some a
  else
    let whole := units a / unitsPerOne
    let n := if units a % unitsPerOne ≠ 0 && up a then whole + 1 else whole
    some (roundSigned (isNegative a) (n * unitsPerOne) 1)

/-- roundToIntegralTowardPositive (R124). -/
def floatCeiling (a : F32) : Option F32 := roundIntegral (fun x => !isNegative x) a

/-- roundToIntegralTowardNegative (R125). -/
def floatFloor (a : F32) : Option F32 := roundIntegral isNegative a

/-- roundToIntegralTowardZero (R126). -/
def floatTruncate (a : F32) : Option F32 := roundIntegral (fun _ => false) a

/-- minimum (R132): a NaN if either is; else the smaller, with -0 < +0. -/
def floatMin (a b : F32) : Option F32 :=
  if isNaN a || isNaN b then none else some (if orderKey a ≤ orderKey b then a else b)

/-- maximum (R133): a NaN if either is; else the larger, with +0 > -0. -/
def floatMax (a b : F32) : Option F32 :=
  if isNaN a || isNaN b then none else some (if orderKey a ≤ orderKey b then b else a)

/-- nextUp (R134). -/
def floatBitInc (a : F32) : Option F32 :=
  if isNaN a then none
  else if magnitudeCode a = 0 then some 0x00000001
  else if isNegative a then some (a - 1)
  else if isInfinite a then some a
  else some (a + 1)

/-- nextDown (R135). -/
def floatBitDec (a : F32) : Option F32 :=
  if isNaN a then none
  else if magnitudeCode a = 0 then some 0x80000001
  else if !isNegative a then some (a - 1)
  else if isInfinite a then some a
  else some (a + 1)

/-! ## Host functions and NaN patterns -/

/-- A host function's result: its datum, or a NaN, whose pattern is drawn like every other (R89(e), R110). -/
def hostResult (f : F32) : Option F32 := if isNaN f then none else some f

/-- The `FLOAT_NAN` pattern of draw number `n`: bits 30:23 are 0xFF and bits 22:0 are not 0 (R89(e)). -/
def nanPattern (n : Nat) : F32 :=
  Config.nanSign n ++ (0xFF#8 ++ BitVec.ofNat 23 ((Config.nanFractionLessOne n).val + 1))

end Sys2Proof.Machine
end

