-- ==== Sys2Proof/Machine/State.lean ====
section
/-!
DEFINITION. The state of the machine (spec/10_state.md), the launch parameters a step reads (spec/00_scope R7, R9, R33), the
reasons a step stops, and the state at launch (spec/70_reset R149). Plain data throughout.
-/

namespace Sys2Proof.Machine

/-- The cell store as (cell index, value) pairs, indices strictly rising, no pair with the value an unlisted cell reads as
(`Memory.wf`). The unit is the cell, the spec's smallest addressable unit (spec/20_memory R35). Log 15. -/
abbrev Memory := List (Nat × Word)

/-- The break-mode cell `brk` with its states 0..3 (spec/10_state R28). -/
inductive BreakMode where
  /-- 0: idle. -/
  | idle
  /-- 1: trigger after this step. -/
  | afterThisStep
  /-- 2: trigger now. -/
  | triggerNow
  /-- 3: armed, deferred. -/
  | armedDeferred
  deriving DecidableEq, Repr

/-- The run state (spec/10_state R31). -/
inductive Run where
  | running
  | halted (code : Nat) (msg : Option String)
  deriving DecidableEq, Repr

/-- A default-initialised placeholder of a type tag; its construction is the host's (spec/45_frame_extern R102). Log 23. -/
structure Placeholder where
  tag : Word
  deriving DecidableEq, Repr

/-- An evaluation frame (spec/10_state R30): the declared slot count, the slots (empty or a placeholder), and the frame's
own scratch stack. -/
structure Frame where
  count : Nat
  slots : List (Option Placeholder)
  scratch : List Word
  deriving DecidableEq, Repr

/-- One `Device.write(port, value)` call on the bus (spec/20_memory R37). -/
structure DevWrite where
  device : Nibble
  port : Nibble
  value : Word
  deriving DecidableEq, Repr

/-- A registered native routine as far as `xcall` looks at it (spec/45_frame_extern R101). -/
structure Routine where
  hasArgs : Bool
  returnsValue : Bool
  deriving DecidableEq, Repr

/-- `ResolutionResult`: a routine, or a not-found or ambiguous kind (spec/45_frame_extern R101). Log 10 numbers the kinds. -/
inductive Resolution where
  | found (routine : Routine)
  | failed (kind : Nat)
  deriving DecidableEq, Repr

/-- `UNLISTED_POLICY` (spec/40_system R62). -/
inductive UnlistedPolicy where
  | haltFC
  | refuse
  deriving DecidableEq, Repr

/-- `JUMP_CMP` (92 D16). Log 17. -/
inductive JumpCmp where
  | unsigned
  | signed
  | floatInFloatMode
  deriving DecidableEq, Repr

/-- `LONG_VALUE_ASSEMBLY` (92 D18): shifts 24, 16, 8, 0, or 12, 8, 4, 0. -/
inductive LongAssembly where
  | spread
  | dense
  deriving DecidableEq, Repr

/-- The launch parameters of the step relation (spec/00_scope R7, R9). No step writes them. Log 1. -/
structure Params where
  /-- `MEM_CELLS` (R19). -/
  memCells : Nat
  /-- `STACK_DEPTH`; `none` is unbounded (R29). -/
  stackDepth : Option Nat
  /-- `DEVICES`: the ids `find` finds (R37). -/
  devices : List Nibble
  /-- `REGISTRY`: the first entry of a signature counts; an unlisted one does not resolve (R101). -/
  registry : List (BitVec 32 × Resolution)
  /-- `TYPE_TAGS` (R102). -/
  typeTags : List Word
  unlistedPolicy : UnlistedPolicy
  jumpCmp : JumpCmp
  /-- `INT_DIV_SIGNED` (R88). -/
  intDivSigned : Bool
  longAssembly : LongAssembly
  deriving DecidableEq, Repr

/-- The state of the machine. -/
@[ext]
structure State where
  /-- The cell store, registers r0..r15 among its cells (R19, R20). -/
  cells : Memory
  /-- The index of the word being executed, or to be fetched next (R22). -/
  pc : Word
  /-- Float mode (R23). -/
  ff : Bool
  /-- Stack-forward (R23). -/
  sf : Bool
  /-- Breakpoint-armed (R23). -/
  bf : Bool
  /-- Fast-write; no rule reads it (R27). -/
  fw : Bool
  /-- The break-mode cell (R28). -/
  brk : BreakMode
  /-- The value stack, its top first (R29). -/
  stack : List Word
  /-- The evaluation frame (R30). -/
  frame : Option Frame
  /-- Running or halted (R31). -/
  run : Run
  /-- The hook event record: the pc of each `Hook(p)`, oldest first (R109, R149). -/
  hookEvents : List Word
  /-- The device write record, oldest first (R149). -/
  devWrites : List DevWrite
  /-- `PROGRAM`, the read-only instruction stream (R33, R36). -/
  program : List Word
  /-- The other launch parameters (R33). -/
  params : Params
  /-- The model's own: how many free values have been drawn. Log 5. -/
  draws : Nat
  deriving DecidableEq, Repr

/-- Why a step faults: the model faults of spec/60_exceptions R138, of which the spec claims nothing, and the step that
does not exist. Every one is SAFE: the model stops where the hardware might go on. -/
inductive Fault where
  /-- The fetch phase, at `pc >= N` (R64). Safe. -/
  | endOfStream
  /-- `pull` on an empty stack (R73). Safe. -/
  | stackUnderflow
  /-- Any push onto a stack of `STACK_DEPTH` values (R29). Safe. -/
  | stackOverflow
  /-- `xor` and `or` with `ff = 1` (R98, R99). Safe. -/
  | bitwiseInFloatMode
  /-- `ret` executed by the step (R86). Safe. -/
  | retOutsideScan
  /-- `prune` without a frame (R103). Safe. -/
  | pruneWithoutFrame
  /-- A `locals` descriptor whose tag is not in `TYPE_TAGS` (R102). Safe. -/
  | badTypeTag
  /-- A `locals` descriptor whose slot is not below the count (R102). Safe. -/
  | badSlot
  /-- Signed division of -2^63 by -1, only under `INT_DIV_SIGNED` (R88). Safe. -/
  | divOverflow
  /-- An unlisted word under the `refuse` policy (R62). Safe. -/
  | unlisted
  /-- A step of a halted machine: there is none (R31, R61). Safe. Log 13. -/
  | noStepWhenHalted
  deriving DecidableEq, Repr

/-- Why the model declines to give a meaning. No instruction of this model raises it. -/
inductive Refusal where
  /-- An arm of `exec` with no meaning yet, by the mnemonic of its row. Safe. -/
  | notModelled (mnemonic : String)
  deriving DecidableEq, Repr

/-- What a meaning, a phase or a step answers. -/
abbrev Result := Host.Outcome State Fault Refusal

namespace State

/-! The updates a step makes, one a field. There is none for a mode flag, the stream or a parameter (R23, R33, R36). -/

def setCells (s : State) (m : Memory) : State := { s with cells := m }
def setPc (s : State) (a : Word) : State := { s with pc := a }
def setBrk (s : State) (b : BreakMode) : State := { s with brk := b }
def setStack (s : State) (l : List Word) : State := { s with stack := l }
def setFrame (s : State) (f : Option Frame) : State := { s with frame := f }
def setRun (s : State) (r : Run) : State := { s with run := r }
def setHookEvents (s : State) (l : List Word) : State := { s with hookEvents := l }
def setDevWrites (s : State) (l : List DevWrite) : State := { s with devWrites := l }
def setDraws (s : State) (n : Nat) : State := { s with draws := n }

end State

/-- The parameters at the values this spec chooses (spec/00_scope R7); the launch arguments among them are empty (log 14). -/
def Params.default : Params where
  memCells := 256
  stackDepth := none
  devices := []
  registry := []
  typeTags := []
  unlistedPolicy := .haltFC
  jumpCmp := .unsigned
  intDivSigned := false
  longAssembly := .spread

/-- The state a launch establishes (spec/70_reset R149). The cells (log 2) and the stream (log 4) are launch arguments to
which the spec gives no value. -/
def State.reset : State where
  cells := []
  pc := 0
  ff := false
  sf := false
  bf := false
  fw := false
  brk := .idle
  stack := []
  frame := none
  run := .running
  hookEvents := []
  devWrites := []
  program := []
  params := Params.default
  draws := 0

end Sys2Proof.Machine
end

