-- ==== Sys2Proof/Machine/Operands.lean ====
section
/-!
DEFINITION. The operand forms that the execute phase reads (spec/20_memory R38, spec/30_encoding R54): cell indices,
binary32 operands and results in a cell, the long device immediate, and the comparison of the conditional jumps.
-/

namespace Sys2Proof.Machine

/-! ## Cell indices (spec/20_memory R38) -/

/-- `reg(f)`: cell `f`, 0..15. -/
def regIndex (f : Nibble) : Nat := f.toNat

/-- `pair(h, l)`: cell `16*h + l`, 0..255; the decoder has joined the nibbles. -/
def pairIndex (p : Byte) : Nat := p.toNat

/-- The derived index `r1 + 1`, 1..16. -/
def nextIndex (f : Nibble) : Nat := f.toNat + 1

/-! ## Immediates and counts -/

/-- `zext_64` of an 8-bit immediate. -/
def immWord (imm : Byte) : Word := imm.zeroExtend 64

/-- A count nibble. -/
def countOf (n : Nibble) : Nat := n.toNat

/-- `imm_long` of r3, u1, u2, x1 under `LONG_VALUE_ASSEMBLY` (spec/42_device R75, 92 D18). -/
def immLong (how : LongAssembly) (n3 n2 n1 n0 : Nibble) : Word :=
  match how with
  | .spread =>
    (n3.zeroExtend 64 <<< 24) ||| (n2.zeroExtend 64 <<< 16) ||| (n1.zeroExtend 64 <<< 8) ||| n0.zeroExtend 64
  | .dense =>
    (n3.zeroExtend 64 <<< 12) ||| (n2.zeroExtend 64 <<< 8) ||| (n1.zeroExtend 64 <<< 4) ||| n0.zeroExtend 64

/-- The short device value: bits 7:0 (spec/42_device R74). -/
def lowByte (v : Word) : Word := v &&& 0xFF

/-- The extern signature of a register: its low 32 bits (spec/45_frame_extern R101). -/
def signatureOf (v : Word) : BitVec 32 := v.extractLsb' 0 32

/-! ## Binary32 in a cell (spec/00_scope R14) -/

/-- `f32(v)`: the low 32 bits. -/
def f32 (v : Word) : F32 := v.extractLsb' 0 32

/-- `box(f)`: the pattern with 32 zeros above it. -/
def box (f : F32) : Word := f.zeroExtend 64

/-! ## The comparison of the conditional jumps (spec/43_control R80..R83) -/

/-- The four comparisons, by the letter of their mnemonic. -/
inductive JumpTest where
  /-- `jump_e`: a >= b. -/
  | e
  /-- `jump_g`: a > b. -/
  | g
  /-- `jump_u`: a < b. -/
  | u
  /-- `jump_y`: a <= b. -/
  | y
  deriving DecidableEq, Repr

/-- A comparison of two integers. -/
def JumpTest.onInt (t : JumpTest) (a b : Int) : Bool :=
  match t with
  | .e => b ≤ a
  | .g => b < a
  | .u => a < b
  | .y => a ≤ b

/-- A comparison of two binary32 data: false when either is a NaN; -0 equals +0. Log 17. -/
def JumpTest.onFloat (t : JumpTest) (a b : F32) : Bool :=
  !isNaN a && !isNaN b && t.onInt (compareKey a) (compareKey b)

/-- Whether a conditional jump jumps, under `JUMP_CMP`: unsigned by default, `ff` ignored (92 D16). -/
def JumpTest.holds (t : JumpTest) (how : JumpCmp) (ff : Bool) (a b : Word) : Bool :=
  match how with
  | .unsigned => t.onInt a.toNat b.toNat
  | .signed => t.onInt a.toInt b.toInt
  | .floatInFloatMode => if ff then t.onFloat (f32 a) (f32 b) else t.onInt a.toNat b.toNat

end Sys2Proof.Machine
end

