-- ==== Sys2Proof/Machine/Ops.lean ====
section
/-!
DEFINITION. The named operations over the state that every meaning is made of (spec/00_scope R12, R13, R16). An operation
that can end the step takes what follows it as an argument, so a halt or a fault skips the rest, and what the rule did
before it remains (R13(a)).
-/

namespace Sys2Proof.Machine

/-! ## The cell store -/

/-- What a cell that is not listed reads as. DESIGN CHOICE: the spec gives no initial contents. Unsafe. Log 2. -/
def blankCell : Word := 0

/-- The value of cell `i`. -/
def Memory.read : Memory → Nat → Word
  | [], _ => blankCell
  | (j, v) :: m, i => if j = i then v else Memory.read m i

/-- Puts an entry before the first entry with a higher index. -/
def Memory.insertEntry (i : Nat) (v : Word) : Memory → Memory
  | [] => [(i, v)]
  | (j, w) :: m => if i < j then (i, v) :: (j, w) :: m else (j, w) :: Memory.insertEntry i v m

/-- The store with cell `i` holding `v`, in canonical form when it was. -/
def Memory.write (m : Memory) (i : Nat) (v : Word) : Memory :=
  if v = blankCell then m.filter (fun e => e.1 != i)
  else Memory.insertEntry i v (m.filter (fun e => e.1 != i))

/-- Whether the indices rise strictly. -/
def Memory.sorted : Memory → Bool
  | [] => true
  | e :: m => m.all (fun e' => e.1 < e'.1) && Memory.sorted m

/-- The canonical form: indices strictly rising, and no entry that an unlisted cell would equal. -/
def Memory.wf (m : Memory) : Bool := m.sorted && m.all (fun e => e.2 != blankCell)

/-- The value of cell `i` of a state. -/
def State.cell (s : State) (i : Nat) : Word := s.cells.read i

/-! ## Taking an exception: the halt (spec/60_exceptions R136, R140; spec/40_system R63)

The one exception this machine takes. It saves nothing, there is no handler and no mode: run becomes `Halted(code, msg)`,
and the pc and everything else stay as they are. Nothing returns from it (R141). -/

/-- `raise Halt(code, msg)`. -/
def raiseHalt (code : Nat) (msg : Option String) (s : State) : Result :=
  .next (s.setRun (.halted code msg))

/-- A halt whose message the spec leaves unspecified (92 D58). Log 11. -/
def raiseHaltFor (cause : HaltCause) (code : Nat) (s : State) : Result :=
  raiseHalt code (Config.haltMessage cause s.pc) s

/-- The halt codes the spec gives (spec/60_exceptions R136). -/
def unknownOpcodeCode : Nat := 0xFC
def divisionByZeroCode : Nat := 0xC
def floatCode : Nat := 0xA9
def streamExhaustedCode : Nat := 0xA1
def nativeCallCode : Nat := 0xA22

/-- `EXTERN_KIND_OFFSET(k)`: distinct for distinct kinds, since kinds are numbered in the order of their offsets. Log 10. -/
def externKindOffset : Nat → Nat
  | 0 => Config.externKindGap 0
  | k + 1 => externKindOffset k + Config.externKindGap (k + 1) + 1

/-! ## The program counter -/

/-- `pc <- pc + 1`, the end of a rule that does not redirect (spec/40_system R61). -/
def advance (s : State) : Result := .next (s.setPc (s.pc + 1))

/-- `pc <- pc + 1 + n`: past `n` inline words. -/
def advancePast (n : Nat) (s : State) : Result := .next (s.setPc (s.pc + 1 + BitVec.ofNat 64 n))

/-- `pc <- t`, a redirection. -/
def jumpTo (t : Word) (s : State) : Result := .next (s.setPc t)

/-! ## Cells (spec/20_memory R39) -/

/-- The range halt. -/
def haltOutOfRange (s : State) : Result := raiseHaltFor .cellRange Config.oorHaltCode s

/-- `x[i]`, after its range check. -/
def readCell (i : Nat) (s : State) (k : Word → Result) : Result :=
  if i < s.params.memCells then k (s.cell i) else haltOutOfRange s

/-- `x[i] <- v`, after its range check. `fw` plays no part (spec/10_state R27). -/
def writeCell (i : Nat) (v : Word) (s : State) (k : State → Result) : Result :=
  if i < s.params.memCells then k (s.setCells (s.cells.write i v)) else haltOutOfRange s

/-! ## The stack (spec/10_state R29) -/

/-- Whether the stack can take `n` more values. -/
def State.hasRoom (s : State) (n : Nat) : Bool :=
  match s.params.stackDepth with
  | none => true
  | some depth => s.stack.length + n ≤ depth

/-- `push(v)`. -/
def push (v : Word) (s : State) (k : State → Result) : Result :=
  if s.hasRoom 1 then k (s.setStack (v :: s.stack)) else .fault .stackOverflow

/-- `pop()`. -/
def pop (s : State) (k : Word → State → Result) : Result :=
  match s.stack with
  | [] => .fault .stackUnderflow
  | v :: rest => k v (s.setStack rest)

/-- `dest(i, v)`, the end of an arithmetic rule: push when `sf = 1`, else write cell `i` (spec/00_scope R16). -/
def dest (i : Nat) (v : Word) (s : State) : Result :=
  if s.sf then push v s advance else writeCell i v s advance

/-! ## Draws: values the spec leaves to the host (spec/00_scope R9) -/

/-- Uses up the current draw number. -/
def State.drawn (s : State) : State := s.setDraws (s.draws + 1)

/-- The cell value of a float result; a NaN takes a `FLOAT_NAN` pattern (spec/44_alu R89(e)). -/
def settleFloat (r : Option F32) (s : State) (k : Word → State → Result) : Result :=
  match r with
  | some f => k (box f) s
  | none => k (box (nanPattern s.draws)) s.drawn

/-! ## The instruction stream (spec/20_memory R36) -/

/-- `Fetch(a)`: word `a` of the stream, or none at or past its end. Addresses are natural numbers. Log 20. -/
def State.fetch (s : State) (a : Nat) : Option Word := s.program[a]?

/-- A fetch inside an instruction: exhaustion halts with 0xA1 (spec/43_control R84, R85, spec/45_frame_extern R102). -/
def fetchInside (a : Nat) (s : State) (k : Word → Result) : Result :=
  match s.fetch a with
  | some w => k w
  | none => raiseHaltFor .streamExhausted streamExhaustedCode s

/-- The stream with word `a` set to `w`, made longer by `nop` words where it is too short. -/
def placeWord (program : List Word) (a : Nat) (w : Word) : List Word :=
  if a < program.length then program.set a w
  else program ++ (List.replicate (a - program.length) 0 ++ [w])

/-! ## Host services (spec/20_memory R37, spec/46_debug R109, spec/45_frame_extern R101) -/

/-- `Hook(p)`: appends the event and changes nothing else (92 D37). -/
def hook (p : Word) (s : State) : State := s.setHookEvents (s.hookEvents ++ [p])

/-- `Dev(id)`: halts when `find(id)` fails. -/
def findDevice (id : Nibble) (s : State) (k : Result) : Result :=
  if id ∈ s.params.devices then k else raiseHaltFor .deviceNotFound Config.deviceNotFoundCode s

/-- `d.write(port, v)`, recorded. -/
def writeDevice (id port : Nibble) (v : Word) (s : State) : State :=
  s.setDevWrites (s.devWrites ++ [{ device := id, port := port, value := v }])

/-- One `d.write(port, c)` for each byte of a text, in order. -/
def writeDeviceText (id port : Nibble) : List Byte → State → State
  | [], s => s
  | c :: text, s => writeDeviceText id port text (writeDevice id port (c.zeroExtend 64) s)

/-- `REGISTRY.resolve(signature)`; a signature without an entry fails with a free kind. Log 12. -/
def resolveIn : List (BitVec 32 × Resolution) → BitVec 32 → Resolution
  | [], signature => .failed (Config.unlistedSignatureKind signature)
  | (sg, r) :: rest, signature => if sg = signature then r else resolveIn rest signature

/-! ## An unlisted word (spec/40_system R62) -/

/-- `Unlisted()`. -/
def unlistedWord (s : State) : Result :=
  match s.params.unlistedPolicy with
  | .haltFC => raiseHalt unknownOpcodeCode (some "unknown opcode") s
  | .refuse => .fault .unlisted

end Sys2Proof.Machine
end

