-- ==== Sys2Proof/Machine/Flags.lean ====
section
/-!
DEFINITION. The flag computations. The machine has no condition flags (spec/10_state R32) and no rule writes a mode flag
(R23); what there is to compute is the break-mode cell before and after a step (spec/46_debug R104, R105) and the
selection that `ff` makes (spec/44_alu R87).
-/

namespace Sys2Proof.Machine

/-- `brk` after the pre-step phase: 3 becomes 2 (spec/46_debug R104). -/
def escalate : BreakMode → BreakMode
  | .armedDeferred => .triggerNow
  | .idle => .idle
  | .afterThisStep => .afterThisStep
  | .triggerNow => .triggerNow

/-- Whether the post-step phase fires the hook: `brk` is 1 or 2 (spec/46_debug R105). -/
def firesAfterStep : BreakMode → Bool
  | .afterThisStep => true
  | .triggerNow => true
  | .idle => false
  | .armedDeferred => false

/-- `PreStep()` (spec/46_debug R104). -/
def preStep (s : State) : State :=
  let hooked := if s.bf then hook s.pc s else s
  hooked.setBrk (escalate s.brk)

/-- `PostStep()`, whose pc is already the next one (spec/46_debug R105). -/
def postStep (s : State) : State :=
  if firesAfterStep s.brk then (hook s.pc s).setBrk .idle else s

/-- The end of a step whose rule answered `s`: `PostStep`, unless the rule halted (spec/40_system R61). -/
def finishStep (s : State) : State :=
  match s.run with
  | .running => postStep s
  | .halted _ _ => s

/-- The math table's check of `ff`, before any read (spec/47_math_table R110). -/
def requireFloatMode (s : State) (k : Result) : Result :=
  if s.ff then k else raiseHaltFor .floatModeRequired floatCode s

/-- The bitwise check of `ff`, before any read (spec/44_alu R98, R99). -/
def requireIntegerMode (s : State) (k : Result) : Result :=
  if s.ff then .fault .bitwiseInFloatMode else k

end Sys2Proof.Machine
end

