-- ==== Sys2Proof/Machine/Alu.lean ====
section
/-!
DEFINITION. The dual-mode arithmetic unit (spec/44_alu.md).
-/

namespace Sys2Proof.Machine

/-! ## The two paths (R87) -/

/-- The integer path of a one-operand operation. -/
def intUnary (op : Word → Word) (rd ra : Nibble) (s : State) : Result :=
  readCell (regIndex ra) s fun a => dest (regIndex rd) (op a) s

/-- The integer path of a two-operand operation. -/
def intBinary (op : Word → Word → Word) (rd ra rb : Nibble) (s : State) : Result :=
  readCell (regIndex ra) s fun a => readCell (regIndex rb) s fun b => dest (regIndex rd) (op a b) s

/-- The float path of a one-operand operation. -/
def floatUnary (op : F32 → Option F32) (rd ra : Nibble) (s : State) : Result :=
  readCell (regIndex ra) s fun a => settleFloat (op (f32 a)) s fun v s => dest (regIndex rd) v s

/-- The float path of a two-operand operation. -/
def floatBinary (op : F32 → F32 → Option F32) (rd ra rb : Nibble) (s : State) : Result :=
  readCell (regIndex ra) s fun a => readCell (regIndex rb) s fun b =>
    settleFloat (op (f32 a) (f32 b)) s fun v s => dest (regIndex rd) v s

/-! ## Integer functions (R88) -/

/-- `INT_POW`: `a^b mod 2^64` with `0^0 = 1`, by squaring over the `k` low bits of the exponent (R96). -/
def powBits : Nat → Word → Nat → Word
  | 0, _, _ => 1
  | k + 1, a, b => if b % 2 = 1 then a * powBits k (a * a) (b / 2) else powBits k (a * a) (b / 2)

/-- `INT_POW` at its default. Log 18. -/
def intPow (a b : Word) : Word := powBits 64 a b.toNat

/-- `INT_SQRT` at its default: `floor(sqrt(a))` of the unsigned value (R97). Log 18. -/
def intSqrt (a : Word) : Word := BitVec.ofNat 64 (floorSqrt 32 a.toNat)

/-- The most negative signed value, -2^63. -/
def minSigned : Word := 0x8000000000000000

/-- The integer path of `div` (R88, R95): both operands are read before the divisor is tested, and the halt comes before
any write or push. -/
def intDivide (rd ra rb : Nibble) (s : State) : Result :=
  readCell (regIndex ra) s fun a => readCell (regIndex rb) s fun b =>
    if b = 0 then raiseHaltFor .divisionByZero divisionByZeroCode s
    else if s.params.intDivSigned then
      if a = minSigned && b = -1 then .fault .divOverflow else dest (regIndex rd) (a.sdiv b) s
    else dest (regIndex rd) (a / b) s

/-! ## Instructions -/

/-- `inc` (R90): wrapping, whatever `ff` and `sf` are. -/
def execInc (rd : Nibble) (s : State) : Result :=
  readCell (regIndex rd) s fun v => writeCell (regIndex rd) (v + 1) s advance

/-- `dec` (R91): wrapping, whatever `ff` and `sf` are. -/
def execDec (rd : Nibble) (s : State) : Result :=
  readCell (regIndex rd) s fun v => writeCell (regIndex rd) (v - 1) s advance

/-- `add` (R92). -/
def execAdd (rd ra rb : Nibble) (s : State) : Result :=
  if s.ff then floatBinary floatAdd rd ra rb s else intBinary (fun a b => a + b) rd ra rb s

/-- `sub` (R93): first operand minus second. -/
def execSub (rd ra rb : Nibble) (s : State) : Result :=
  if s.ff then floatBinary floatSub rd ra rb s else intBinary (fun a b => a - b) rd ra rb s

/-- `mul` (R94). -/
def execMul (rd ra rb : Nibble) (s : State) : Result :=
  if s.ff then floatBinary floatMul rd ra rb s else intBinary (fun a b => a * b) rd ra rb s

/-- `div` (R95): first operand divided by second; only the integer path halts. -/
def execDiv (rd ra rb : Nibble) (s : State) : Result :=
  if s.ff then floatBinary floatDiv rd ra rb s else intDivide rd ra rb s

/-- `pow` (R96): first operand raised to the second. -/
def execPow (rd ra rb : Nibble) (s : State) : Result :=
  if s.ff then floatBinary (fun a b => hostResult (Config.mathf2 .pow a b)) rd ra rb s
  else intBinary intPow rd ra rb s

/-- `sqrt` (R97). -/
def execSqrt (rd ra : Nibble) (s : State) : Result :=
  if s.ff then floatUnary floatSqrt rd ra s else intUnary intSqrt rd ra s

/-- A bitwise operation of two pair-addressed cells; the first is also the destination (R98, R99). -/
def bitwise (op : Word → Word → Word) (ca cb : Byte) (s : State) : Result :=
  requireIntegerMode s (readCell (pairIndex ca) s fun a => readCell (pairIndex cb) s fun b =>
    dest (pairIndex ca) (op a b) s)

/-- `xor` (R98). -/
def execXor (ca cb : Byte) (s : State) : Result := bitwise (fun a b => a ^^^ b) ca cb s

/-- `or` (R99). -/
def execOr (ca cb : Byte) (s : State) : Result := bitwise (fun a b => a ||| b) ca cb s

/-- `ckft` (R100): in float mode, halts when the cell's binary32 reading is not finite; else no effect and no read. -/
def execCkft (c : Byte) (s : State) : Result :=
  if s.ff then
    readCell (pairIndex c) s fun v =>
      if isFinite (f32 v) then advance s else raiseHaltFor .nonFinite floatCode s
  else advance s

end Sys2Proof.Machine
end

