-- ==== Sys2Proof/Machine/Control.lean ====
section
/-!
DEFINITION. Program-counter capture, jumps, replay and the call/return scan (spec/43_control.md).
-/

namespace Sys2Proof.Machine

/-- `pcap` (R78): the index of this word into register `rd`. -/
def execPcap (rd : Nibble) (s : State) : Result :=
  writeCell (regIndex rd) s.pc s advance

/-- `jump_t` (R79): jumps to the word register `rt` names. -/
def execJumpT (rt : Nibble) (s : State) : Result :=
  readCell (regIndex rt) s fun t => jumpTo t s

/-- A conditional jump: `a = x[r2]`, `b = x[r3]` and `t = x[r1]` are read before the comparison. -/
def conditionalJump (test : JumpTest) (rt ra rb : Nibble) (s : State) : Result :=
  readCell (regIndex ra) s fun a => readCell (regIndex rb) s fun b => readCell (regIndex rt) s fun t =>
    if test.holds s.params.jumpCmp s.ff a b then jumpTo t s else advance s

/-- `jump_e` (R80): jumps when `x[ra] >= x[rb]`. -/
def execJumpE (rt ra rb : Nibble) (s : State) : Result := conditionalJump .e rt ra rb s

/-- `jump_g` (R81): jumps when `x[ra] > x[rb]`. -/
def execJumpG (rt ra rb : Nibble) (s : State) : Result := conditionalJump .g rt ra rb s

/-- `jump_u` (R82): jumps when `x[ra] < x[rb]`. -/
def execJumpU (rt ra rb : Nibble) (s : State) : Result := conditionalJump .u rt ra rb s

/-- `jump_y` (R83): jumps when `x[ra] <= x[rb]`. -/
def execJumpY (rt ra rb : Nibble) (s : State) : Result := conditionalJump .y rt ra rb s

/-- Pushes the `n` raw words from address `a` on; the end of the stream halts, and what was pushed remains (R84). -/
def pushWords : Nat → Nat → State → (State → Result) → Result
  | 0, _, s, k => k s
  | n + 1, a, s, k => fetchInside a s fun w => push w s fun s => pushWords n (a + 1) s k

/-- `orb` (R84): pushes the next `count` words and continues past them. -/
def execOrb (count : Nibble) (s : State) : Result :=
  pushWords (countOf count) (s.pc.toNat + 1) s fun s => advancePast (countOf count) s

/-- The address of the first word that decodes as `ret`, among words that begin at address `a`. -/
def scanForRet : List Word → Nat → Option Nat
  | [], _ => none
  | w :: ws, a => if decode w = .ok .ret then some a else scanForRet ws (a + 1)

/-- `sig` (R85): captures the call-site pc, scans for `ret`, and goes past it. The scan cursor needs room on the stack; each
round of the loop pops it and pushes its successor, so that when the loop ends, by a `ret` or by the end of the stream, the
cursor has been popped and the call-site pc is on top. -/
def execSig (rd : Nibble) (s : State) : Result :=
  writeCell (regIndex rd) s.pc s fun s =>
  push s.pc s fun s =>
  push (s.pc + 1) s fun s =>
  pop s fun _ s =>
  match scanForRet (s.program.drop (s.pc.toNat + 1)) (s.pc.toNat + 1) with
  | none => raiseHaltFor .streamExhausted streamExhaustedCode s
  | some a => pop s fun top s => writeCell (nextIndex rd) top s fun s => jumpTo (BitVec.ofNat 64 (a + 1)) s

/-- `ret` (R86), executed by the step and not met by a scan: the spec defines no behaviour. -/
def execRet (_ : State) : Result := .fault .retOutsideScan

end Sys2Proof.Machine
end

