-- ==== Sys2Proof/Machine/DataMove.lean ====
section
/-!
DEFINITION. Immediate loads and cell moves (spec/41_data_move.md). None of them reads `ff` or `sf`.
-/

namespace Sys2Proof.Machine

/-- `ldi` (R69): the immediate, zero-extended, into register `rd`. -/
def execLdi (rd : Nibble) (imm : Byte) (s : State) : Result :=
  writeCell (regIndex rd) (immWord imm) s advance

/-- `ldi_m` (R70): the 8-bit immediate, zero-extended, into a pair-addressed cell. -/
def execLdiM (c imm : Byte) (s : State) : Result :=
  writeCell (pairIndex c) (immWord imm) s advance

/-- `x[i] <- x[i] xor x[j]` or, for the middle line of the exchange, any `x[d] <- x[i] xor x[j]`. -/
def xorCells (d i j : Nat) (s : State) (k : State → Result) : Result :=
  readCell i s fun a => readCell j s fun b => writeCell d (a ^^^ b) s k

/-- `swap` (R71): the XOR exchange, with the guard that makes equal indices a no-op. -/
def execSwap (ra rb : Nibble) (s : State) : Result :=
  let i := regIndex ra
  let j := regIndex rb
  if i = j then advance s
  else xorCells i i j s fun s => xorCells j i j s fun s => xorCells i i j s advance

/-- `dup` (R72): copies a pair-addressed cell to a pair-addressed cell; the source is checked first. -/
def execDup (src dst : Byte) (s : State) : Result :=
  readCell (pairIndex src) s fun v => writeCell (pairIndex dst) v s advance

/-- `pull` (R73): pops the stack into register `rd`; an empty stack faults. -/
def execPull (rd : Nibble) (s : State) : Result :=
  pop s fun v s => writeCell (regIndex rd) v s advance

end Sys2Proof.Machine
end

