-- ==== Sys2Proof/Machine/Debug.lean ====
section
/-!
DEFINITION. Breakpoint control (spec/46_debug.md). The phases that fire and clear the trigger are in Flags.lean.
-/

namespace Sys2Proof.Machine

/-- `brk_now` (R106): invokes the hook with the index of this word; `brk` is unchanged. -/
def execBrkNow (s : State) : Result := advance (hook s.pc s)

/-- `brk_next` (R107): arms a trigger at the end of this step. -/
def execBrkNext (s : State) : Result := advance (s.setBrk .afterThisStep)

/-- `brk_after` (R108): arms a trigger deferred by one step. -/
def execBrkAfter (s : State) : Result := advance (s.setBrk .armedDeferred)

end Sys2Proof.Machine
end

