-- ==== Sys2Proof/Machine/Device.lean ====
section
/-!
DEFINITION. The device bus instructions (spec/42_device.md). The device is found before any cell is read (R139).
-/

namespace Sys2Proof.Machine

/-- `wdev_s` (R74): writes bits 7:0 of register `rv` to a port. -/
def execWdevS (dev port rv : Nibble) (s : State) : Result :=
  findDevice dev s (readCell (regIndex rv) s fun v => advance (writeDevice dev port (lowByte v) s))

/-- `wdev_l` (R75): writes an immediate of four nibbles to a port. -/
def execWdevL (dev port n3 n2 n1 n0 : Nibble) (s : State) : Result :=
  findDevice dev s (advance (writeDevice dev port (immLong s.params.longAssembly n3 n2 n1 n0) s))

/-- `rdev` (R76): pushes a port's answer, whatever `sf` is. -/
def execRdev (dev port : Nibble) (s : State) : Result :=
  findDevice dev s (push (Config.deviceAnswer s.draws dev port) s.drawn advance)

/-- The ASCII digit of a number below 10: byte 0x30 + d (spec/42_device R77, GK10). -/
def digitByte (d : Nat) : Byte := BitVec.ofNat 8 (0x30 + d)

/-- The decimal digits of a number below 10^k, most significant first, with no leading zeros ("0" for zero). -/
def decimalDigits : Nat → Nat → List Byte
  | 0, _ => []
  | k + 1, n => if n < 10 then [digitByte n] else decimalDigits k (n / 10) ++ [digitByte (n % 10)]

/-- The text of a cell: unsigned decimal, or `FLOAT_TO_TEXT` in float mode (R77). A cell has at most 20 digits. -/
def emitText (ff : Bool) (v : Word) : List Byte :=
  if ff then Config.floatToText (f32 v) else decimalDigits 20 v.toNat

/-- `emit` (R77): one bus write per byte of the text of register `rv`. -/
def execEmit (dev port rv : Nibble) (s : State) : Result :=
  findDevice dev s (readCell (regIndex rv) s fun v => advance (writeDeviceText dev port (emitText s.ff v) s))

end Sys2Proof.Machine
end

