-- ==== Sys2Proof/Machine/FrameExtern.lean ====
section
/-!
DEFINITION. The native call and the evaluation frame (spec/45_frame_extern.md).
-/

namespace Sys2Proof.Machine

/-- `xcall` (R101): resolves the signature in register `rs`, invokes the routine with no arguments, and pushes the word of
a non-void result. The outcome is a draw. -/
def execXcall (rs : Nibble) (s : State) : Result :=
  readCell (regIndex rs) s fun v =>
  match resolveIn s.params.registry (signatureOf v) with
  | .failed kind => raiseHaltFor .externUnresolved (Config.externHaltBase + externKindOffset kind) s
  | .found routine =>
    if routine.hasArgs then raiseHaltFor .argumentsUnimplemented nativeCallCode s
    else
      match Config.nativeOutcome s.draws (signatureOf v) with
      | .error text => raiseHalt nativeCallCode (some text) s.drawn
      | .ok w => if routine.returnsValue then push w s.drawn advance else advance s.drawn

/-- A frame of `count` empty slots and an empty scratch stack (spec/10_state R30). -/
def freshFrame (count : Nat) : Frame where
  count := count
  slots := List.replicate count none
  scratch := []

/-- Installs a default placeholder in a slot of the frame. -/
def installSlot (slot : Nat) (tag : Word) (s : State) : State :=
  s.setFrame (s.frame.map fun f => { f with slots := f.slots.set slot (some { tag := tag }) })

/-- Reads `n` descriptors, a tag word and then a slot word each, from address `a` on (R102). -/
def readDescriptors (count : Nat) : Nat → Nat → State → (State → Result) → Result
  | 0, _, s, k => k s
  | n + 1, a, s, k =>
    fetchInside a s fun tag => fetchInside (a + 1) s fun slot =>
      if tag ∉ s.params.typeTags then .fault .badTypeTag
      else if count ≤ slot.toNat then .fault .badSlot
      else readDescriptors count n (a + 2) (installSlot slot.toNat tag s) k

/-- `locals` (R102): a fresh frame in place of any other, filled by the descriptors that follow the word. -/
def execLocals (count : Nibble) (s : State) : Result :=
  readDescriptors (countOf count) (countOf count) (s.pc.toNat + 1) (s.setFrame (some (freshFrame (countOf count))))
    fun s => advancePast (2 * countOf count) s

/-- `prune` (R103): releases the frame. -/
def execPrune (s : State) : Result :=
  match s.frame with
  | none => .fault .pruneWithoutFrame
  | some _ => advance (s.setFrame none)

end Sys2Proof.Machine
end

