-- ==== Sys2Proof/Machine/MathTable.lean ====
section
/-!
DEFINITION. The extended math table, iid 0xD0..0xE8, float mode only (spec/47_math_table.md).
-/

namespace Sys2Proof.Machine

/-- `MathOp(fn, 1)` (R110): `ff` is checked before any read. -/
def mathOp1 (fn : F32 → Option F32) (rd ra : Nibble) (s : State) : Result :=
  requireFloatMode s (floatUnary fn rd ra s)

/-- `MathOp(fn, 2)` (R110). -/
def mathOp2 (fn : F32 → F32 → Option F32) (rd ra rb : Nibble) (s : State) : Result :=
  requireFloatMode s (floatBinary fn rd ra rb s)

/-- `MATHF.<fn>` of one operand, its NaN results drawn (R110). -/
def hostOp1 (fn : HostFn1) (rd ra : Nibble) (s : State) : Result :=
  mathOp1 (fun a => hostResult (Config.mathf1 fn a)) rd ra s

/-- `abs` (R111): the sign bit cleared, of a NaN too. -/
def execAbs (rd ra : Nibble) (s : State) : Result := mathOp1 (fun a => some (floatAbs a)) rd ra s

/-- `sin` (R112). -/
def execSin (rd ra : Nibble) (s : State) : Result := hostOp1 .sin rd ra s

/-- `cos` (R113). -/
def execCos (rd ra : Nibble) (s : State) : Result := hostOp1 .cos rd ra s

/-- `tan` (R114). -/
def execTan (rd ra : Nibble) (s : State) : Result := hostOp1 .tan rd ra s

/-- `asin` (R115). -/
def execAsin (rd ra : Nibble) (s : State) : Result := hostOp1 .asin rd ra s

/-- `acos` (R116). -/
def execAcos (rd ra : Nibble) (s : State) : Result := hostOp1 .acos rd ra s

/-- `atan` (R117). -/
def execAtan (rd ra : Nibble) (s : State) : Result := hostOp1 .atan rd ra s

/-- `sinh` (R118). -/
def execSinh (rd ra : Nibble) (s : State) : Result := hostOp1 .sinh rd ra s

/-- `cosh` (R119). -/
def execCosh (rd ra : Nibble) (s : State) : Result := hostOp1 .cosh rd ra s

/-- `tanh` (R120). -/
def execTanh (rd ra : Nibble) (s : State) : Result := hostOp1 .tanh rd ra s

/-- `asinh` (R121). -/
def execAsinh (rd ra : Nibble) (s : State) : Result := hostOp1 .asinh rd ra s

/-- `acosh` (R122). -/
def execAcosh (rd ra : Nibble) (s : State) : Result := hostOp1 .acosh rd ra s

/-- `atanh` (R123). -/
def execAtanh (rd ra : Nibble) (s : State) : Result := hostOp1 .atanh rd ra s

/-- `ceiling` (R124). -/
def execCeiling (rd ra : Nibble) (s : State) : Result := mathOp1 floatCeiling rd ra s

/-- `floor` (R125). -/
def execFloor (rd ra : Nibble) (s : State) : Result := mathOp1 floatFloor rd ra s

/-- `truncate` (R126). -/
def execTruncate (rd ra : Nibble) (s : State) : Result := mathOp1 floatTruncate rd ra s

/-- `log` (R127). -/
def execLog (rd ra : Nibble) (s : State) : Result := hostOp1 .log rd ra s

/-- `log10` (R128). -/
def execLog10 (rd ra : Nibble) (s : State) : Result := hostOp1 .log10 rd ra s

/-- `exp` (R129). -/
def execExp (rd ra : Nibble) (s : State) : Result := hostOp1 .exp rd ra s

/-- `cbrt` (R130). -/
def execCbrt (rd ra : Nibble) (s : State) : Result := hostOp1 .cbrt rd ra s

/-- `atan2` (R131): of y = first operand over x = second. -/
def execAtan2 (rd ra rb : Nibble) (s : State) : Result :=
  mathOp2 (fun a b => hostResult (Config.mathf2 .atan2 a b)) rd ra rb s

/-- `min` (R132). -/
def execMin (rd ra rb : Nibble) (s : State) : Result := mathOp2 floatMin rd ra rb s

/-- `max` (R133). -/
def execMax (rd ra rb : Nibble) (s : State) : Result := mathOp2 floatMax rd ra rb s

/-- `bitinc` (R134). -/
def execBitinc (rd ra : Nibble) (s : State) : Result := mathOp1 floatBitInc rd ra s

/-- `bitdec` (R135). -/
def execBitdec (rd ra : Nibble) (s : State) : Result := mathOp1 floatBitDec rd ra s

end Sys2Proof.Machine
end

