-- ==== Sys2Proof/Machine/System.lean ====
section
/-!
DEFINITION. The no-op and the halt triplet (spec/40_system.md).
-/

namespace Sys2Proof.Machine

/-- `nop` (R65): advances the pc only. -/
def execNop (s : State) : Result := advance s

/-- `halt_f` (R66): halts with code 0xF and no message. -/
def execHaltF (s : State) : Result := raiseHalt 0xF none s

/-- `halt_0` (R67): halts with code 0x0 and no message. -/
def execHalt0 (s : State) : Result := raiseHalt 0x0 none s

/-- `halt_1` (R68): halts with code 0x1 and no message. -/
def execHalt1 (s : State) : Result := raiseHalt 0x1 none s

end Sys2Proof.Machine
end

