-- ==== Sys2Proof/Machine/Dispatch.lean ====
section
/-!
DEFINITION. The execute phase (spec/40_system R61): one arm per instruction, each one call of its meaning.
-/

namespace Sys2Proof.Machine

/-- `Execute(I, F)`: the instruction's rule, with the pc advance of a rule that does not redirect. -/
def exec (i : Instr) (s : State) : Host.Outcome State Fault Refusal :=
  match i with
  | .haltF => Sys2Proof.Machine.execHaltF s
  | .halt0 => Sys2Proof.Machine.execHalt0 s
  | .halt1 => Sys2Proof.Machine.execHalt1 s
  | .nop => Sys2Proof.Machine.execNop s
  | .ldi rd imm => Sys2Proof.Machine.execLdi rd imm s
  | .ldiM cell imm => Sys2Proof.Machine.execLdiM cell imm s
  | .swap ra rb => Sys2Proof.Machine.execSwap ra rb s
  | .wdevS dev port rv => Sys2Proof.Machine.execWdevS dev port rv s
  | .wdevL dev port n3 n2 n1 n0 => Sys2Proof.Machine.execWdevL dev port n3 n2 n1 n0 s
  | .emit dev port rv => Sys2Proof.Machine.execEmit dev port rv s
  | .pcap rd => Sys2Proof.Machine.execPcap rd s
  | .jumpT rt => Sys2Proof.Machine.execJumpT rt s
  | .jumpE rt ra rb => Sys2Proof.Machine.execJumpE rt ra rb s
  | .jumpG rt ra rb => Sys2Proof.Machine.execJumpG rt ra rb s
  | .jumpU rt ra rb => Sys2Proof.Machine.execJumpU rt ra rb s
  | .jumpY rt ra rb => Sys2Proof.Machine.execJumpY rt ra rb s
  | .orb count => Sys2Proof.Machine.execOrb count s
  | .pull rd => Sys2Proof.Machine.execPull rd s
  | .rdev dev port => Sys2Proof.Machine.execRdev dev port s
  | .sig rd => Sys2Proof.Machine.execSig rd s
  | .ret => Sys2Proof.Machine.execRet s
  | .inc rd => Sys2Proof.Machine.execInc rd s
  | .dec rd => Sys2Proof.Machine.execDec rd s
  | .dup src dst => Sys2Proof.Machine.execDup src dst s
  | .ckft cell => Sys2Proof.Machine.execCkft cell s
  | .xor ca cb => Sys2Proof.Machine.execXor ca cb s
  | .or ca cb => Sys2Proof.Machine.execOr ca cb s
  | .brkNow => Sys2Proof.Machine.execBrkNow s
  | .brkNext => Sys2Proof.Machine.execBrkNext s
  | .brkAfter => Sys2Proof.Machine.execBrkAfter s
  | .add rd ra rb => Sys2Proof.Machine.execAdd rd ra rb s
  | .sub rd ra rb => Sys2Proof.Machine.execSub rd ra rb s
  | .mul rd ra rb => Sys2Proof.Machine.execMul rd ra rb s
  | .div rd ra rb => Sys2Proof.Machine.execDiv rd ra rb s
  | .pow rd ra rb => Sys2Proof.Machine.execPow rd ra rb s
  | .sqrt rd ra => Sys2Proof.Machine.execSqrt rd ra s
  | .xcall rs => Sys2Proof.Machine.execXcall rs s
  | .prune => Sys2Proof.Machine.execPrune s
  | .locals count => Sys2Proof.Machine.execLocals count s
  | .abs rd ra => Sys2Proof.Machine.execAbs rd ra s
  | .sin rd ra => Sys2Proof.Machine.execSin rd ra s
  | .cos rd ra => Sys2Proof.Machine.execCos rd ra s
  | .tan rd ra => Sys2Proof.Machine.execTan rd ra s
  | .asin rd ra => Sys2Proof.Machine.execAsin rd ra s
  | .acos rd ra => Sys2Proof.Machine.execAcos rd ra s
  | .atan rd ra => Sys2Proof.Machine.execAtan rd ra s
  | .sinh rd ra => Sys2Proof.Machine.execSinh rd ra s
  | .cosh rd ra => Sys2Proof.Machine.execCosh rd ra s
  | .tanh rd ra => Sys2Proof.Machine.execTanh rd ra s
  | .asinh rd ra => Sys2Proof.Machine.execAsinh rd ra s
  | .acosh rd ra => Sys2Proof.Machine.execAcosh rd ra s
  | .atanh rd ra => Sys2Proof.Machine.execAtanh rd ra s
  | .ceiling rd ra => Sys2Proof.Machine.execCeiling rd ra s
  | .floor rd ra => Sys2Proof.Machine.execFloor rd ra s
  | .truncate rd ra => Sys2Proof.Machine.execTruncate rd ra s
  | .log rd ra => Sys2Proof.Machine.execLog rd ra s
  | .log10 rd ra => Sys2Proof.Machine.execLog10 rd ra s
  | .exp rd ra => Sys2Proof.Machine.execExp rd ra s
  | .cbrt rd ra => Sys2Proof.Machine.execCbrt rd ra s
  | .atan2 rd ra rb => Sys2Proof.Machine.execAtan2 rd ra rb s
  | .min rd ra rb => Sys2Proof.Machine.execMin rd ra rb s
  | .max rd ra rb => Sys2Proof.Machine.execMax rd ra rb s
  | .bitinc rd ra => Sys2Proof.Machine.execBitinc rd ra s
  | .bitdec rd ra => Sys2Proof.Machine.execBitdec rd ra s

end Sys2Proof.Machine
end

