-- ==== Sys2Proof/Machine/Step.lean ====
section
/-!
DEFINITION. One step of the machine (spec/40_system R61).
-/

namespace Sys2Proof.Machine

/-- What follows the execute phase: the end of the step, unless a fault or a refusal ended it. -/
def afterExecute : Result → Result
  | .next s => .next (finishStep s)
  | .fault r => .fault r
  | .refused r => .refused r

/-- Fetch, decode, match and execute, after the pre-step phase. -/
def fetchAndExecute (s : State) : Result :=
  match s.fetch s.pc.toNat with
  | none => .fault .endOfStream
  | some w =>
    match decode w with
    | .error _ => unlistedWord s
    | .ok i => afterExecute (exec i s)

/-- `Step()`. A halted machine has no step (log 13). -/
def step : State → Host.Outcome State Fault Refusal := fun s =>
  match s.run with
  | .halted _ _ => .fault .noStepWhenHalted
  | .running => fetchAndExecute (preStep s)

/-- The state with an instruction word, its bits numbered as spec/opcode_table.json numbers them, stored where the next step
fetches: at the pc in the stream, of a running machine. It stands for loading a program from outside (log 4). -/
def State.withFetchWord (s : State) (nbits w : Nat) : State :=
  { s with
    program := placeWord s.program s.pc.toNat (BitVec.ofNat 64 (w % 2 ^ nbits))
    run := .running }

end Sys2Proof.Machine
end

