-- ==== Sys2Proof/Safety.lean ====
section
/-!
DEFINITION. The terms claims use: the invariant of the machine, legal launches, what a result does to a state, and the IEEE
rounding that the float laws speak of.
-/

namespace Sys2Proof.Machine

/-! ## Legal launches and the invariant -/

/-- `MEM_CELLS` is at least 17 (spec/10_state R19), so every register form and the derived index 16 is in range. -/
def RegistersExist (s : State) : Prop := 17 ≤ s.params.memCells

/-- The frame has as many slots as its count, which is at most 15 (spec/10_state R30). -/
def Frame.WellFormed (f : Frame) : Prop := f.slots.length = f.count ∧ f.count ≤ 15

/-- What every step keeps: the cell store in canonical form and inside `MEM_CELLS`, the stack within `STACK_DEPTH`, and a
frame well formed. -/
structure State.Inv (s : State) : Prop where
  cells_wf : s.cells.wf = true
  cells_in_range : ∀ e ∈ s.cells, e.1 < s.params.memCells
  stack_in_depth : s.hasRoom 0 = true
  frame_wf : ∀ f, s.frame = some f → f.WellFormed

/-- Whether the machine has halted. -/
def State.isHalted (s : State) : Bool :=
  match s.run with
  | .running => false
  | .halted _ _ => true

/-- A step is safe when it reaches a next state: no model fault, of which the spec claims nothing (spec/70_reset R151). -/
def SafeStep (s : State) : Prop := ∃ t, step s = .next t

/-- A run of `n` steps is safe when each of them is, or the machine has halted. -/
def SafeRun : Nat → State → Prop
  | 0, _ => True
  | n + 1, s => s.isHalted = true ∨ ∃ t, step s = .next t ∧ SafeRun n t

/-! ## What a result does to a state

Each names all that changes; everything else of the state is as before. Cells are compared by what they read as. -/

/-- The next state has `v` in cell `i`, every other cell as before, and the pc one further. -/
def WritesOnly (s : State) (i : Nat) (v : Word) (r : Result) : Prop :=
  ∃ t, r = .next t ∧ (∀ a, t.cell a = if a = i then v else s.cell a) ∧ t = { s with cells := t.cells, pc := s.pc + 1 }

/-- The next state has `v` on the stack and the pc one further. -/
def PushesOnly (s : State) (v : Word) (r : Result) : Prop :=
  r = .next { s with stack := v :: s.stack, pc := s.pc + 1 }

/-- The next state has the pc at `a`. -/
def GoesOnlyTo (s : State) (a : Word) (r : Result) : Prop := r = .next { s with pc := a }

/-- The next state has halted with a code; its message is whatever it is. -/
def HaltsOnly (s : State) (code : Nat) (r : Result) : Prop := ∃ msg, r = .next { s with run := .halted code msg }

/-- `dest(i, v)` and the pc one further (spec/00_scope R16); a full stack faults. -/
def Delivers (s : State) (i : Nat) (v : Word) (r : Result) : Prop :=
  if s.sf = true then (if s.hasRoom 1 = true then PushesOnly s v r else r = .fault .stackOverflow)
  else WritesOnly s i v r

/-- A float result delivered: its boxed pattern, or some boxed NaN pattern, which uses up a draw (spec/44_alu R89(e)). -/
def DeliversFloat (s : State) (i : Nat) (result : Option F32) (r : Result) : Prop :=
  match result with
  | some f => Delivers s i (box f) r
  | none => ∃ p : F32, isNaN p = true ∧ Delivers { s with draws := s.draws + 1 } i (box p) r

/-- A result when the cell is in range, and the range halt when it is not (spec/20_memory R39). -/
def InRangeElseHalts (s : State) (i : Nat) (inRange : Result → Prop) (r : Result) : Prop :=
  if i < s.params.memCells then inRange r else HaltsOnly s Config.oorHaltCode r

/-- Every word with `w AND mask = pattern`, but a halt word, decodes as the instruction `build` makes of its fields. -/
def EncodedAs (pattern mask : Word) (build : Fields → Instr) : Prop :=
  ∀ w : Word, w &&& mask = pattern → haltPattern (fields w) = none → decode w = .ok (build (fields w))

/-- `16*h + l` as an index or an immediate of 8 bits (spec/00_scope R11(e)). -/
def sixteenths (h l : Nibble) : Byte := BitVec.ofNat 8 (16 * h.toNat + l.toNat)

/-- A result with its next state changed by `g`. -/
def mapNext (g : State → State) : Result → Result
  | .next t => .next (g t)
  | .fault r => .fault r
  | .refused r => .refused r

/-! ## What the spec lists of the instructions -/

/-- The cells an instruction may write (spec/10_state R21); `sf` sends the result of an arithmetic instruction elsewhere. -/
def cellsWritten (i : Instr) (s : State) : List Nat :=
  match i with
  | .ldi rd _ | .pcap rd | .pull rd | .inc rd | .dec rd => [rd.toNat]
  | .ldiM c _ => [c.toNat]
  | .swap ra rb => [ra.toNat, rb.toNat]
  | .dup _ dst => [dst.toNat]
  | .sig rd => [rd.toNat, rd.toNat + 1]
  | .xor c _ | .or c _ => if s.sf then [] else [c.toNat]
  | .add rd _ _ | .sub rd _ _ | .mul rd _ _ | .div rd _ _ | .pow rd _ _ | .sqrt rd _
  | .abs rd _ | .sin rd _ | .cos rd _ | .tan rd _ | .asin rd _ | .acos rd _ | .atan rd _
  | .sinh rd _ | .cosh rd _ | .tanh rd _ | .asinh rd _ | .acosh rd _ | .atanh rd _
  | .ceiling rd _ | .floor rd _ | .truncate rd _ | .log rd _ | .log10 rd _ | .exp rd _ | .cbrt rd _
  | .atan2 rd _ _ | .min rd _ _ | .max rd _ _ | .bitinc rd _ | .bitdec rd _ => if s.sf then [] else [rd.toNat]
  | .haltF | .halt0 | .halt1 | .nop | .wdevS .. | .wdevL .. | .emit .. | .jumpT .. | .jumpE .. | .jumpG .. | .jumpU ..
  | .jumpY .. | .orb .. | .rdev .. | .ret | .ckft .. | .brkNow | .brkNext | .brkAfter | .xcall .. | .prune | .locals .. => []

/-- Whether an instruction sends its result through `dest` (spec/10_state R25). -/
def usesDest (i : Instr) : Bool :=
  match i with
  | .xor .. | .or .. | .add .. | .sub .. | .mul .. | .div .. | .pow .. | .sqrt ..
  | .abs .. | .sin .. | .cos .. | .tan .. | .asin .. | .acos .. | .atan ..
  | .sinh .. | .cosh .. | .tanh .. | .asinh .. | .acosh .. | .atanh ..
  | .ceiling .. | .floor .. | .truncate .. | .log .. | .log10 .. | .exp .. | .cbrt ..
  | .atan2 .. | .min .. | .max .. | .bitinc .. | .bitdec .. => true
  | .haltF | .halt0 | .halt1 | .nop | .ldi .. | .ldiM .. | .swap .. | .wdevS .. | .wdevL .. | .emit .. | .pcap ..
  | .jumpT .. | .jumpE .. | .jumpG .. | .jumpU .. | .jumpY .. | .orb .. | .pull .. | .rdev .. | .sig .. | .ret
  | .inc .. | .dec .. | .dup .. | .ckft .. | .brkNow | .brkNext | .brkAfter | .xcall .. | .prune | .locals .. => false

/-- Whether an instruction reads `ff` (spec/10_state R24). -/
def readsFf (i : Instr) : Bool :=
  match i with
  | .xor .. | .or .. | .ckft .. | .emit ..
  | .add .. | .sub .. | .mul .. | .div .. | .pow .. | .sqrt ..
  | .abs .. | .sin .. | .cos .. | .tan .. | .asin .. | .acos .. | .atan ..
  | .sinh .. | .cosh .. | .tanh .. | .asinh .. | .acosh .. | .atanh ..
  | .ceiling .. | .floor .. | .truncate .. | .log .. | .log10 .. | .exp .. | .cbrt ..
  | .atan2 .. | .min .. | .max .. | .bitinc .. | .bitdec .. => true
  | .haltF | .halt0 | .halt1 | .nop | .ldi .. | .ldiM .. | .swap .. | .wdevS .. | .wdevL .. | .pcap ..
  | .jumpT .. | .jumpE .. | .jumpG .. | .jumpU .. | .jumpY .. | .orb .. | .pull .. | .rdev .. | .sig .. | .ret
  | .inc .. | .dec .. | .dup .. | .brkNow | .brkNext | .brkAfter | .xcall .. | .prune | .locals .. => false

/-- Whether an instruction can push onto the stack (spec/10_state R29(d)). -/
def canPush (i : Instr) : Bool :=
  usesDest i ||
  match i with
  | .rdev .. | .orb .. | .xcall .. | .sig .. => true
  | .haltF | .halt0 | .halt1 | .nop | .ldi .. | .ldiM .. | .swap .. | .wdevS .. | .wdevL .. | .emit .. | .pcap ..
  | .jumpT .. | .jumpE .. | .jumpG .. | .jumpU .. | .jumpY .. | .pull .. | .ret | .inc .. | .dec .. | .dup .. | .ckft ..
  | .xor .. | .or .. | .brkNow | .brkNext | .brkAfter | .add .. | .sub .. | .mul .. | .div .. | .pow .. | .sqrt ..
  | .prune | .locals .. | .abs .. | .sin .. | .cos .. | .tan .. | .asin .. | .acos .. | .atan ..
  | .sinh .. | .cosh .. | .tanh .. | .asinh .. | .acosh .. | .atanh ..
  | .ceiling .. | .floor .. | .truncate .. | .log .. | .log10 .. | .exp .. | .cbrt ..
  | .atan2 .. | .min .. | .max .. | .bitinc .. | .bitdec .. => false

/-- Whether an instruction can redirect the pc (spec/10_state R22). -/
def canRedirect (i : Instr) : Bool :=
  match i with
  | .jumpT .. | .jumpE .. | .jumpG .. | .jumpU .. | .jumpY .. | .orb .. | .sig .. | .locals .. => true
  | .haltF | .halt0 | .halt1 | .nop | .ldi .. | .ldiM .. | .swap .. | .wdevS .. | .wdevL .. | .emit .. | .pcap ..
  | .pull .. | .rdev .. | .ret | .inc .. | .dec .. | .dup .. | .ckft .. | .xor .. | .or ..
  | .brkNow | .brkNext | .brkAfter | .add .. | .sub .. | .mul .. | .div .. | .pow .. | .sqrt .. | .xcall .. | .prune
  | .abs .. | .sin .. | .cos .. | .tan .. | .asin .. | .acos .. | .atan ..
  | .sinh .. | .cosh .. | .tanh .. | .asinh .. | .acosh .. | .atanh ..
  | .ceiling .. | .floor .. | .truncate .. | .log .. | .log10 .. | .exp .. | .cbrt ..
  | .atan2 .. | .min .. | .max .. | .bitinc .. | .bitdec .. => false

/-- Whether an instruction is one of the three of breakpoint control (spec/46_debug.md). -/
def isBreak (i : Instr) : Bool :=
  match i with
  | .brkNow | .brkNext | .brkAfter => true
  | .haltF | .halt0 | .halt1 | .nop | .ldi .. | .ldiM .. | .swap .. | .wdevS .. | .wdevL .. | .emit .. | .pcap ..
  | .jumpT .. | .jumpE .. | .jumpG .. | .jumpU .. | .jumpY .. | .orb .. | .pull .. | .rdev .. | .sig .. | .ret
  | .inc .. | .dec .. | .dup .. | .ckft .. | .xor .. | .or .. | .add .. | .sub .. | .mul .. | .div .. | .pow .. | .sqrt ..
  | .xcall .. | .prune | .locals .. | .abs .. | .sin .. | .cos .. | .tan .. | .asin .. | .acos .. | .atan ..
  | .sinh .. | .cosh .. | .tanh .. | .asinh .. | .acosh .. | .atanh ..
  | .ceiling .. | .floor .. | .truncate .. | .log .. | .log10 .. | .exp .. | .cbrt ..
  | .atan2 .. | .min .. | .max .. | .bitinc .. | .bitdec .. => false

/-- How many values an instruction pushes unless a halt comes first (spec/10_state R29(d)): the result that `dest` sends when
`sf = 1`, the answer of a device or a routine, the two of `sig`, and of the words of `orb` those the stream holds. -/
def valuesPushed (i : Instr) (s : State) : Nat :=
  if usesDest i then (if s.sf then 1 else 0)
  else
    match i with
    | .rdev .. | .xcall .. => 1
    | .sig .. => 2
    | .orb n => min n.toNat (s.program.length - (s.pc.toNat + 1))
    | .haltF | .halt0 | .halt1 | .nop | .ldi .. | .ldiM .. | .swap .. | .wdevS .. | .wdevL .. | .emit .. | .pcap ..
    | .jumpT .. | .jumpE .. | .jumpG .. | .jumpU .. | .jumpY .. | .pull .. | .ret | .inc .. | .dec .. | .dup .. | .ckft ..
    | .xor .. | .or .. | .brkNow | .brkNext | .brkAfter | .add .. | .sub .. | .mul .. | .div .. | .pow .. | .sqrt ..
    | .prune | .locals .. | .abs .. | .sin .. | .cos .. | .tan .. | .asin .. | .acos .. | .atan ..
    | .sinh .. | .cosh .. | .tanh .. | .asinh .. | .acosh .. | .atanh ..
    | .ceiling .. | .floor .. | .truncate .. | .log .. | .log10 .. | .exp .. | .cbrt ..
    | .atan2 .. | .min .. | .max .. | .bitinc .. | .bitdec .. => 0

/-- Descriptor `k` of a `locals` at the pc: its tag and its slot word, both in the stream (spec/45_frame_extern R102). -/
def State.descriptorAt (s : State) (k : Nat) (tag slot : Word) : Prop :=
  s.fetch (s.pc.toNat + 1 + 2 * k) = some tag ∧ s.fetch (s.pc.toNat + 2 + 2 * k) = some slot

/-- The table of spec/60_exceptions R138: when an instruction may raise a model fault. The fetch and the match raise
`endOfStream` and `unlisted`, no instruction does. -/
def faultCause (i : Instr) (s : State) : Fault → Prop
  | .stackUnderflow => (∃ rd, i = .pull rd) ∧ s.stack = []
  | .stackOverflow => 0 < valuesPushed i s ∧ s.hasRoom (valuesPushed i s) = false
  | .bitwiseInFloatMode => (∃ a b, i = .xor a b ∨ i = .or a b) ∧ s.ff = true
  | .retOutsideScan => i = .ret
  | .pruneWithoutFrame => i = .prune ∧ s.frame = none
  | .badTypeTag => ∃ n k tag slot, i = .locals n ∧ k < n.toNat ∧ s.descriptorAt k tag slot ∧ tag ∉ s.params.typeTags
  | .badSlot => ∃ n k tag slot, i = .locals n ∧ k < n.toNat ∧ s.descriptorAt k tag slot ∧ tag ∈ s.params.typeTags ∧
      n.toNat ≤ slot.toNat
  | .divOverflow => ∃ rd ra rb, i = .div rd ra rb ∧ s.params.intDivSigned = true ∧ s.ff = false ∧
      (s.cell ra.toNat).toInt = -2 ^ 63 ∧ (s.cell rb.toNat).toInt = -1
  | .endOfStream => False
  | .unlisted => False
  | .noStepWhenHalted => False

/-- The halt codes of spec/60_exceptions R136. -/
def isHaltCode (code : Nat) : Prop :=
  code ∈ [0xFC, 0xF, 0x0, 0x1, 0xC, 0xA9, 0xA1, 0xA22, Config.oorHaltCode, Config.deviceNotFoundCode] ∨
  ∃ kind, code = Config.externHaltBase + externKindOffset kind

/-! ## Correct rounding (spec/44_alu R89(b), GK3) -/

/-- `f` is the binary32 datum that `num / den` units of 2^-149 round to: infinite from the midpoint above the largest finite
datum on; else no finite datum is nearer, and where another is as near, the last bit of `f` is 0. A result of a value that
is not zero has its sign. -/
def RoundsTo (num : Int) (den : Nat) (f : F32) : Prop :=
  (num ≠ 0 → (isNegative f = true ↔ num < 0)) ∧
  if (2 ^ 25 - 1) * 2 ^ 253 * den ≤ 2 * num.natAbs then isInfinite f = true
  else isFinite f = true ∧ ∀ g : F32, isFinite g = true →
    (num - signedUnits f * den).natAbs ≤ (num - signedUnits g * den).natAbs ∧
    ((num - signedUnits f * den).natAbs = (num - signedUnits g * den).natAbs →
      signedUnits g ≠ signedUnits f → f.toNat % 2 = 0)

end Sys2Proof.Machine
end

