-- ==== Sys2Proof/Certificates/Slice0/Obligations.lean ====
section
/-!
DEFINITION. The statements about the model for the provers.
-/

open Sys2Proof Sys2Proof.Machine

/-! ## Encoding and decoding (spec/30_encoding.md) -/

/-- R50, R53, R54, R60: decoding the word of a well-formed instruction gives it back, whatever its operands are. -/
def Obligations.DecodeOfEncodeGivesTheInstruction : Prop :=
  ∀ i : Instr, i.wellFormed = true → decode (encode i) = .ok i

/-- R50, R60: the bits of each field, the encoder's formula, its zero high bits, and that it inverts the decoder on words of
36 bits. -/
def Obligations.EncoderInvertsFieldDecoder : Prop :=
  (∀ w : Word,
    (fields w).iid.toNat = w.toNat / 2 ^ 28 % 2 ^ 8 ∧ (fields w).r1.toNat = w.toNat / 2 ^ 24 % 2 ^ 4 ∧
    (fields w).r2.toNat = w.toNat / 2 ^ 20 % 2 ^ 4 ∧ (fields w).r3.toNat = w.toNat / 2 ^ 16 % 2 ^ 4 ∧
    (fields w).u1.toNat = w.toNat / 2 ^ 12 % 2 ^ 4 ∧ (fields w).u2.toNat = w.toNat / 2 ^ 8 % 2 ^ 4 ∧
    (fields w).x1.toNat = w.toNat / 2 ^ 4 % 2 ^ 4 ∧ (fields w).x2.toNat = w.toNat % 2 ^ 4) ∧
  (∀ f : Fields, encFields f =
    (f.iid.zeroExtend 64 <<< 28) ||| (f.r1.zeroExtend 64 <<< 24) ||| (f.r2.zeroExtend 64 <<< 20) |||
    (f.r3.zeroExtend 64 <<< 16) ||| (f.u1.zeroExtend 64 <<< 12) ||| (f.u2.zeroExtend 64 <<< 8) |||
    (f.x1.zeroExtend 64 <<< 4) ||| f.x2.zeroExtend 64) ∧
  (∀ f : Fields, (encFields f).extractLsb' 36 28 = 0) ∧
  (∀ w : Word, w.extractLsb' 36 28 = 0 → encFields (fields w) = w)

/-- R51: bits 63:36 take no part in decoding, the encoder leaves them zero, and a word pushed by `orb` keeps them. -/
def Obligations.HighBitsOfAWordAreIgnoredButKept : Prop :=
  (∀ w w' : Word, w.extractLsb' 0 36 = w'.extractLsb' 0 36 → decode w = decode w') ∧
  (∀ i : Instr, (encode i).extractLsb' 36 28 = 0) ∧
  (∀ (s : State) (w : Word), s.hasRoom 1 = true → s.fetch (s.pc.toNat + 1) = some w →
    exec (.orb 1) s = .next { s with stack := w :: s.stack, pc := s.pc + 2 })

/-- R66, R67, R68: each halt word, matched over its 36 bits and no others, and its halt; the corner cases are other rows. -/
def Obligations.HaltWordsMatchExactlyAndHalt : Prop :=
  (∀ (i : Instr) (pattern : Word) (code : Nat),
    (i, pattern, code) ∈ [(Instr.haltF, 0x0FFFFFFFF#64, 0xF), (Instr.halt0, 0x00FFFFFFF#64, 0x0),
      (Instr.halt1, 0x01FFFFFFF#64, 0x1)] →
    (∀ w : Word, decode w = .ok i ↔ w &&& 0xFFFFFFFFF#64 = pattern) ∧
    (∀ s : State, exec i s = .next { s with run := .halted code none })) ∧
  decode 0x0FFFFFFFE#64 = .ok (.wdevS 15 15 15) ∧
  decode 0x00FFFFFFE#64 = .ok .nop ∧
  decode 0x01FFFFFFE#64 = .error (.unknownSelector 0x01)

/-- R57: the words that match no row, and that such a word halts with 0xFC and keeps the pc under the default policy. -/
def Obligations.UnlistedWordsAreExactlyTheseAndHalt : Prop :=
  (∀ w : Word,
    let f := fields w
    (∃ why, decode w = .error why) ↔
      (f.iid = 0x02 ∨ (0x04 ≤ f.iid ∧ f.iid ≤ 0x07) ∨ (0x09 ≤ f.iid ∧ f.iid ≤ 0x0E) ∨ (0x10 ≤ f.iid ∧ f.iid ≤ 0x35) ∨
        (0x39 ≤ f.iid ∧ f.iid ≤ 0x9F) ∨ f.iid = 0xA2 ∨ f.iid = 0xA3 ∨ (0xA6 ≤ f.iid ∧ f.iid ≤ 0xB0) ∨
        (0xB7 ≤ f.iid ∧ f.iid ≤ 0xC0) ∨ (0xC2 ≤ f.iid ∧ f.iid ≤ 0xC9) ∨ 0xE9 ≤ f.iid) ∨
      (f.iid = 0x01 ∧ f.x2 ≠ 0x0 ∧ f.x2 ≠ 0xA ∧ w &&& 0xFFFFFFFFF#64 ≠ 0x01FFFFFFF#64) ∨
      (f.iid = 0x08 ∧ ((f.u2 ≠ 0xC ∧ f.u2 ≠ 0xF) ∨ (f.u2 = 0xF ∧ 0x5 ≤ f.x1))) ∨
      (f.iid = 0x0F ∧ f.x2 ≠ 0xC ∧ f.x2 ≠ 0xE ∧ f.x2 ≠ 0xF) ∨
      (f.iid = 0xA5 ∧ f.x2 ≠ 0x1 ∧ f.x2 ≠ 0x2) ∨
      (f.iid = 0xC1 ∧ f.x2 ≠ 0x1 ∧ f.x2 ≠ 0x2 ∧ f.x2 ≠ 0x3)) ∧
  (∀ (s : State) (w : Word) (why : Unlisted), s.run = .running → s.fetch s.pc.toNat = some w → decode w = .error why →
    s.params.unlistedPolicy = .haltFC →
    ∃ t, step s = .next t ∧ t.run = .halted 0xFC (some "unknown opcode") ∧ t.pc = s.pc)

/-- R62: `Unlisted()` in a step, under both policies; only the pre-step phase leaves a trace. -/
def Obligations.UnlistedWordHaltsOrFaultsByPolicy : Prop :=
  ∀ (s : State) (w : Word) (why : Unlisted), s.run = .running → s.fetch s.pc.toNat = some w → decode w = .error why →
    (s.params.unlistedPolicy = .haltFC →
      step s = .next { preStep s with run := .halted 0xFC (some "unknown opcode") }) ∧
    (s.params.unlistedPolicy = .refuse → step s = .fault .unlisted)

/-- Words of spec/95_test_vectors 2.1 and of the rules' examples, written out from the encodings. -/
def Obligations.WordsOfTheSpecDecode : Prop :=
  decode 0xCA3120000#64 = .ok (.add 3 1 2) ∧
  decode 0xFFFFFFFCA3120000#64 = .ok (.add 3 1 2) ∧
  decode 0x080000C30#64 = .ok (.pcap 0) ∧
  decode 0x083120F20#64 = .ok (.jumpG 3 1 2) ∧
  decode 0x0F211234C#64 = .ok (.wdevL 2 1 1 2 3 4) ∧
  decode 0xB30540000#64 = .ok (.dup 0x05 0x40) ∧
  decode 0x362000000#64 = .ok (.xcall 2) ∧
  decode 0xC10000003#64 = .ok .brkAfter ∧
  decode 0xE41230000#64 = .ok (.atan2 1 2 3) ∧
  decode 0x090000000#64 = .error (.unknownIid 0x09) ∧
  decode 0xA50000003#64 = .error (.unknownSelector 0xA5)

/-- R55: the encodings of the immediates of `ldi`, that 0x10, 0x20, ..., 0xF0 have none, and that `ldi_m` stores every one;
and that what the decoder gives is well formed. -/
def Obligations.LdiLoadsTheEncodableImmediates : Prop :=
  (∀ (rd : Nibble) (v : Byte), v.toNat < 16 →
    decode (BitVec.ofNat 64 (2 ^ 28 + rd.toNat * 2 ^ 24 + v.toNat * 2 ^ 12)) = .ok (.ldi rd v)) ∧
  (∀ (rd : Nibble) (v : Byte), 16 ≤ v.toNat → v.toNat % 16 ≠ 0 →
    decode (BitVec.ofNat 64 (2 ^ 28 + rd.toNat * 2 ^ 24 + v.toNat / 16 * 2 ^ 12 + v.toNat % 16 * 2 ^ 8)) = .ok (.ldi rd v)) ∧
  (∀ (rd : Nibble) (v : Byte) (w : Word), 16 ≤ v.toNat → v.toNat % 16 = 0 → decode w ≠ .ok (.ldi rd v)) ∧
  (∀ c v : Byte, ∃ w, decode w = .ok (.ldiM c v)) ∧
  (∀ (w : Word) (i : Instr), decode w = .ok i → i.wellFormed = true)

/-! ## The step (spec/40_system.md, spec/46_debug.md) -/

/-- R61: a step of a running machine whose fetched word decodes runs that instruction between the two phases. -/
def Obligations.StepRunsTheDecodedInstruction : Prop :=
  ∀ (s : State) (w : Word) (i : Instr), s.run = .running → s.fetch s.pc.toNat = some w → decode w = .ok i →
    step s =
      match exec i (preStep s) with
      | .next t => .next (if t.run = .running then postStep t else t)
      | .fault r => .fault r
      | .refused r => .refused r

/-- R64: a fetch at or past the end of the stream faults. -/
def Obligations.FetchPastTheEndFaults : Prop :=
  ∀ s : State, s.run = .running → s.program.length ≤ s.pc.toNat → step s = .fault .endOfStream

/-- R31, R63: a step that halts keeps the pc, and no step follows a halt. -/
def Obligations.HaltKeepsThePcAndIsFinal : Prop :=
  (∀ (s t : State) (code : Nat) (msg : Option String), step s = .next t → t.run = .halted code msg → t.pc = s.pc) ∧
  (∀ (s : State) (code : Nat) (msg : Option String), s.run = .halted code msg → ∀ t, step s ≠ .next t)

/-- R104, R105: what the two phases do, and that the first precedes the fetch and the second ends a step that goes on. -/
def Obligations.PreStepAndPostStepPhases : Prop :=
  (∀ s : State, preStep s =
    { s with
      hookEvents := if s.bf = true then s.hookEvents ++ [s.pc] else s.hookEvents
      brk := if s.brk = .armedDeferred then .triggerNow else s.brk }) ∧
  (∀ s : State, postStep s =
    if s.brk = .afterThisStep ∨ s.brk = .triggerNow then
      { s with hookEvents := s.hookEvents ++ [s.pc], brk := .idle }
    else s) ∧
  (∀ (s u : State) (w : Word) (i : Instr), s.fetch s.pc.toNat = some w → decode w = .ok i → step s = .next u →
    ∃ t, exec i (preStep s) = .next t ∧ (t.run = .running → u = postStep t) ∧ (t.run ≠ .running → u = t))

/-- R108: `brk_after` arms and fires nothing; the next step, unless it is itself breakpoint control, fires the hook once at
its end with the pc it leaves and returns to idle, or, where it halts, fires nothing there and leaves `brk` at 2. With
`bf = 1` each step also hooks before it begins. -/
def Obligations.DeferredBreakFiresOnceAtTheEndOfTheNextStep : Prop :=
  EncodedAs 0xC10000003 0xFF000000F (fun _ => .brkAfter) ∧
  (∀ s : State, exec .brkAfter s = .next { s with brk := .armedDeferred, pc := s.pc + 1 }) ∧
  (∀ (s t : State) (w : Word), s.fetch s.pc.toNat = some w → decode w = .ok .brkAfter → step s = .next t →
    t.hookEvents = s.hookEvents ++ (if s.bf = true then [s.pc] else []) ∧ t.brk = .armedDeferred) ∧
  (∀ (s t : State) (w : Word) (i : Instr), s.brk = .armedDeferred → s.fetch s.pc.toNat = some w →
    decode w = .ok i → isBreak i = false → step s = .next t →
    (t.run = .running →
      t.hookEvents = s.hookEvents ++ (if s.bf = true then [s.pc] else []) ++ [t.pc] ∧ t.brk = .idle) ∧
    (t.run ≠ .running →
      t.hookEvents = s.hookEvents ++ (if s.bf = true then [s.pc] else []) ∧ t.brk = .triggerNow))

/-! ## Rules over the whole machine -/

/-- R19, R29, R30 and the canonical form of the cell store: every step keeps the invariant. -/
def Obligations.EveryStepKeepsTheInvariant : Prop :=
  ∀ s t : State, s.Inv → step s = .next t → t.Inv

/-- The launch state meets the invariant, is running at word 0 with nothing armed, and has registers (R149). -/
def Obligations.LaunchStateMeetsTheInvariant : Prop :=
  State.reset.Inv ∧ RegistersExist State.reset ∧ State.reset.run = .running ∧ State.reset.pc = 0 ∧
  State.reset.brk = .idle ∧ State.reset.stack = [] ∧ State.reset.frame = none ∧
  State.reset.hookEvents = [] ∧ State.reset.devWrites = [] ∧
  State.reset.ff = false ∧ State.reset.sf = false ∧ State.reset.bf = false ∧ State.reset.fw = false

/-- R23, R33, R36, R48: no step writes a mode flag, the instruction stream or a launch parameter. -/
def Obligations.NoStepWritesFlagsStreamOrParameters : Prop :=
  ∀ s t : State, step s = .next t →
    t.ff = s.ff ∧ t.sf = s.sf ∧ t.bf = s.bf ∧ t.fw = s.fw ∧ t.program = s.program ∧ t.params = s.params

/-- R27: `fw` changes no result, of an instruction or of a step. -/
def Obligations.FastWriteChangesNoResult : Prop :=
  ∀ (s : State) (b : Bool),
    (∀ i : Instr, exec i { s with fw := b } = mapNext (fun t => { t with fw := b }) (exec i s)) ∧
    step { s with fw := b } = mapNext (fun t => { t with fw := b }) (step s)

/-- R24, R25, R26: `bf` is read by no instruction, `sf` only by those that use `dest`, and `ff` only by those listed (under
a comparison of the jumps that ignores it). -/
def Obligations.ModeFlagsAreReadOnlyByTheListedInstructions : Prop :=
  ∀ (i : Instr) (s : State) (b : Bool),
    exec i { s with bf := b } = mapNext (fun t => { t with bf := b }) (exec i s) ∧
    (usesDest i = false → exec i { s with sf := b } = mapNext (fun t => { t with sf := b }) (exec i s)) ∧
    (readsFf i = false → s.params.jumpCmp ≠ .floatInFloatMode →
      exec i { s with ff := b } = mapNext (fun t => { t with ff := b }) (exec i s))

/-- R21: every cell but those the list gives the instruction reads as before. -/
def Obligations.CellsAreWrittenOnlyWhereListed : Prop :=
  ∀ (i : Instr) (s t : State), exec i s = .next t → ∀ a, a ∉ cellsWritten i s → t.cell a = s.cell a

/-- R29(d), (e): an instruction that neither pushes nor pulls leaves the stack, and only `pull` ever loses a value. -/
def Obligations.StackChangesOnlyWhereListed : Prop :=
  ∀ (i : Instr) (s t : State), exec i s = .next t →
    (canPush i = false → (∀ rd, i ≠ .pull rd) → t.stack = s.stack) ∧
    ((∀ rd, i ≠ .pull rd) → ∃ pushed, t.stack = pushed ++ s.stack)

/-- R28, R30, R109: who changes the frame, the break cell and the two records; the records only grow. -/
def Obligations.FrameBreakCellAndRecordsChangeOnlyWhereListed : Prop :=
  ∀ (i : Instr) (s t : State), exec i s = .next t →
    ((∀ n, i ≠ .locals n) → i ≠ .prune → t.frame = s.frame) ∧
    (i ≠ .brkNext → i ≠ .brkAfter → t.brk = s.brk) ∧
    (i ≠ .brkNow → t.hookEvents = s.hookEvents) ∧
    ((∀ d p v, i ≠ .wdevS d p v) → (∀ d p a b c e, i ≠ .wdevL d p a b c e) → (∀ d p v, i ≠ .emit d p v) →
      t.devWrites = s.devWrites) ∧
    (∃ new, t.devWrites = s.devWrites ++ new) ∧
    (∃ new, t.hookEvents = s.hookEvents ++ new)

/-- R22(c), R61: an instruction that cannot redirect, and does not halt, leaves the pc one further. -/
def Obligations.PcAdvancesByOneUnlessRedirected : Prop :=
  ∀ (i : Instr) (s t : State), canRedirect i = false → s.run = .running → exec i s = .next t → t.run = .running →
    t.pc = s.pc + 1

/-- R136: every halt a step makes has a code of the list. -/
def Obligations.EveryHaltCodeIsListed : Prop :=
  ∀ (s t : State) (code : Nat) (msg : Option String), step s = .next t → t.run = .halted code msg → isHaltCode code

/-- R138: an instruction raises a model fault only for the cause the table gives the fault; and a step of a running machine
raises one only in the fetch phase at the end of the stream, at a word that matches no row under the `refuse` policy, or in
the instruction it executes (a step of a halted machine raises the model's own, log 13). -/
def Obligations.EveryModelFaultHasItsListedCause : Prop :=
  (∀ (i : Instr) (s : State) (f : Fault), exec i s = .fault f → faultCause i s f) ∧
  (∀ (s : State) (f : Fault), s.run = .running → step s = .fault f →
    (f = .endOfStream ∧ s.program.length ≤ s.pc.toNat) ∨
    ∃ w, s.fetch s.pc.toNat = some w ∧
      ((f = .unlisted ∧ s.params.unlistedPolicy = .refuse ∧ ∃ why, decode w = .error why) ∨
        ∃ i, decode w = .ok i ∧ faultCause i s f)) ∧
  (∀ (s : State) (code : Nat) (msg : Option String), s.run = .halted code msg → step s = .fault .noStepWhenHalted)

/-- R143, R56: no instruction is refused, in any state; nor is a step. -/
def Obligations.NothingIsRefused : Prop :=
  ∀ (s : State) (q : Refusal), (∀ i : Instr, exec i s ≠ .refused q) ∧ step s ≠ .refused q

/-- The canonical form (log 15): two cell stores in it that read alike are equal. -/
def Obligations.CanonicalCellStoresThatReadAlikeAreEqual : Prop :=
  ∀ m m' : Memory, m.wf = true → m'.wf = true → (∀ i, m.read i = m'.read i) → m = m'

/-! ## Moves and the no-op (spec/40_system R65, spec/41_data_move.md) -/

/-- R65. -/
def Obligations.NopAdvancesThePcOnly : Prop :=
  EncodedAs 0x000000000 0xFF0000000 (fun _ => .nop) ∧ ∀ s : State, GoesOnlyTo s (s.pc + 1) (exec .nop s)

/-- R69, R70: the two immediate loads, by the formulas of their immediates. -/
def Obligations.ImmediateLoadsWriteTheirCell : Prop :=
  EncodedAs 0x010000000 0xFF000000F
    (fun f => .ldi f.r1 (if f.u2 = 0 then BitVec.ofNat 8 f.u1.toNat else sixteenths f.u1 f.u2)) ∧
  EncodedAs 0x01000000A 0xFF000000F (fun f => .ldiM (sixteenths f.r1 f.r2) (sixteenths f.u1 f.u2)) ∧
  (∀ (s : State) (rd : Nibble) (imm : Byte), RegistersExist s →
    WritesOnly s rd.toNat (BitVec.ofNat 64 imm.toNat) (exec (.ldi rd imm) s)) ∧
  (∀ (s : State) (c imm : Byte),
    InRangeElseHalts s c.toNat (WritesOnly s c.toNat (BitVec.ofNat 64 imm.toNat)) (exec (.ldiM c imm) s))

/-- R71: the XOR exchange exchanges, and with equal indices it changes nothing but the pc. -/
def Obligations.SwapExchangesTwoRegisters : Prop :=
  EncodedAs 0x030000000 0xFF0000000 (fun f => .swap f.r1 f.r2) ∧
  ∀ (s : State) (ra rb : Nibble), RegistersExist s →
    ∃ t, exec (.swap ra rb) s = .next t ∧
      t.cell ra.toNat = s.cell rb.toNat ∧ t.cell rb.toNat = s.cell ra.toNat ∧
      (∀ a, a ≠ ra.toNat → a ≠ rb.toNat → t.cell a = s.cell a) ∧
      t = { s with cells := t.cells, pc := s.pc + 1 }

/-- R72: a copy of all 64 bits; either index out of range halts with nothing written. -/
def Obligations.DupCopiesACell : Prop :=
  EncodedAs 0xB30000000 0xFF0000000 (fun f => .dup (sixteenths f.r1 f.r2) (sixteenths f.r3 f.u1)) ∧
  ∀ (s : State) (src dst : Byte),
    InRangeElseHalts s src.toNat (InRangeElseHalts s dst.toNat (WritesOnly s dst.toNat (s.cell src.toNat)))
      (exec (.dup src dst) s)

/-- R73: the top of the stack into a register; an empty stack faults. -/
def Obligations.PullPopsIntoARegister : Prop :=
  EncodedAs 0xA10000000 0xFF0000000 (fun f => .pull f.r1) ∧
  (∀ (s : State) (rd : Nibble) (v : Word) (rest : List Word), RegistersExist s → s.stack = v :: rest →
    WritesOnly { s with stack := rest } rd.toNat v (exec (.pull rd) s)) ∧
  (∀ (s : State) (rd : Nibble), s.stack = [] → exec (.pull rd) s = .fault .stackUnderflow)

/-! ## The device bus (spec/42_device.md) -/

/-- R74, R75: one recorded write of the low byte of a register, or of the assembled immediate; an absent device halts. -/
def Obligations.DeviceWritesRecordOneWrite : Prop :=
  EncodedAs 0x0F000000E 0xFF000000F (fun f => .wdevS f.r1 f.r2 f.r3) ∧
  EncodedAs 0x0F000000C 0xFF000000F (fun f => .wdevL f.r1 f.r2 f.r3 f.u1 f.u2 f.x1) ∧
  (∀ (s : State) (d p rv : Nibble),
    (d ∈ s.params.devices → RegistersExist s →
      exec (.wdevS d p rv) s = .next { s with
        devWrites := s.devWrites ++ [⟨d, p, BitVec.ofNat 64 ((s.cell rv.toNat).toNat % 256)⟩], pc := s.pc + 1 }) ∧
    (d ∉ s.params.devices → HaltsOnly s Config.deviceNotFoundCode (exec (.wdevS d p rv) s))) ∧
  (∀ (s : State) (d p n3 n2 n1 n0 : Nibble),
    (d ∈ s.params.devices → s.params.longAssembly = .spread →
      exec (.wdevL d p n3 n2 n1 n0) s = .next { s with
        devWrites := s.devWrites ++
          [⟨d, p, BitVec.ofNat 64 (n3.toNat * 2 ^ 24 + n2.toNat * 2 ^ 16 + n1.toNat * 2 ^ 8 + n0.toNat)⟩],
        pc := s.pc + 1 }) ∧
    (d ∈ s.params.devices → s.params.longAssembly = .dense →
      exec (.wdevL d p n3 n2 n1 n0) s = .next { s with
        devWrites := s.devWrites ++
          [⟨d, p, BitVec.ofNat 64 (n3.toNat * 2 ^ 12 + n2.toNat * 2 ^ 8 + n1.toNat * 2 ^ 4 + n0.toNat)⟩],
        pc := s.pc + 1 }) ∧
    (d ∉ s.params.devices → HaltsOnly s Config.deviceNotFoundCode (exec (.wdevL d p n3 n2 n1 n0) s)))

/-- R76: the answer, a free value, is pushed; an absent device halts, a full stack faults. -/
def Obligations.DeviceReadPushesTheAnswer : Prop :=
  EncodedAs 0xA40000000 0xFF0000000 (fun f => .rdev f.r1 f.r2) ∧
  ∀ (s : State) (d p : Nibble),
    (d ∈ s.params.devices → s.hasRoom 1 = true →
      PushesOnly { s with draws := s.draws + 1 } (Config.deviceAnswer s.draws d p) (exec (.rdev d p) s)) ∧
    (d ∈ s.params.devices → s.hasRoom 1 = false → exec (.rdev d p) s = .fault .stackOverflow) ∧
    (d ∉ s.params.devices → HaltsOnly s Config.deviceNotFoundCode (exec (.rdev d p) s))

/-- R77: with `ff = 0`, one write per ASCII digit of the decimal numeral, most significant first, with no leading zero; with
`ff = 1`, one per byte of the OPEN text; an absent device halts. -/
def Obligations.EmitWritesTheTextOfACell : Prop :=
  EncodedAs 0x0F000000F 0xFF000000F (fun f => .emit f.r1 f.r2 f.r3) ∧
  ∀ (s : State) (d p rv : Nibble),
    (d ∈ s.params.devices → RegistersExist s → s.ff = false →
      ∃ digits : List Nat,
        digits ≠ [] ∧ (∀ n ∈ digits, n < 10) ∧ (digits.head? = some 0 → digits = [0]) ∧
        digits.foldl (fun acc n => 10 * acc + n) 0 = (s.cell rv.toNat).toNat ∧
        exec (.emit d p rv) s = .next { s with
          devWrites := s.devWrites ++ digits.map (fun n => ⟨d, p, BitVec.ofNat 64 (0x30 + n)⟩), pc := s.pc + 1 }) ∧
    (d ∈ s.params.devices → RegistersExist s → s.ff = true →
      exec (.emit d p rv) s = .next { s with
        devWrites := s.devWrites ++ (Config.floatToText (f32 (s.cell rv.toNat))).map
          (fun c => ⟨d, p, BitVec.ofNat 64 c.toNat⟩),
        pc := s.pc + 1 }) ∧
    (d ∉ s.params.devices → HaltsOnly s Config.deviceNotFoundCode (exec (.emit d p rv) s))

/-! ## Control (spec/43_control.md) -/

/-- R78, R79: `pcap` stores the index of its own word and goes on; `jump_t` goes to the value of its register. -/
def Obligations.PcapAndUnconditionalJumpUseTheProgramCounter : Prop :=
  EncodedAs 0x080000C00 0xFF0000F00 (fun f => .pcap f.r1) ∧
  EncodedAs 0x080000F00 0xFF0000FF0 (fun f => .jumpT f.r1) ∧
  (∀ (s : State) (rd : Nibble), RegistersExist s → WritesOnly s rd.toNat s.pc (exec (.pcap rd) s)) ∧
  (∀ (s : State) (rt : Nibble), RegistersExist s → GoesOnlyTo s (s.cell rt.toNat) (exec (.jumpT rt) s))

/-- R80, R81, R82, R83: the four conditional jumps under the default, unsigned comparison of `JUMP_CMP`, and under the signed
one that D16 names. -/
def Obligations.ConditionalJumpsCompareTwoRegisters : Prop :=
  EncodedAs 0x080000F10 0xFF0000FF0 (fun f => .jumpE f.r1 f.r2 f.r3) ∧
  EncodedAs 0x080000F20 0xFF0000FF0 (fun f => .jumpG f.r1 f.r2 f.r3) ∧
  EncodedAs 0x080000F30 0xFF0000FF0 (fun f => .jumpU f.r1 f.r2 f.r3) ∧
  EncodedAs 0x080000F40 0xFF0000FF0 (fun f => .jumpY f.r1 f.r2 f.r3) ∧
  ∀ (s : State) (rt ra rb : Nibble), RegistersExist s →
    let a := s.cell ra.toNat
    let b := s.cell rb.toNat
    let pcWhen (c : Prop) [Decidable c] : Word := if c then s.cell rt.toNat else s.pc + 1
    (s.params.jumpCmp = .unsigned →
      GoesOnlyTo s (pcWhen (a.toNat ≥ b.toNat)) (exec (.jumpE rt ra rb) s) ∧
      GoesOnlyTo s (pcWhen (a.toNat > b.toNat)) (exec (.jumpG rt ra rb) s) ∧
      GoesOnlyTo s (pcWhen (a.toNat < b.toNat)) (exec (.jumpU rt ra rb) s) ∧
      GoesOnlyTo s (pcWhen (a.toNat ≤ b.toNat)) (exec (.jumpY rt ra rb) s)) ∧
    (s.params.jumpCmp = .signed →
      GoesOnlyTo s (pcWhen (a.toInt ≥ b.toInt)) (exec (.jumpE rt ra rb) s) ∧
      GoesOnlyTo s (pcWhen (a.toInt > b.toInt)) (exec (.jumpG rt ra rb) s) ∧
      GoesOnlyTo s (pcWhen (a.toInt < b.toInt)) (exec (.jumpU rt ra rb) s) ∧
      GoesOnlyTo s (pcWhen (a.toInt ≤ b.toInt)) (exec (.jumpY rt ra rb) s))

/-- D16's third comparison, the float one when `ff = 1`, by the model's choice of log 17: no comparison with a NaN holds,
other data are ordered with -0 equal to +0; with `ff = 0` it is the unsigned one. -/
def Obligations.FloatComparisonOfJumpsIsTheModelsChoice : Prop :=
  ∀ (s : State) (rt ra rb : Nibble), RegistersExist s → s.params.jumpCmp = .floatInFloatMode →
    let a := s.cell ra.toNat
    let b := s.cell rb.toNat
    let x := f32 a
    let y := f32 b
    let jumps := GoesOnlyTo s (s.cell rt.toNat)
    let falls := GoesOnlyTo s (s.pc + 1)
    (s.ff = true → isNaN x = true ∨ isNaN y = true →
      falls (exec (.jumpE rt ra rb) s) ∧ falls (exec (.jumpG rt ra rb) s) ∧
      falls (exec (.jumpU rt ra rb) s) ∧ falls (exec (.jumpY rt ra rb) s)) ∧
    (s.ff = true → isNaN x = false → isNaN y = false →
      (compareKey x < compareKey y →
        falls (exec (.jumpE rt ra rb) s) ∧ falls (exec (.jumpG rt ra rb) s) ∧
        jumps (exec (.jumpU rt ra rb) s) ∧ jumps (exec (.jumpY rt ra rb) s)) ∧
      (compareKey y < compareKey x →
        jumps (exec (.jumpE rt ra rb) s) ∧ jumps (exec (.jumpG rt ra rb) s) ∧
        falls (exec (.jumpU rt ra rb) s) ∧ falls (exec (.jumpY rt ra rb) s)) ∧
      (compareKey x = compareKey y →
        jumps (exec (.jumpE rt ra rb) s) ∧ falls (exec (.jumpG rt ra rb) s) ∧
        falls (exec (.jumpU rt ra rb) s) ∧ jumps (exec (.jumpY rt ra rb) s))) ∧
    (s.ff = false →
      GoesOnlyTo s (if a.toNat ≥ b.toNat then s.cell rt.toNat else s.pc + 1) (exec (.jumpE rt ra rb) s) ∧
      GoesOnlyTo s (if a.toNat > b.toNat then s.cell rt.toNat else s.pc + 1) (exec (.jumpG rt ra rb) s) ∧
      GoesOnlyTo s (if a.toNat < b.toNat then s.cell rt.toNat else s.pc + 1) (exec (.jumpU rt ra rb) s) ∧
      GoesOnlyTo s (if a.toNat ≤ b.toNat then s.cell rt.toNat else s.pc + 1) (exec (.jumpY rt ra rb) s))

/-- R84: `orb` pushes the next words raw, the last on top, and goes past them; a stream that ends first halts with 0xA1 and
leaves pushed what was there; a stack that fills first faults. -/
def Obligations.OrbPushesTheNextWords : Prop :=
  EncodedAs 0xA00000000 0xFF0000000 (fun f => .orb f.r1) ∧
  (∀ (s : State) (n : Nibble) (ws : List Word), ws.length = n.toNat → s.hasRoom n.toNat = true →
    (∀ k < n.toNat, s.fetch (s.pc.toNat + 1 + k) = ws[k]?) →
    exec (.orb n) s = .next { s with stack := ws.reverse ++ s.stack, pc := s.pc + 1 + BitVec.ofNat 64 n.toNat }) ∧
  (∀ (s : State) (n : Nibble) (ws : List Word), ws.length < n.toNat → s.hasRoom ws.length = true →
    (∀ k < ws.length, s.fetch (s.pc.toNat + 1 + k) = ws[k]?) → s.fetch (s.pc.toNat + 1 + ws.length) = none →
    HaltsOnly { s with stack := ws.reverse ++ s.stack } 0xA1 (exec (.orb n) s)) ∧
  (∀ (s : State) (n : Nibble) (k : Nat), k < n.toNat → s.hasRoom (k + 1) = false →
    (∀ j ≤ k, s.fetch (s.pc.toNat + 1 + j) ≠ none) → exec (.orb n) s = .fault .stackOverflow)

/-- R85: `sig` scans to the first `ret` after it, whatever lies between, leaves its own index in `x[rd]` and `x[rd + 1]`,
and goes past the `ret`; with no `ret` it halts with 0xA1, its index written and pushed; it needs room for two values. -/
def Obligations.SigScansToTheFirstRet : Prop :=
  EncodedAs 0xA50000001 0xFF000000F (fun f => .sig f.r1) ∧
  (∀ (s : State) (rd : Nibble) (a : Nat) (w : Word), RegistersExist s → s.hasRoom 2 = true → s.pc.toNat < a →
    (∀ j, s.pc.toNat < j → j < a → ∃ v, s.fetch j = some v ∧ decode v ≠ .ok .ret) →
    s.fetch a = some w → decode w = .ok .ret →
    ∃ t, exec (.sig rd) s = .next t ∧
      (∀ c, t.cell c = if c = rd.toNat ∨ c = rd.toNat + 1 then s.pc else s.cell c) ∧
      t = { s with cells := t.cells, pc := BitVec.ofNat 64 (a + 1) }) ∧
  (∀ (s : State) (rd : Nibble), RegistersExist s → s.hasRoom 2 = true →
    (∀ j v, s.pc.toNat < j → s.fetch j = some v → decode v ≠ .ok .ret) →
    ∃ t msg, exec (.sig rd) s = .next t ∧
      (∀ c, t.cell c = if c = rd.toNat then s.pc else s.cell c) ∧
      t = { s with cells := t.cells, stack := s.pc :: s.stack, run := .halted 0xA1 msg }) ∧
  (∀ (s : State) (rd : Nibble), RegistersExist s → s.hasRoom 2 = false → exec (.sig rd) s = .fault .stackOverflow)

/-- R86: `ret` executed by the step faults. -/
def Obligations.RetExecutedFaults : Prop :=
  EncodedAs 0xA50000002 0xFF000000F (fun _ => .ret) ∧ ∀ s : State, exec .ret s = .fault .retOutsideScan

/-! ## Arithmetic (spec/44_alu.md) -/

/-- R90, R91: wrapping by one, in the register, whatever `ff` and `sf` are. -/
def Obligations.IncAndDecWrapInTheRegister : Prop :=
  EncodedAs 0xB10000000 0xFF0000000 (fun f => .inc f.r1) ∧
  EncodedAs 0xB20000000 0xFF0000000 (fun f => .dec f.r1) ∧
  ∀ (s : State) (rd : Nibble), RegistersExist s →
    WritesOnly s rd.toNat (BitVec.ofNat 64 ((s.cell rd.toNat).toNat + 1)) (exec (.inc rd) s) ∧
    WritesOnly s rd.toNat (BitVec.ofNat 64 ((s.cell rd.toNat).toNat + 2 ^ 64 - 1)) (exec (.dec rd) s)

/-- R87, R88, R92, R93, R94: `add`, `sub` and `mul`: low 64 bits of the exact integer result, or the binary32 operation,
delivered to the register or the stack. -/
def Obligations.AddSubMulDeliverTheirResult : Prop :=
  EncodedAs 0xCA0000000 0xFF0000000 (fun f => .add f.r1 f.r2 f.r3) ∧
  EncodedAs 0xCB0000000 0xFF0000000 (fun f => .sub f.r1 f.r2 f.r3) ∧
  EncodedAs 0xCC0000000 0xFF0000000 (fun f => .mul f.r1 f.r2 f.r3) ∧
  ∀ (s : State) (rd ra rb : Nibble), RegistersExist s →
    let a := s.cell ra.toNat
    let b := s.cell rb.toNat
    (s.ff = false →
      Delivers s rd.toNat (BitVec.ofInt 64 (a.toNat + b.toNat)) (exec (.add rd ra rb) s) ∧
      Delivers s rd.toNat (BitVec.ofInt 64 (a.toNat - b.toNat)) (exec (.sub rd ra rb) s) ∧
      Delivers s rd.toNat (BitVec.ofInt 64 (a.toNat * b.toNat)) (exec (.mul rd ra rb) s)) ∧
    (s.ff = true →
      DeliversFloat s rd.toNat (floatAdd (f32 a) (f32 b)) (exec (.add rd ra rb) s) ∧
      DeliversFloat s rd.toNat (floatSub (f32 a) (f32 b)) (exec (.sub rd ra rb) s) ∧
      DeliversFloat s rd.toNat (floatMul (f32 a) (f32 b)) (exec (.mul rd ra rb) s))

/-- R95: integer division truncates, unsigned or signed; a divisor of 0 halts with 0xC and writes and pushes nothing; in
float mode it never halts. -/
def Obligations.DivDeliversTheQuotientOrHalts : Prop :=
  EncodedAs 0xCD0000000 0xFF0000000 (fun f => .div f.r1 f.r2 f.r3) ∧
  ∀ (s : State) (rd ra rb : Nibble), RegistersExist s →
    let a := s.cell ra.toNat
    let b := s.cell rb.toNat
    (s.ff = false → b = 0 → HaltsOnly s 0xC (exec (.div rd ra rb) s)) ∧
    (s.ff = false → b ≠ 0 → s.params.intDivSigned = false →
      Delivers s rd.toNat (BitVec.ofNat 64 (a.toNat / b.toNat)) (exec (.div rd ra rb) s)) ∧
    (s.ff = false → b ≠ 0 → s.params.intDivSigned = true → ¬(a.toInt = -2 ^ 63 ∧ b.toInt = -1) →
      Delivers s rd.toNat (BitVec.ofInt 64 (a.toInt.tdiv b.toInt)) (exec (.div rd ra rb) s)) ∧
    (s.ff = false → s.params.intDivSigned = true → a.toInt = -2 ^ 63 → b.toInt = -1 →
      exec (.div rd ra rb) s = .fault .divOverflow) ∧
    (s.ff = true → DeliversFloat s rd.toNat (floatDiv (f32 a) (f32 b)) (exec (.div rd ra rb) s))

/-- R96: integer `pow` is the power modulo 2^64 with `0^0 = 1`; float `pow` is the OPEN host function. -/
def Obligations.PowDeliversThePower : Prop :=
  EncodedAs 0xCE0000000 0xFF0000000 (fun f => .pow f.r1 f.r2 f.r3) ∧
  ∀ (s : State) (rd ra rb : Nibble), RegistersExist s →
    let a := s.cell ra.toNat
    let b := s.cell rb.toNat
    (s.ff = false → Delivers s rd.toNat (BitVec.ofNat 64 (a.toNat ^ b.toNat)) (exec (.pow rd ra rb) s)) ∧
    (s.ff = true →
      DeliversFloat s rd.toNat (hostResult (Config.mathf2 .pow (f32 a) (f32 b))) (exec (.pow rd ra rb) s))

/-- R97: integer `sqrt` is the floor of the root of the unsigned value; float `sqrt` is the binary32 operation. -/
def Obligations.SqrtDeliversTheRoot : Prop :=
  EncodedAs 0xCF0000000 0xFF0000000 (fun f => .sqrt f.r1 f.r2) ∧
  ∀ (s : State) (rd ra : Nibble), RegistersExist s →
    let a := s.cell ra.toNat
    (s.ff = false → ∃ r : Nat, r * r ≤ a.toNat ∧ a.toNat < (r + 1) * (r + 1) ∧
      Delivers s rd.toNat (BitVec.ofNat 64 r) (exec (.sqrt rd ra) s)) ∧
    (s.ff = true → DeliversFloat s rd.toNat (floatSqrt (f32 a)) (exec (.sqrt rd ra) s))

/-- R98, R99: `xor` and `or` of two pair-addressed cells, to the first or the stack; in float mode they fault before any
read. -/
def Obligations.XorAndOrCombineTwoCells : Prop :=
  EncodedAs 0xB50000000 0xFF0000000 (fun f => .xor (sixteenths f.r1 f.r2) (sixteenths f.r3 f.u1)) ∧
  EncodedAs 0xB60000000 0xFF0000000 (fun f => .or (sixteenths f.r1 f.r2) (sixteenths f.r3 f.u1)) ∧
  ∀ (s : State) (ca cb : Byte),
    (s.ff = true →
      exec (.xor ca cb) s = .fault .bitwiseInFloatMode ∧ exec (.or ca cb) s = .fault .bitwiseInFloatMode) ∧
    (s.ff = false →
      InRangeElseHalts s ca.toNat (InRangeElseHalts s cb.toNat
        (Delivers s ca.toNat (s.cell ca.toNat ^^^ s.cell cb.toNat))) (exec (.xor ca cb) s) ∧
      InRangeElseHalts s ca.toNat (InRangeElseHalts s cb.toNat
        (Delivers s ca.toNat (s.cell ca.toNat ||| s.cell cb.toNat))) (exec (.or ca cb) s))

/-- R100: in float mode `ckft` halts with 0xA9 exactly when bits 30:23 of the cell are all ones; else, and with `ff = 0`,
it only advances. -/
def Obligations.CkftHaltsOnNonFiniteInFloatMode : Prop :=
  EncodedAs 0xB40000000 0xFF0000000 (fun f => .ckft (sixteenths f.r1 f.r2)) ∧
  ∀ (s : State) (c : Byte),
    (s.ff = false → GoesOnlyTo s (s.pc + 1) (exec (.ckft c) s)) ∧
    (s.ff = true → InRangeElseHalts s c.toNat
      (fun r =>
        ((s.cell c.toNat).extractLsb' 23 8 = 0xFF → HaltsOnly s 0xA9 r) ∧
        ((s.cell c.toNat).extractLsb' 23 8 ≠ 0xFF → GoesOnlyTo s (s.pc + 1) r))
      (exec (.ckft c) s))

/-! ## Native call, frame and breakpoints (spec/45_frame_extern.md, spec/46_debug.md) -/

/-- R101: `xcall` by the resolution of the low 32 bits of the register, and by the outcome of the routine, a free value. -/
def Obligations.XcallResolvesAndInvokes : Prop :=
  EncodedAs 0x360000000 0xFF0000000 (fun f => .xcall f.r1) ∧
  ∀ (s : State) (rs : Nibble), RegistersExist s →
    let sg : BitVec 32 := BitVec.ofNat 32 ((s.cell rs.toNat).toNat % 2 ^ 32)
    (∀ kind, resolveIn s.params.registry sg = .failed kind →
      HaltsOnly s (Config.externHaltBase + externKindOffset kind) (exec (.xcall rs) s)) ∧
    (∀ routine, resolveIn s.params.registry sg = .found routine → routine.hasArgs = true →
      HaltsOnly s 0xA22 (exec (.xcall rs) s)) ∧
    (∀ routine, resolveIn s.params.registry sg = .found routine → routine.hasArgs = false →
      match Config.nativeOutcome s.draws sg with
      | .error text => exec (.xcall rs) s = .next { s with run := .halted 0xA22 (some text), draws := s.draws + 1 }
      | .ok v =>
        (routine.returnsValue = false → GoesOnlyTo { s with draws := s.draws + 1 } (s.pc + 1) (exec (.xcall rs) s)) ∧
        (routine.returnsValue = true → s.hasRoom 1 = true →
          PushesOnly { s with draws := s.draws + 1 } v (exec (.xcall rs) s)) ∧
        (routine.returnsValue = true → s.hasRoom 1 = false → exec (.xcall rs) s = .fault .stackOverflow))

/-- R102: `locals` with `n` legal descriptors installs a frame of `n` slots in which the last descriptor of a slot wins, and
goes past them; a stream that ends first, a bad tag or a bad slot ends it, in the order of the descriptors. -/
def Obligations.LocalsReadsItsDescriptors : Prop :=
  EncodedAs 0x380000000 0xFF0000000 (fun f => .locals f.r1) ∧
  ∀ (s : State) (n : Nibble) (ds : List (Word × Word)), ds.length ≤ n.toNat →
    (∀ k d, ds[k]? = some d →
      s.fetch (s.pc.toNat + 1 + 2 * k) = some d.1 ∧ s.fetch (s.pc.toNat + 2 + 2 * k) = some d.2 ∧
      d.1 ∈ s.params.typeTags ∧ d.2.toNat < n.toNat) →
    let frame : Frame :=
      { count := n.toNat
        slots := ds.foldl (fun slots d => slots.set d.2.toNat (some ⟨d.1⟩)) (List.replicate n.toNat none)
        scratch := [] }
    let tag := s.fetch (s.pc.toNat + 1 + 2 * ds.length)
    let slot := s.fetch (s.pc.toNat + 2 + 2 * ds.length)
    (ds.length = n.toNat →
      exec (.locals n) s = .next { s with frame := some frame, pc := s.pc + 1 + BitVec.ofNat 64 (2 * n.toNat) }) ∧
    (ds.length < n.toNat → tag = none ∨ slot = none →
      HaltsOnly { s with frame := some frame } 0xA1 (exec (.locals n) s)) ∧
    (∀ vt vs, ds.length < n.toNat → tag = some vt → slot = some vs →
      (vt ∉ s.params.typeTags → exec (.locals n) s = .fault .badTypeTag) ∧
      (vt ∈ s.params.typeTags → n.toNat ≤ vs.toNat → exec (.locals n) s = .fault .badSlot))

/-- R103. -/
def Obligations.PruneReleasesTheFrame : Prop :=
  EncodedAs 0x370000000 0xFF0000000 (fun _ => .prune) ∧
  ∀ s : State,
    (∀ f, s.frame = some f → exec .prune s = .next { s with frame := none, pc := s.pc + 1 }) ∧
    (s.frame = none → exec .prune s = .fault .pruneWithoutFrame)

/-- R106, R107: `brk_now` records a hook with its own index and leaves `brk`, and a trigger armed before still fires;
`brk_next` arms, whatever was pending, and the step's end fires with the next pc and returns to idle. With `bf = 1` the step
also hooks before it begins. -/
def Obligations.BreakNowAndBreakNextFireTheHook : Prop :=
  EncodedAs 0xC10000001 0xFF000000F (fun _ => .brkNow) ∧
  EncodedAs 0xC10000002 0xFF000000F (fun _ => .brkNext) ∧
  (∀ s : State, exec .brkNow s = .next { s with hookEvents := s.hookEvents ++ [s.pc], pc := s.pc + 1 }) ∧
  (∀ s : State, exec .brkNext s = .next { s with brk := .afterThisStep, pc := s.pc + 1 }) ∧
  (∀ (s : State) (w : Word), s.run = .running → s.fetch s.pc.toNat = some w →
    let before := s.hookEvents ++ (if s.bf = true then [s.pc] else [])
    (decode w = .ok .brkNow → s.brk ≠ .idle →
      step s = .next { s with hookEvents := before ++ [s.pc, s.pc + 1], brk := .idle, pc := s.pc + 1 }) ∧
    (decode w = .ok .brkNow → s.brk = .idle →
      step s = .next { s with hookEvents := before ++ [s.pc], pc := s.pc + 1 }) ∧
    (decode w = .ok .brkNext →
      step s = .next { s with hookEvents := before ++ [s.pc + 1], brk := .idle, pc := s.pc + 1 }))

/-! ## The math table (spec/47_math_table.md) -/

/-- R110, R111, R124..R126, R132..R135: the exact functions deliver their bit-exact result in float mode, and halt with 0xA9
before anything else without it. -/
def Obligations.ExactMathFunctionsDeliverOrHalt : Prop :=
  (∀ (pattern : Word) (i : Nibble → Nibble → Instr) (fn : F32 → Option F32),
    (pattern, i, fn) ∈ [
      (0xD00000000#64, Instr.abs, fun a => some (a &&& 0x7FFFFFFF)), (0xDD0000000#64, Instr.ceiling, floatCeiling),
      (0xDE0000000#64, Instr.floor, floatFloor), (0xDF0000000#64, Instr.truncate, floatTruncate),
      (0xE70000000#64, Instr.bitinc, floatBitInc), (0xE80000000#64, Instr.bitdec, floatBitDec)] →
    EncodedAs pattern 0xFF0000000 (fun f => i f.r1 f.r2) ∧
    ∀ (s : State) (rd ra : Nibble),
      (s.ff = true → RegistersExist s → DeliversFloat s rd.toNat (fn (f32 (s.cell ra.toNat))) (exec (i rd ra) s)) ∧
      (s.ff = false → HaltsOnly s 0xA9 (exec (i rd ra) s))) ∧
  (∀ (pattern : Word) (i : Nibble → Nibble → Nibble → Instr) (fn : F32 → F32 → Option F32),
    (pattern, i, fn) ∈ [(0xE50000000#64, Instr.min, floatMin), (0xE60000000#64, Instr.max, floatMax)] →
    EncodedAs pattern 0xFF0000000 (fun f => i f.r1 f.r2 f.r3) ∧
    ∀ (s : State) (rd ra rb : Nibble),
      (s.ff = true → RegistersExist s →
        DeliversFloat s rd.toNat (fn (f32 (s.cell ra.toNat)) (f32 (s.cell rb.toNat))) (exec (i rd ra rb) s)) ∧
      (s.ff = false → HaltsOnly s 0xA9 (exec (i rd ra rb) s)))

/-- R112..R123: the trigonometric and hyperbolic functions deliver the OPEN host function's datum, or a NaN draw where it is a
NaN, in float mode; without it they halt with 0xA9 before anything else. -/
def Obligations.TrigonometricAndHyperbolicFunctionsDeliverOrHalt : Prop :=
  (∀ (pattern : Word) (i : Nibble → Nibble → Instr) (fn : HostFn1),
    (pattern, i, fn) ∈ [
      (0xD10000000#64, Instr.sin, HostFn1.sin), (0xD20000000#64, Instr.cos, HostFn1.cos),
      (0xD30000000#64, Instr.tan, HostFn1.tan), (0xD40000000#64, Instr.asin, HostFn1.asin),
      (0xD50000000#64, Instr.acos, HostFn1.acos), (0xD60000000#64, Instr.atan, HostFn1.atan),
      (0xD70000000#64, Instr.sinh, HostFn1.sinh), (0xD80000000#64, Instr.cosh, HostFn1.cosh),
      (0xD90000000#64, Instr.tanh, HostFn1.tanh), (0xDA0000000#64, Instr.asinh, HostFn1.asinh),
      (0xDB0000000#64, Instr.acosh, HostFn1.acosh), (0xDC0000000#64, Instr.atanh, HostFn1.atanh)] →
    EncodedAs pattern 0xFF0000000 (fun f => i f.r1 f.r2) ∧
    ∀ (s : State) (rd ra : Nibble),
      let y := Config.mathf1 fn (f32 (s.cell ra.toNat))
      (s.ff = true → RegistersExist s →
        DeliversFloat s rd.toNat (if isNaN y = true then none else some y) (exec (i rd ra) s)) ∧
      (s.ff = false → HaltsOnly s 0xA9 (exec (i rd ra) s)))

/-- R127..R131: the logarithms, the exponential, the cube root and `atan2`, in the same way. -/
def Obligations.LogarithmsRootsAndAtan2DeliverOrHalt : Prop :=
  (∀ (pattern : Word) (i : Nibble → Nibble → Instr) (fn : HostFn1),
    (pattern, i, fn) ∈ [
      (0xE00000000#64, Instr.log, HostFn1.log), (0xE10000000#64, Instr.log10, HostFn1.log10),
      (0xE20000000#64, Instr.exp, HostFn1.exp), (0xE30000000#64, Instr.cbrt, HostFn1.cbrt)] →
    EncodedAs pattern 0xFF0000000 (fun f => i f.r1 f.r2) ∧
    ∀ (s : State) (rd ra : Nibble),
      let y := Config.mathf1 fn (f32 (s.cell ra.toNat))
      (s.ff = true → RegistersExist s →
        DeliversFloat s rd.toNat (if isNaN y = true then none else some y) (exec (i rd ra) s)) ∧
      (s.ff = false → HaltsOnly s 0xA9 (exec (i rd ra) s))) ∧
  EncodedAs 0xE40000000 0xFF0000000 (fun f => .atan2 f.r1 f.r2 f.r3) ∧
  (∀ (s : State) (rd ra rb : Nibble),
    let y := Config.mathf2 .atan2 (f32 (s.cell ra.toNat)) (f32 (s.cell rb.toNat))
    (s.ff = true → RegistersExist s →
      DeliversFloat s rd.toNat (if isNaN y = true then none else some y) (exec (.atan2 rd ra rb) s)) ∧
    (s.ff = false → HaltsOnly s 0xA9 (exec (.atan2 rd ra rb) s)))

/-! ## Binary32 (spec/44_alu R89, spec/47_math_table.md) -/

/-- R89(b), (c): the sum and the difference of two finite data round to nearest even; an exact zero sum is +0 unless both
operands are negative zeros. -/
def Obligations.FloatAddAndSubAreCorrectlyRounded : Prop :=
  ∀ a b : F32, isFinite a = true → isFinite b = true →
    (∃ f, floatAdd a b = some f ∧ RoundsTo (signedUnits a + signedUnits b) 1 f ∧
      (signedUnits a + signedUnits b = 0 → (isNegative f = true ↔ isNegative a = true ∧ isNegative b = true))) ∧
    (∃ f, floatSub a b = some f ∧ RoundsTo (signedUnits a - signedUnits b) 1 f ∧
      (signedUnits a - signedUnits b = 0 → (isNegative f = true ↔ isNegative a = true ∧ isNegative b = false)))

/-- R89(b), (c): the product, and the quotient by a divisor that is not zero, round to nearest even, with the sign of the
operands' signs, also where they are or round to zero. -/
def Obligations.FloatMulAndDivAreCorrectlyRounded : Prop :=
  ∀ a b : F32, isFinite a = true → isFinite b = true →
    (∃ f, floatMul a b = some f ∧ RoundsTo (signedUnits a * signedUnits b) (2 ^ 149) f ∧
      (isNegative f = true ↔ isNegative a ≠ isNegative b)) ∧
    (units b ≠ 0 → ∃ f, floatDiv a b = some f ∧
      RoundsTo (Int.sign (signedUnits b) * signedUnits a * 2 ^ 149) (units b) f ∧
      (isNegative f = true ↔ isNegative a ≠ isNegative b))

/-- R97, R89(b): no finite datum is nearer to the root of a positive finite datum than the `sqrt` result: the
root lies on the side of `f` of the middle between `f` and any other datum `g`. -/
def Obligations.FloatSqrtIsCorrectlyRounded : Prop :=
  ∀ a : F32, isFinite a = true → isNegative a = false → units a ≠ 0 →
    ∃ f, floatSqrt a = some f ∧ isFinite f = true ∧ isNegative f = false ∧
      ∀ g : F32, isFinite g = true → isNegative g = false →
        (units f < units g → 4 * (units a * 2 ^ 149) ≤ (units f + units g) ^ 2) ∧
        (units g < units f → (units f + units g) ^ 2 ≤ 4 * (units a * 2 ^ 149))

/-- R89(d), (e), (f), R95, R97, R14: operands that are no finite numbers, division by zero, roots of zeros and negative
numbers, and the pattern of a NaN draw. -/
def Obligations.FloatSpecialOperandsFollowIeee : Prop :=
  (∀ a b : F32, isNaN a = true ∨ isNaN b = true →
    floatAdd a b = none ∧ floatSub a b = none ∧ floatMul a b = none ∧ floatDiv a b = none) ∧
  (∀ a b : F32, isInfinite a = true → isInfinite b = true →
    floatAdd a b = (if isNegative a = isNegative b then some a else none) ∧
    floatSub a b = (if isNegative a = isNegative b then none else some a) ∧
    floatMul a b = some (if isNegative a = isNegative b then 0x7F800000 else 0xFF800000) ∧
    floatDiv a b = none) ∧
  (∀ a b : F32, isInfinite a = true → isFinite b = true →
    floatAdd a b = some a ∧ floatAdd b a = some a ∧
    floatSub a b = some a ∧ floatSub b a = some (if isNegative a = true then 0x7F800000 else 0xFF800000) ∧
    floatMul a b = (if units b = 0 then none else some (if isNegative a = isNegative b then 0x7F800000 else 0xFF800000)) ∧
    floatMul b a = (if units b = 0 then none else some (if isNegative a = isNegative b then 0x7F800000 else 0xFF800000)) ∧
    floatDiv a b = some (if isNegative a = isNegative b then 0x7F800000 else 0xFF800000) ∧
    floatDiv b a = some (if isNegative a = isNegative b then 0x00000000 else 0x80000000)) ∧
  (∀ a b : F32, isFinite a = true → isFinite b = true → units b = 0 →
    floatDiv a b = (if units a = 0 then none else some (if isNegative a = isNegative b then 0x7F800000 else 0xFF800000))) ∧
  (∀ a : F32, isNaN a = true → floatSqrt a = none) ∧
  (∀ a : F32, isNaN a = false → isNegative a = true →
    floatSqrt a = if a = 0x80000000 then some 0x80000000 else none) ∧
  floatSqrt 0x00000000 = some 0x00000000 ∧ floatSqrt 0x7F800000 = some 0x7F800000 ∧
  (∀ n, (nanPattern n).extractLsb' 23 8 = 0xFF ∧ (nanPattern n).extractLsb' 0 23 ≠ 0)

/-- R124, R125, R126: the integral value that a finite datum rounds to, toward +inf, -inf and zero, with its sign; and
infinities and NaNs. -/
def Obligations.IntegralRoundingFunctions : Prop :=
  (∀ a : F32, isFinite a = true →
    (∃ f, floatCeiling a = some f ∧ isFinite f = true ∧ isNegative f = isNegative a ∧
      signedUnits f = -(-signedUnits a / 2 ^ 149) * 2 ^ 149) ∧
    (∃ f, floatFloor a = some f ∧ isFinite f = true ∧ isNegative f = isNegative a ∧
      signedUnits f = signedUnits a / 2 ^ 149 * 2 ^ 149) ∧
    (∃ f, floatTruncate a = some f ∧ isFinite f = true ∧ isNegative f = isNegative a ∧
      signedUnits f = (signedUnits a).tdiv (2 ^ 149) * 2 ^ 149)) ∧
  (∀ a : F32, isInfinite a = true → floatCeiling a = some a ∧ floatFloor a = some a ∧ floatTruncate a = some a) ∧
  (∀ a : F32, isNaN a = true → floatCeiling a = none ∧ floatFloor a = none ∧ floatTruncate a = none)

/-- R132..R135: minimum and maximum with -0 below +0 and NaNs propagated; nextUp and nextDown as the least datum above and
the greatest below, with the infinities, and zeros, as stated. -/
def Obligations.MinimumMaximumAndNeighbours : Prop :=
  (∀ a b : F32, isNaN a = true ∨ isNaN b = true → floatMin a b = none ∧ floatMax a b = none) ∧
  (∀ a b : F32, isNaN a = false → isNaN b = false →
    (∃ f, floatMin a b = some f ∧ (f = a ∨ f = b) ∧ compareKey f ≤ compareKey a ∧ compareKey f ≤ compareKey b) ∧
    (∃ f, floatMax a b = some f ∧ (f = a ∨ f = b) ∧ compareKey a ≤ compareKey f ∧ compareKey b ≤ compareKey f)) ∧
  floatMin 0x00000000 0x80000000 = some 0x80000000 ∧ floatMin 0x80000000 0x00000000 = some 0x80000000 ∧
  floatMax 0x00000000 0x80000000 = some 0x00000000 ∧ floatMax 0x80000000 0x00000000 = some 0x00000000 ∧
  (∀ a : F32, isNaN a = true → floatBitInc a = none ∧ floatBitDec a = none) ∧
  (∀ a : F32, isNaN a = false → a ≠ 0x7F800000 →
    ∃ f, floatBitInc a = some f ∧ isNaN f = false ∧ compareKey a < compareKey f ∧
      ∀ g : F32, isNaN g = false → compareKey a < compareKey g → compareKey f ≤ compareKey g) ∧
  (∀ a : F32, isNaN a = false → a ≠ 0xFF800000 →
    ∃ f, floatBitDec a = some f ∧ isNaN f = false ∧ compareKey f < compareKey a ∧
      ∀ g : F32, isNaN g = false → compareKey g < compareKey a → compareKey g ≤ compareKey f) ∧
  floatBitInc 0x7F800000 = some 0x7F800000 ∧ floatBitDec 0xFF800000 = some 0xFF800000
end

