-- ==== Sys2Proof/Laws/Decode.lean ====
section
/-!
SUPPORT. The laws of the fields of a word: what the encoder packs the decoder unpacks, and pairs split and join.
-/

namespace Sys2Proof

/-- The decoder's fields of an encoder's word. -/
@[simp] theorem fields_encFields (f : Fields) : fields (encFields f) = f := by
  cases f
  simp only [fields, encFields, Fields.mk.injEq]
  refine ⟨?_, ?_, ?_, ?_, ?_, ?_, ?_, ?_⟩ <;>
    (apply BitVec.eq_of_getLsbD_eq
     intro k hk
     simp only [BitVec.getLsbD_extractLsb', BitVec.getLsbD_append, BitVec.getLsbD_zero]
     interval_cases k <;> simp)

/-- An encoder's word fits 36 bits: bits 63:36 are zero. -/
theorem encFields_high (f : Fields) : (encFields f).extractLsb' 36 28 = 0 := by
  apply BitVec.eq_of_getLsbD_eq
  intro k hk
  simp only [encFields, BitVec.getLsbD_extractLsb', BitVec.getLsbD_append, BitVec.getLsbD_zero]
  interval_cases k <;> simp

/-- `decode` of an encoded instruction is the match of its fields. -/
theorem decode_encode_eq (i : Instr) : decode (encode i) = matchFields i.toFields := by
  rw [decode, encode, fields_encFields]

/-- A pair's two nibbles join to the pair. -/
@[simp] theorem pair_high_low (p : Byte) : pair (pairHigh p) (pairLow p) = p := by
  apply BitVec.eq_of_getLsbD_eq
  intro k hk
  simp only [pair, pairHigh, pairLow, BitVec.getLsbD_append, BitVec.getLsbD_extractLsb']
  interval_cases k <;> simp

/-- Bits put above other bits count their power of two. -/
theorem append_toNat {m n : Nat} (a : BitVec m) (b : BitVec n) : (a ++ b).toNat = 2 ^ n * a.toNat + b.toNat := by
  rw [BitVec.toNat_append, Nat.shiftLeft_eq, mul_comm a.toNat, ← Nat.two_pow_add_eq_or_of_lt b.isLt]

/-- `pair(h, l)` is `16*h + l`. -/
theorem pair_toNat (h l : Nibble) : (pair h l).toNat = 16 * h.toNat + l.toNat := append_toNat h l

end Sys2Proof
end

