-- ==== Sys2Proof/Laws/Encoding.lean ====
section
/-!
SUPPORT. From a row's match and mask values to the fields they fix: a row is decoded right when the match gives its
instruction for every word with those fields. One lemma per mask of the opcode table.
-/

namespace Sys2Proof.Machine

/-- The fields of a masked word are the masked fields. -/
theorem fields_and (w m : Word) : fields (w &&& m) =
    ⟨(fields w).iid &&& (fields m).iid, (fields w).r1 &&& (fields m).r1, (fields w).r2 &&& (fields m).r2,
     (fields w).r3 &&& (fields m).r3, (fields w).u1 &&& (fields m).u1, (fields w).u2 &&& (fields m).u2,
     (fields w).x1 &&& (fields m).x1, (fields w).x2 &&& (fields m).x2⟩ := by
  simp [fields, BitVec.extractLsb'_and]

theorem byte_and_ones (a : Byte) : a &&& 0xFF#8 = a := BitVec.and_allOnes (x := a)

theorem nibble_and_ones (a : Nibble) : a &&& 0xF#4 = a := BitVec.and_allOnes (x := a)

/-- Mask `0xFF0000000`: the iid selects. -/
theorem encodedAs_iid {p : Word} {build : Fields → Instr}
    (h : ∀ f : Fields, f.iid = (fields p).iid → haltPattern f = none → matchFields f = .ok (build f)) :
    EncodedAs p 0xFF0000000 build := by
  intro w hw hh
  have h1 := congrArg (fun w => (fields w).iid) hw
  simp only [fields_and] at h1
  rw [show (fields 0xFF0000000).iid = 0xFF#8 from by decide, byte_and_ones] at h1
  exact h _ h1 hh

/-- Mask `0xFF000000F`: the iid and x2 select. -/
theorem encodedAs_x2 {p : Word} {build : Fields → Instr}
    (h : ∀ f : Fields, f.iid = (fields p).iid → f.x2 = (fields p).x2 → haltPattern f = none →
      matchFields f = .ok (build f)) :
    EncodedAs p 0xFF000000F build := by
  intro w hw hh
  have h1 := congrArg (fun w => (fields w).iid) hw
  have h2 := congrArg (fun w => (fields w).x2) hw
  simp only [fields_and] at h1 h2
  rw [show (fields 0xFF000000F).iid = 0xFF#8 from by decide, byte_and_ones] at h1
  rw [show (fields 0xFF000000F).x2 = 0xF#4 from by decide, nibble_and_ones] at h2
  exact h _ h1 h2 hh

/-- Mask `0xFF0000F00`: the iid and u2 select. -/
theorem encodedAs_u2 {p : Word} {build : Fields → Instr}
    (h : ∀ f : Fields, f.iid = (fields p).iid → f.u2 = (fields p).u2 → haltPattern f = none →
      matchFields f = .ok (build f)) :
    EncodedAs p 0xFF0000F00 build := by
  intro w hw hh
  have h1 := congrArg (fun w => (fields w).iid) hw
  have h2 := congrArg (fun w => (fields w).u2) hw
  simp only [fields_and] at h1 h2
  rw [show (fields 0xFF0000F00).iid = 0xFF#8 from by decide, byte_and_ones] at h1
  rw [show (fields 0xFF0000F00).u2 = 0xF#4 from by decide, nibble_and_ones] at h2
  exact h _ h1 h2 hh

/-- Mask `0xFF0000FF0`: the iid, u2 and x1 select. -/
theorem encodedAs_u2_x1 {p : Word} {build : Fields → Instr}
    (h : ∀ f : Fields, f.iid = (fields p).iid → f.u2 = (fields p).u2 → f.x1 = (fields p).x1 → haltPattern f = none →
      matchFields f = .ok (build f)) :
    EncodedAs p 0xFF0000FF0 build := by
  intro w hw hh
  have h1 := congrArg (fun w => (fields w).iid) hw
  have h2 := congrArg (fun w => (fields w).u2) hw
  have h3 := congrArg (fun w => (fields w).x1) hw
  simp only [fields_and] at h1 h2 h3
  rw [show (fields 0xFF0000FF0).iid = 0xFF#8 from by decide, byte_and_ones] at h1
  rw [show (fields 0xFF0000FF0).u2 = 0xF#4 from by decide, nibble_and_ones] at h2
  rw [show (fields 0xFF0000FF0).x1 = 0xF#4 from by decide, nibble_and_ones] at h3
  exact h _ h1 h2 h3 hh

/-- The spec's `16*h + l` is the decoder's pair. -/
theorem sixteenths_eq_pair (h l : Nibble) : sixteenths h l = pair h l := by
  apply BitVec.eq_of_toNat_eq
  rw [pair_toNat, sixteenths, BitVec.toNat_ofNat]
  have := h.isLt
  have := l.isLt
  omega

end Sys2Proof.Machine
end

