-- ==== Sys2Proof/Laws/State.lean ====
section
/-!
SUPPORT. One lemma per field per update of the state, so that no proof unfolds a record update.
-/

namespace Sys2Proof.Machine.State

/-! ## setCells -/

@[simp] theorem setCells_cells (s : State) (m : Memory) : (s.setCells m).cells = m := rfl
@[simp] theorem setCells_pc (s : State) (m : Memory) : (s.setCells m).pc = s.pc := rfl
@[simp] theorem setCells_ff (s : State) (m : Memory) : (s.setCells m).ff = s.ff := rfl
@[simp] theorem setCells_sf (s : State) (m : Memory) : (s.setCells m).sf = s.sf := rfl
@[simp] theorem setCells_bf (s : State) (m : Memory) : (s.setCells m).bf = s.bf := rfl
@[simp] theorem setCells_fw (s : State) (m : Memory) : (s.setCells m).fw = s.fw := rfl
@[simp] theorem setCells_brk (s : State) (m : Memory) : (s.setCells m).brk = s.brk := rfl
@[simp] theorem setCells_stack (s : State) (m : Memory) : (s.setCells m).stack = s.stack := rfl
@[simp] theorem setCells_frame (s : State) (m : Memory) : (s.setCells m).frame = s.frame := rfl
@[simp] theorem setCells_run (s : State) (m : Memory) : (s.setCells m).run = s.run := rfl
@[simp] theorem setCells_hookEvents (s : State) (m : Memory) : (s.setCells m).hookEvents = s.hookEvents := rfl
@[simp] theorem setCells_devWrites (s : State) (m : Memory) : (s.setCells m).devWrites = s.devWrites := rfl
@[simp] theorem setCells_program (s : State) (m : Memory) : (s.setCells m).program = s.program := rfl
@[simp] theorem setCells_params (s : State) (m : Memory) : (s.setCells m).params = s.params := rfl
@[simp] theorem setCells_draws (s : State) (m : Memory) : (s.setCells m).draws = s.draws := rfl

/-! ## setPc -/

@[simp] theorem setPc_cells (s : State) (a : Word) : (s.setPc a).cells = s.cells := rfl
@[simp] theorem setPc_pc (s : State) (a : Word) : (s.setPc a).pc = a := rfl
@[simp] theorem setPc_ff (s : State) (a : Word) : (s.setPc a).ff = s.ff := rfl
@[simp] theorem setPc_sf (s : State) (a : Word) : (s.setPc a).sf = s.sf := rfl
@[simp] theorem setPc_bf (s : State) (a : Word) : (s.setPc a).bf = s.bf := rfl
@[simp] theorem setPc_fw (s : State) (a : Word) : (s.setPc a).fw = s.fw := rfl
@[simp] theorem setPc_brk (s : State) (a : Word) : (s.setPc a).brk = s.brk := rfl
@[simp] theorem setPc_stack (s : State) (a : Word) : (s.setPc a).stack = s.stack := rfl
@[simp] theorem setPc_frame (s : State) (a : Word) : (s.setPc a).frame = s.frame := rfl
@[simp] theorem setPc_run (s : State) (a : Word) : (s.setPc a).run = s.run := rfl
@[simp] theorem setPc_hookEvents (s : State) (a : Word) : (s.setPc a).hookEvents = s.hookEvents := rfl
@[simp] theorem setPc_devWrites (s : State) (a : Word) : (s.setPc a).devWrites = s.devWrites := rfl
@[simp] theorem setPc_program (s : State) (a : Word) : (s.setPc a).program = s.program := rfl
@[simp] theorem setPc_params (s : State) (a : Word) : (s.setPc a).params = s.params := rfl
@[simp] theorem setPc_draws (s : State) (a : Word) : (s.setPc a).draws = s.draws := rfl

/-! ## setBrk -/

@[simp] theorem setBrk_cells (s : State) (b : BreakMode) : (s.setBrk b).cells = s.cells := rfl
@[simp] theorem setBrk_pc (s : State) (b : BreakMode) : (s.setBrk b).pc = s.pc := rfl
@[simp] theorem setBrk_ff (s : State) (b : BreakMode) : (s.setBrk b).ff = s.ff := rfl
@[simp] theorem setBrk_sf (s : State) (b : BreakMode) : (s.setBrk b).sf = s.sf := rfl
@[simp] theorem setBrk_bf (s : State) (b : BreakMode) : (s.setBrk b).bf = s.bf := rfl
@[simp] theorem setBrk_fw (s : State) (b : BreakMode) : (s.setBrk b).fw = s.fw := rfl
@[simp] theorem setBrk_brk (s : State) (b : BreakMode) : (s.setBrk b).brk = b := rfl
@[simp] theorem setBrk_stack (s : State) (b : BreakMode) : (s.setBrk b).stack = s.stack := rfl
@[simp] theorem setBrk_frame (s : State) (b : BreakMode) : (s.setBrk b).frame = s.frame := rfl
@[simp] theorem setBrk_run (s : State) (b : BreakMode) : (s.setBrk b).run = s.run := rfl
@[simp] theorem setBrk_hookEvents (s : State) (b : BreakMode) : (s.setBrk b).hookEvents = s.hookEvents := rfl
@[simp] theorem setBrk_devWrites (s : State) (b : BreakMode) : (s.setBrk b).devWrites = s.devWrites := rfl
@[simp] theorem setBrk_program (s : State) (b : BreakMode) : (s.setBrk b).program = s.program := rfl
@[simp] theorem setBrk_params (s : State) (b : BreakMode) : (s.setBrk b).params = s.params := rfl
@[simp] theorem setBrk_draws (s : State) (b : BreakMode) : (s.setBrk b).draws = s.draws := rfl

/-! ## setStack -/

@[simp] theorem setStack_cells (s : State) (l : List Word) : (s.setStack l).cells = s.cells := rfl
@[simp] theorem setStack_pc (s : State) (l : List Word) : (s.setStack l).pc = s.pc := rfl
@[simp] theorem setStack_ff (s : State) (l : List Word) : (s.setStack l).ff = s.ff := rfl
@[simp] theorem setStack_sf (s : State) (l : List Word) : (s.setStack l).sf = s.sf := rfl
@[simp] theorem setStack_bf (s : State) (l : List Word) : (s.setStack l).bf = s.bf := rfl
@[simp] theorem setStack_fw (s : State) (l : List Word) : (s.setStack l).fw = s.fw := rfl
@[simp] theorem setStack_brk (s : State) (l : List Word) : (s.setStack l).brk = s.brk := rfl
@[simp] theorem setStack_stack (s : State) (l : List Word) : (s.setStack l).stack = l := rfl
@[simp] theorem setStack_frame (s : State) (l : List Word) : (s.setStack l).frame = s.frame := rfl
@[simp] theorem setStack_run (s : State) (l : List Word) : (s.setStack l).run = s.run := rfl
@[simp] theorem setStack_hookEvents (s : State) (l : List Word) : (s.setStack l).hookEvents = s.hookEvents := rfl
@[simp] theorem setStack_devWrites (s : State) (l : List Word) : (s.setStack l).devWrites = s.devWrites := rfl
@[simp] theorem setStack_program (s : State) (l : List Word) : (s.setStack l).program = s.program := rfl
@[simp] theorem setStack_params (s : State) (l : List Word) : (s.setStack l).params = s.params := rfl
@[simp] theorem setStack_draws (s : State) (l : List Word) : (s.setStack l).draws = s.draws := rfl

/-! ## setFrame -/

@[simp] theorem setFrame_cells (s : State) (f : Option Frame) : (s.setFrame f).cells = s.cells := rfl
@[simp] theorem setFrame_pc (s : State) (f : Option Frame) : (s.setFrame f).pc = s.pc := rfl
@[simp] theorem setFrame_ff (s : State) (f : Option Frame) : (s.setFrame f).ff = s.ff := rfl
@[simp] theorem setFrame_sf (s : State) (f : Option Frame) : (s.setFrame f).sf = s.sf := rfl
@[simp] theorem setFrame_bf (s : State) (f : Option Frame) : (s.setFrame f).bf = s.bf := rfl
@[simp] theorem setFrame_fw (s : State) (f : Option Frame) : (s.setFrame f).fw = s.fw := rfl
@[simp] theorem setFrame_brk (s : State) (f : Option Frame) : (s.setFrame f).brk = s.brk := rfl
@[simp] theorem setFrame_stack (s : State) (f : Option Frame) : (s.setFrame f).stack = s.stack := rfl
@[simp] theorem setFrame_frame (s : State) (f : Option Frame) : (s.setFrame f).frame = f := rfl
@[simp] theorem setFrame_run (s : State) (f : Option Frame) : (s.setFrame f).run = s.run := rfl
@[simp] theorem setFrame_hookEvents (s : State) (f : Option Frame) : (s.setFrame f).hookEvents = s.hookEvents := rfl
@[simp] theorem setFrame_devWrites (s : State) (f : Option Frame) : (s.setFrame f).devWrites = s.devWrites := rfl
@[simp] theorem setFrame_program (s : State) (f : Option Frame) : (s.setFrame f).program = s.program := rfl
@[simp] theorem setFrame_params (s : State) (f : Option Frame) : (s.setFrame f).params = s.params := rfl
@[simp] theorem setFrame_draws (s : State) (f : Option Frame) : (s.setFrame f).draws = s.draws := rfl

/-! ## setRun -/

@[simp] theorem setRun_cells (s : State) (r : Run) : (s.setRun r).cells = s.cells := rfl
@[simp] theorem setRun_pc (s : State) (r : Run) : (s.setRun r).pc = s.pc := rfl
@[simp] theorem setRun_ff (s : State) (r : Run) : (s.setRun r).ff = s.ff := rfl
@[simp] theorem setRun_sf (s : State) (r : Run) : (s.setRun r).sf = s.sf := rfl
@[simp] theorem setRun_bf (s : State) (r : Run) : (s.setRun r).bf = s.bf := rfl
@[simp] theorem setRun_fw (s : State) (r : Run) : (s.setRun r).fw = s.fw := rfl
@[simp] theorem setRun_brk (s : State) (r : Run) : (s.setRun r).brk = s.brk := rfl
@[simp] theorem setRun_stack (s : State) (r : Run) : (s.setRun r).stack = s.stack := rfl
@[simp] theorem setRun_frame (s : State) (r : Run) : (s.setRun r).frame = s.frame := rfl
@[simp] theorem setRun_run (s : State) (r : Run) : (s.setRun r).run = r := rfl
@[simp] theorem setRun_hookEvents (s : State) (r : Run) : (s.setRun r).hookEvents = s.hookEvents := rfl
@[simp] theorem setRun_devWrites (s : State) (r : Run) : (s.setRun r).devWrites = s.devWrites := rfl
@[simp] theorem setRun_program (s : State) (r : Run) : (s.setRun r).program = s.program := rfl
@[simp] theorem setRun_params (s : State) (r : Run) : (s.setRun r).params = s.params := rfl
@[simp] theorem setRun_draws (s : State) (r : Run) : (s.setRun r).draws = s.draws := rfl

/-! ## setHookEvents -/

@[simp] theorem setHookEvents_cells (s : State) (l : List Word) : (s.setHookEvents l).cells = s.cells := rfl
@[simp] theorem setHookEvents_pc (s : State) (l : List Word) : (s.setHookEvents l).pc = s.pc := rfl
@[simp] theorem setHookEvents_ff (s : State) (l : List Word) : (s.setHookEvents l).ff = s.ff := rfl
@[simp] theorem setHookEvents_sf (s : State) (l : List Word) : (s.setHookEvents l).sf = s.sf := rfl
@[simp] theorem setHookEvents_bf (s : State) (l : List Word) : (s.setHookEvents l).bf = s.bf := rfl
@[simp] theorem setHookEvents_fw (s : State) (l : List Word) : (s.setHookEvents l).fw = s.fw := rfl
@[simp] theorem setHookEvents_brk (s : State) (l : List Word) : (s.setHookEvents l).brk = s.brk := rfl
@[simp] theorem setHookEvents_stack (s : State) (l : List Word) : (s.setHookEvents l).stack = s.stack := rfl
@[simp] theorem setHookEvents_frame (s : State) (l : List Word) : (s.setHookEvents l).frame = s.frame := rfl
@[simp] theorem setHookEvents_run (s : State) (l : List Word) : (s.setHookEvents l).run = s.run := rfl
@[simp] theorem setHookEvents_hookEvents (s : State) (l : List Word) : (s.setHookEvents l).hookEvents = l := rfl
@[simp] theorem setHookEvents_devWrites (s : State) (l : List Word) : (s.setHookEvents l).devWrites = s.devWrites := rfl
@[simp] theorem setHookEvents_program (s : State) (l : List Word) : (s.setHookEvents l).program = s.program := rfl
@[simp] theorem setHookEvents_params (s : State) (l : List Word) : (s.setHookEvents l).params = s.params := rfl
@[simp] theorem setHookEvents_draws (s : State) (l : List Word) : (s.setHookEvents l).draws = s.draws := rfl

/-! ## setDevWrites -/

@[simp] theorem setDevWrites_cells (s : State) (l : List DevWrite) : (s.setDevWrites l).cells = s.cells := rfl
@[simp] theorem setDevWrites_pc (s : State) (l : List DevWrite) : (s.setDevWrites l).pc = s.pc := rfl
@[simp] theorem setDevWrites_ff (s : State) (l : List DevWrite) : (s.setDevWrites l).ff = s.ff := rfl
@[simp] theorem setDevWrites_sf (s : State) (l : List DevWrite) : (s.setDevWrites l).sf = s.sf := rfl
@[simp] theorem setDevWrites_bf (s : State) (l : List DevWrite) : (s.setDevWrites l).bf = s.bf := rfl
@[simp] theorem setDevWrites_fw (s : State) (l : List DevWrite) : (s.setDevWrites l).fw = s.fw := rfl
@[simp] theorem setDevWrites_brk (s : State) (l : List DevWrite) : (s.setDevWrites l).brk = s.brk := rfl
@[simp] theorem setDevWrites_stack (s : State) (l : List DevWrite) : (s.setDevWrites l).stack = s.stack := rfl
@[simp] theorem setDevWrites_frame (s : State) (l : List DevWrite) : (s.setDevWrites l).frame = s.frame := rfl
@[simp] theorem setDevWrites_run (s : State) (l : List DevWrite) : (s.setDevWrites l).run = s.run := rfl
@[simp] theorem setDevWrites_hookEvents (s : State) (l : List DevWrite) : (s.setDevWrites l).hookEvents = s.hookEvents := rfl
@[simp] theorem setDevWrites_devWrites (s : State) (l : List DevWrite) : (s.setDevWrites l).devWrites = l := rfl
@[simp] theorem setDevWrites_program (s : State) (l : List DevWrite) : (s.setDevWrites l).program = s.program := rfl
@[simp] theorem setDevWrites_params (s : State) (l : List DevWrite) : (s.setDevWrites l).params = s.params := rfl
@[simp] theorem setDevWrites_draws (s : State) (l : List DevWrite) : (s.setDevWrites l).draws = s.draws := rfl

/-! ## setDraws -/

@[simp] theorem setDraws_cells (s : State) (n : Nat) : (s.setDraws n).cells = s.cells := rfl
@[simp] theorem setDraws_pc (s : State) (n : Nat) : (s.setDraws n).pc = s.pc := rfl
@[simp] theorem setDraws_ff (s : State) (n : Nat) : (s.setDraws n).ff = s.ff := rfl
@[simp] theorem setDraws_sf (s : State) (n : Nat) : (s.setDraws n).sf = s.sf := rfl
@[simp] theorem setDraws_bf (s : State) (n : Nat) : (s.setDraws n).bf = s.bf := rfl
@[simp] theorem setDraws_fw (s : State) (n : Nat) : (s.setDraws n).fw = s.fw := rfl
@[simp] theorem setDraws_brk (s : State) (n : Nat) : (s.setDraws n).brk = s.brk := rfl
@[simp] theorem setDraws_stack (s : State) (n : Nat) : (s.setDraws n).stack = s.stack := rfl
@[simp] theorem setDraws_frame (s : State) (n : Nat) : (s.setDraws n).frame = s.frame := rfl
@[simp] theorem setDraws_run (s : State) (n : Nat) : (s.setDraws n).run = s.run := rfl
@[simp] theorem setDraws_hookEvents (s : State) (n : Nat) : (s.setDraws n).hookEvents = s.hookEvents := rfl
@[simp] theorem setDraws_devWrites (s : State) (n : Nat) : (s.setDraws n).devWrites = s.devWrites := rfl
@[simp] theorem setDraws_program (s : State) (n : Nat) : (s.setDraws n).program = s.program := rfl
@[simp] theorem setDraws_params (s : State) (n : Nat) : (s.setDraws n).params = s.params := rfl
@[simp] theorem setDraws_draws (s : State) (n : Nat) : (s.setDraws n).draws = n := rfl

/-! ## Derived reads -/

@[simp] theorem setCells_fetch (s : State) (m : Memory) (i : Nat) : (s.setCells m).fetch i = s.fetch i := rfl
@[simp] theorem setCells_hasRoom (s : State) (m : Memory) (n : Nat) : (s.setCells m).hasRoom n = s.hasRoom n := rfl
@[simp] theorem setPc_cell (s : State) (a : Word) (i : Nat) : (s.setPc a).cell i = s.cell i := rfl
@[simp] theorem setPc_fetch (s : State) (a : Word) (i : Nat) : (s.setPc a).fetch i = s.fetch i := rfl
@[simp] theorem setPc_hasRoom (s : State) (a : Word) (n : Nat) : (s.setPc a).hasRoom n = s.hasRoom n := rfl
@[simp] theorem setBrk_cell (s : State) (b : BreakMode) (i : Nat) : (s.setBrk b).cell i = s.cell i := rfl
@[simp] theorem setBrk_fetch (s : State) (b : BreakMode) (i : Nat) : (s.setBrk b).fetch i = s.fetch i := rfl
@[simp] theorem setBrk_hasRoom (s : State) (b : BreakMode) (n : Nat) : (s.setBrk b).hasRoom n = s.hasRoom n := rfl
@[simp] theorem setStack_cell (s : State) (l : List Word) (i : Nat) : (s.setStack l).cell i = s.cell i := rfl
@[simp] theorem setStack_fetch (s : State) (l : List Word) (i : Nat) : (s.setStack l).fetch i = s.fetch i := rfl
@[simp] theorem setFrame_cell (s : State) (f : Option Frame) (i : Nat) : (s.setFrame f).cell i = s.cell i := rfl
@[simp] theorem setFrame_fetch (s : State) (f : Option Frame) (i : Nat) : (s.setFrame f).fetch i = s.fetch i := rfl
@[simp] theorem setFrame_hasRoom (s : State) (f : Option Frame) (n : Nat) : (s.setFrame f).hasRoom n = s.hasRoom n := rfl
@[simp] theorem setRun_cell (s : State) (r : Run) (i : Nat) : (s.setRun r).cell i = s.cell i := rfl
@[simp] theorem setRun_fetch (s : State) (r : Run) (i : Nat) : (s.setRun r).fetch i = s.fetch i := rfl
@[simp] theorem setRun_hasRoom (s : State) (r : Run) (n : Nat) : (s.setRun r).hasRoom n = s.hasRoom n := rfl
@[simp] theorem setHookEvents_cell (s : State) (l : List Word) (i : Nat) : (s.setHookEvents l).cell i = s.cell i := rfl
@[simp] theorem setHookEvents_fetch (s : State) (l : List Word) (i : Nat) : (s.setHookEvents l).fetch i = s.fetch i := rfl
@[simp] theorem setHookEvents_hasRoom (s : State) (l : List Word) (n : Nat) : (s.setHookEvents l).hasRoom n = s.hasRoom n := rfl
@[simp] theorem setDevWrites_cell (s : State) (l : List DevWrite) (i : Nat) : (s.setDevWrites l).cell i = s.cell i := rfl
@[simp] theorem setDevWrites_fetch (s : State) (l : List DevWrite) (i : Nat) : (s.setDevWrites l).fetch i = s.fetch i := rfl
@[simp] theorem setDevWrites_hasRoom (s : State) (l : List DevWrite) (n : Nat) : (s.setDevWrites l).hasRoom n = s.hasRoom n := rfl
@[simp] theorem setDraws_cell (s : State) (n : Nat) (i : Nat) : (s.setDraws n).cell i = s.cell i := rfl
@[simp] theorem setDraws_fetch (s : State) (n : Nat) (i : Nat) : (s.setDraws n).fetch i = s.fetch i := rfl
@[simp] theorem setDraws_hasRoom (s : State) (d n : Nat) : (s.setDraws d).hasRoom n = s.hasRoom n := rfl

end Sys2Proof.Machine.State
end

