-- ==== Sys2Proof/Laws/Memory.lean ====
section
/-!
SUPPORT. The laws of the cell store: a read after a write, and the canonical form that every write keeps.
-/

namespace Sys2Proof.Machine

namespace Memory

@[simp] theorem read_nil (i : Nat) : Memory.read [] i = blankCell := rfl

theorem read_cons (j : Nat) (v : Word) (m : Memory) (i : Nat) :
    Memory.read ((j, v) :: m) i = if j = i then v else Memory.read m i := rfl

theorem read_filter (m : Memory) (i a : Nat) :
    Memory.read (m.filter (fun e => e.1 != i)) a = if a = i then blankCell else Memory.read m a := by
  induction m with
  | nil => simp
  | cons e m ih =>
    obtain ⟨j, w⟩ := e
    by_cases hj : j = i
    · subst hj; simp only [List.filter_cons, bne_self_eq_false, Bool.false_eq_true, if_false, ih, read_cons]
      split_ifs <;> simp_all
    · simp only [List.filter_cons, bne_iff_ne, ne_eq, hj, not_false_eq_true, if_true, read_cons, ih]
      split_ifs <;> simp_all

theorem read_insertEntry (m : Memory) (i a : Nat) (v : Word) (h : ∀ e ∈ m, e.1 ≠ i) :
    Memory.read (Memory.insertEntry i v m) a = if a = i then v else Memory.read m a := by
  induction m with
  | nil => simp [insertEntry, read_cons, eq_comm]
  | cons e m ih =>
    obtain ⟨j, w⟩ := e
    have hj : j ≠ i := h (j, w) List.mem_cons_self
    have hm := ih fun e he => h e (List.mem_cons_of_mem _ he)
    simp only [insertEntry]
    split_ifs with hlt ha ha
    · simp [read_cons, ha]
    · simp [read_cons, Ne.symm ha]
    · subst ha; simpa [read_cons, hj] using hm
    · simp [read_cons, hm, ha]

/-- A read after a write: the written cell holds the value, every other cell is as before. -/
@[simp] theorem read_write (m : Memory) (i : Nat) (v : Word) (a : Nat) :
    (m.write i v).read a = if a = i then v else m.read a := by
  unfold write
  split_ifs with hv ha ha
  · simp [read_filter, ha, hv]
  · simp [read_filter, ha]
  all_goals
    rw [read_insertEntry _ _ _ _ (by simp)]
    simp [read_filter, ha]

theorem sorted_cons (e : Nat × Word) (m : Memory) :
    Memory.sorted (e :: m) = true ↔ (∀ e' ∈ m, e.1 < e'.1) ∧ Memory.sorted m = true := by
  simp [sorted]

theorem sorted_filter (m : Memory) (p : Nat × Word → Bool) (h : Memory.sorted m = true) :
    Memory.sorted (m.filter p) = true := by
  induction m with
  | nil => exact h
  | cons e m ih =>
    rw [sorted_cons] at h
    rw [List.filter_cons]
    split_ifs
    · exact (sorted_cons _ _).2 ⟨fun e' he => h.1 e' (List.mem_filter.1 he).1, ih h.2⟩
    · exact ih h.2

theorem mem_insertEntry (i : Nat) (v : Word) (m : Memory) (e : Nat × Word) :
    e ∈ Memory.insertEntry i v m ↔ e = (i, v) ∨ e ∈ m := by
  induction m with
  | nil => simp [insertEntry]
  | cons d m ih =>
    obtain ⟨j, w⟩ := d
    simp only [insertEntry]
    split_ifs
    · simp
    · simp only [List.mem_cons, ih]; tauto

theorem sorted_insertEntry (i : Nat) (v : Word) (m : Memory) (h : Memory.sorted m = true) (hi : ∀ e ∈ m, e.1 ≠ i) :
    Memory.sorted (Memory.insertEntry i v m) = true := by
  induction m with
  | nil => simp [insertEntry, sorted]
  | cons d m ih =>
    obtain ⟨j, w⟩ := d
    have hs := (sorted_cons _ _).1 h
    simp only [insertEntry]
    split_ifs with hlt
    · refine (sorted_cons _ _).2 ⟨?_, h⟩
      intro e' he'
      rcases List.mem_cons.1 he' with rfl | he'
      · exact hlt
      · exact lt_trans hlt (hs.1 e' he')
    · have hji : j < i := lt_of_le_of_ne (not_lt.1 hlt) (hi (j, w) List.mem_cons_self)
      refine (sorted_cons _ _).2 ⟨?_, ih hs.2 (fun e he => hi e (by simp [he]))⟩
      intro e' he'
      rcases (mem_insertEntry _ _ _ _).1 he' with rfl | he'
      · exact hji
      · exact hs.1 e' he'

/-- What a store lists after a write: the old entries of other cells, and the new one unless it is blank. -/
theorem mem_write (m : Memory) (i : Nat) (v : Word) (e : Nat × Word) :
    e ∈ m.write i v ↔ (e ∈ m ∧ e.1 ≠ i) ∨ (v ≠ blankCell ∧ e = (i, v)) := by
  unfold write
  split_ifs with hv
  · simp [hv]
  · rw [mem_insertEntry]; simp [hv]; tauto

/-- A write keeps the canonical form. -/
theorem wf_write (m : Memory) (i : Nat) (v : Word) (h : m.wf = true) : (m.write i v).wf = true := by
  simp only [wf, Bool.and_eq_true, List.all_eq_true, bne_iff_ne, ne_eq] at h ⊢
  refine ⟨?_, ?_⟩
  · unfold write
    split_ifs
    · exact sorted_filter _ _ h.1
    · exact sorted_insertEntry _ _ _ (sorted_filter _ _ h.1) (by simp)
  · intro e he
    rcases (mem_write _ _ _ _).1 he with ⟨he, -⟩ | ⟨hv, rfl⟩
    · exact h.2 e he
    · exact hv

/-- A write inside a bound keeps the store inside the bound. -/
theorem write_in_range (m : Memory) (i n : Nat) (v : Word) (h : ∀ e ∈ m, e.1 < n) (hi : i < n) :
    ∀ e ∈ m.write i v, e.1 < n := by
  intro e he
  rcases (mem_write _ _ _ _).1 he with ⟨he, -⟩ | ⟨-, rfl⟩
  · exact h e he
  · exact hi

/-- The empty store is in canonical form. -/
theorem wf_nil : Memory.wf [] = true := rfl

end Memory

@[simp] theorem State.setCells_cell (s : State) (m : Memory) (i : Nat) : (s.setCells m).cell i = m.read i := rfl

theorem State.cell_eq (s : State) (i : Nat) : s.cell i = s.cells.read i := rfl

end Sys2Proof.Machine
end

