-- ==== Sys2Proof/Laws/Ops.lean ====
section
/-!
SUPPORT. What each shared operation can answer, said once. `Answers P F r` says that `r` is a next state with `P` or a fault
with `F`; each operation has one lemma that turns a claim about its answer into claims about what follows it.
-/

namespace Sys2Proof.Machine

/-- `r` is a next state that meets `P`, or a fault that meets `F`; it is no refusal. -/
def Answers (P : State → Prop) (F : Fault → Prop) : Result → Prop
  | .next t => P t
  | .fault f => F f
  | .refused _ => False

section
variable {P : State → Prop} {F : Fault → Prop}

@[simp] theorem answers_next (t : State) : Answers P F (.next t) ↔ P t := Iff.rfl

@[simp] theorem answers_fault (f : Fault) : Answers P F (.fault f) ↔ F f := Iff.rfl

@[simp] theorem answers_refused (q : Refusal) : Answers P F (.refused q) ↔ False := Iff.rfl

theorem Answers.next {r : Result} {t : State} (h : Answers P F r) (hr : r = .next t) : P t := by
  subst hr; exact h

theorem Answers.fault {r : Result} {f : Fault} (h : Answers P F r) (hr : r = .fault f) : F f := by
  subst hr; exact h

theorem Answers.mono {P' : State → Prop} {F' : Fault → Prop} {r : Result} (h : Answers P F r)
    (hP : ∀ t, P t → P' t) (hF : ∀ f, F f → F' f) : Answers P' F' r := by
  cases r with
  | next t => exact hP t h
  | fault f => exact hF f h
  | refused q => exact h

/-! ## Ends of a rule -/

@[simp] theorem answers_raiseHalt (code : Nat) (msg : Option String) (s : State) :
    Answers P F (raiseHalt code msg s) ↔ P (s.setRun (.halted code msg)) := Iff.rfl

@[simp] theorem answers_raiseHaltFor (cause : HaltCause) (code : Nat) (s : State) :
    Answers P F (raiseHaltFor cause code s) ↔ P (s.setRun (.halted code (Config.haltMessage cause s.pc))) := Iff.rfl

@[simp] theorem answers_advance (s : State) : Answers P F (advance s) ↔ P (s.setPc (s.pc + 1)) := Iff.rfl

@[simp] theorem answers_advancePast (n : Nat) (s : State) :
    Answers P F (advancePast n s) ↔ P (s.setPc (s.pc + 1 + BitVec.ofNat 64 n)) := Iff.rfl

@[simp] theorem answers_jumpTo (a : Word) (s : State) : Answers P F (jumpTo a s) ↔ P (s.setPc a) := Iff.rfl

@[simp] theorem answers_haltOutOfRange (s : State) :
    Answers P F (haltOutOfRange s) ↔
      P (s.setRun (.halted Config.oorHaltCode (Config.haltMessage .cellRange s.pc))) := Iff.rfl

/-! ## Cells, stack, draws -/

theorem answers_ite (c : Prop) [Decidable c] (a b : Result) :
    Answers P F (if c then a else b) ↔ (c → Answers P F a) ∧ (¬c → Answers P F b) := by
  split_ifs <;> simp_all

@[simp] theorem answers_readCell (i : Nat) (s : State) (k : Word → Result) :
    Answers P F (readCell i s k) ↔
      (i < s.params.memCells → Answers P F (k (s.cell i))) ∧
      (¬i < s.params.memCells → P (s.setRun (.halted Config.oorHaltCode (Config.haltMessage .cellRange s.pc)))) := by
  rw [readCell, answers_ite]; simp

@[simp] theorem answers_writeCell (i : Nat) (v : Word) (s : State) (k : State → Result) :
    Answers P F (writeCell i v s k) ↔
      (i < s.params.memCells → Answers P F (k (s.setCells (s.cells.write i v)))) ∧
      (¬i < s.params.memCells → P (s.setRun (.halted Config.oorHaltCode (Config.haltMessage .cellRange s.pc)))) := by
  rw [writeCell, answers_ite]; simp

@[simp] theorem answers_push (v : Word) (s : State) (k : State → Result) :
    Answers P F (push v s k) ↔
      (s.hasRoom 1 = true → Answers P F (k (s.setStack (v :: s.stack)))) ∧
      (¬s.hasRoom 1 = true → F .stackOverflow) := by
  rw [push, answers_ite]; simp

theorem answers_pop (s : State) (k : Word → State → Result) :
    Answers P F (pop s k) ↔
      (s.stack = [] → F .stackUnderflow) ∧ (∀ v rest, s.stack = v :: rest → Answers P F (k v (s.setStack rest))) := by
  unfold pop
  cases h : s.stack with
  | nil => simp
  | cons v rest =>
    simp only [reduceCtorEq, false_implies, true_and, List.cons.injEq]
    exact ⟨fun hk v' rest' e => by rw [← e.1, ← e.2]; exact hk, fun hk => hk v rest ⟨rfl, rfl⟩⟩

@[simp] theorem answers_dest (i : Nat) (v : Word) (s : State) :
    Answers P F (dest i v s) ↔
      (s.sf = true → (s.hasRoom 1 = true → P ((s.setStack (v :: s.stack)).setPc (s.pc + 1))) ∧
        (¬s.hasRoom 1 = true → F .stackOverflow)) ∧
      (¬s.sf = true →
        (i < s.params.memCells → P ((s.setCells (s.cells.write i v)).setPc (s.pc + 1))) ∧
        (¬i < s.params.memCells →
          P (s.setRun (.halted Config.oorHaltCode (Config.haltMessage .cellRange s.pc))))) := by
  rw [dest, answers_ite]; simp

theorem answers_settleFloat (r : Option F32) (s : State) (k : Word → State → Result) :
    Answers P F (settleFloat r s k) ↔
      (∀ f, r = some f → Answers P F (k (box f) s)) ∧
      (r = none → Answers P F (k (box (nanPattern s.draws)) (s.setDraws (s.draws + 1)))) := by
  cases r <;> simp [settleFloat, State.drawn]

/-! ## The stream and the host -/

theorem answers_fetchInside (a : Nat) (s : State) (k : Word → Result) :
    Answers P F (fetchInside a s k) ↔
      (∀ w, s.fetch a = some w → Answers P F (k w)) ∧
      (s.fetch a = none →
        P (s.setRun (.halted streamExhaustedCode (Config.haltMessage .streamExhausted s.pc)))) := by
  unfold fetchInside
  cases s.fetch a <;> simp

@[simp] theorem answers_findDevice (id : Nibble) (s : State) (k : Result) :
    Answers P F (findDevice id s k) ↔
      (id ∈ s.params.devices → Answers P F k) ∧
      (¬id ∈ s.params.devices →
        P (s.setRun (.halted Config.deviceNotFoundCode (Config.haltMessage .deviceNotFound s.pc)))) := by
  rw [findDevice, answers_ite]; simp

@[simp] theorem answers_requireFloatMode (s : State) (k : Result) :
    Answers P F (requireFloatMode s k) ↔
      (s.ff = true → Answers P F k) ∧
      (¬s.ff = true → P (s.setRun (.halted floatCode (Config.haltMessage .floatModeRequired s.pc)))) := by
  rw [requireFloatMode, answers_ite]; simp

@[simp] theorem answers_requireIntegerMode (s : State) (k : Result) :
    Answers P F (requireIntegerMode s k) ↔
      (s.ff = true → F .bitwiseInFloatMode) ∧ (¬s.ff = true → Answers P F k) := by
  rw [requireIntegerMode, answers_ite]; simp

/-- The bus writes of a text: one record per byte, in order, and nothing else changes. -/
theorem writeDeviceText_eq (id port : Nibble) (text : List Byte) (s : State) :
    writeDeviceText id port text s =
      s.setDevWrites (s.devWrites ++
        text.map fun c => { device := id, port := port, value := BitVec.zeroExtend 64 c }) := by
  induction text generalizing s with
  | nil => simp [writeDeviceText, State.setDevWrites]
  | cons c text ih => simp [writeDeviceText, ih, writeDevice, State.setDevWrites]

/-! ## The loops -/

/-- Room for `n` more values, as a bound on the length. -/
theorem hasRoom_iff (s : State) (n : Nat) :
    s.hasRoom n = true ↔ ∀ d, s.params.stackDepth = some d → s.stack.length + n ≤ d := by
  unfold State.hasRoom
  cases s.params.stackDepth <;> simp

/-- Room after a push is room for one more before it. -/
@[simp] theorem hasRoom_setStack_cons (s : State) (v : Word) (n : Nat) :
    (s.setStack (v :: s.stack)).hasRoom n = s.hasRoom (n + 1) := by
  rw [Bool.eq_iff_iff, hasRoom_iff, hasRoom_iff]
  simp only [State.setStack_params, State.setStack_stack, List.length_cons, Nat.add_assoc, Nat.add_comm 1]

/-- Room for more is room for fewer. -/
theorem hasRoom_of_le (s : State) {m n : Nat} (h : s.hasRoom n = true) (hmn : m ≤ n) : s.hasRoom m = true := by
  rw [hasRoom_iff] at h ⊢
  exact fun d hd => le_trans (Nat.add_le_add_left hmn _) (h d hd)

/-- `pushWords` answers what follows it answers with some values pushed, or halts with some pushed, or overflows at a word
that the stream holds. -/
theorem answers_pushWords (n a : Nat) (s : State) (k : State → Result)
    (hk : ∀ l, (l ≠ [] → s.hasRoom l.length = true) → Answers P F (k (s.setStack (l ++ s.stack))))
    (hP : ∀ l, (l ≠ [] → s.hasRoom l.length = true) →
      P ((s.setStack (l ++ s.stack)).setRun (.halted streamExhaustedCode (Config.haltMessage .streamExhausted s.pc))))
    (hF : ∀ m < n, a + m < s.program.length → s.hasRoom (m + 1) = false → F .stackOverflow) :
    Answers P F (pushWords n a s k) := by
  induction n generalizing a s with
  | zero => simpa [pushWords, State.setStack] using hk [] (by simp)
  | succ n ih =>
    rw [pushWords, answers_fetchInside]
    refine ⟨fun w hw => ?_, fun _ => by simpa [State.setStack] using hP [] (by simp)⟩
    have ha : a < s.program.length := (List.getElem?_eq_some_iff.1 hw).1
    rw [answers_push]
    refine ⟨fun hroom => ?_, fun h => hF 0 (by omega) (by simpa using ha) (by simpa using h)⟩
    have room : ∀ l : List Word, (l ≠ [] → (s.setStack (w :: s.stack)).hasRoom l.length = true) →
        s.hasRoom (l ++ [w]).length = true := by
      intro l hl
      rw [List.length_append, List.length_singleton]
      cases l with
      | nil => exact hroom
      | cons v l => simpa using hl (by simp)
    refine ih _ _ (fun l hl => ?_) (fun l hl => ?_) 
      (fun m hm hp hr => hF (m + 1) (by omega) (by simp at hp; omega) (by simpa using hr))
    · simpa [State.setStack] using hk (l ++ [w]) fun _ => room l hl
    · simpa [State.setStack] using hP (l ++ [w]) fun _ => room l hl

/-- What `readDescriptors` changes is the frame, which it keeps present with its count and its number of slots; it faults at
a descriptor with an illegal tag, or with a legal tag and an illegal slot. -/
theorem answers_readDescriptors (count n a : Nat) (s : State) (k : State → Result) (f : Frame) (hf : s.frame = some f)
    (hk : ∀ slots, slots.length = f.slots.length →
      Answers P F (k (s.setFrame (some { f with slots := slots }))))
    (hP : ∀ slots, slots.length = f.slots.length →
      P ((s.setFrame (some { f with slots := slots })).setRun
        (.halted streamExhaustedCode (Config.haltMessage .streamExhausted s.pc))))
    (hF1 : ∀ j tag slot, j < n → s.fetch (a + 2 * j) = some tag → s.fetch (a + 1 + 2 * j) = some slot →
      tag ∉ s.params.typeTags → F .badTypeTag)
    (hF2 : ∀ j tag slot, j < n → s.fetch (a + 2 * j) = some tag → s.fetch (a + 1 + 2 * j) = some slot →
      tag ∈ s.params.typeTags → count ≤ slot.toNat → F .badSlot) :
    Answers P F (readDescriptors count n a s k) := by
  have self : ∀ (s : State) (f : Frame), s.frame = some f → s.setFrame (some { f with slots := f.slots }) = s := by
    intro s f h; cases s; simp_all [State.setFrame]
  induction n generalizing a s f with
  | zero => rw [readDescriptors, ← self s f hf]; exact hk f.slots rfl
  | succ n ih =>
    have hP0 := hP f.slots rfl
    rw [self s f hf] at hP0
    rw [readDescriptors, answers_fetchInside]
    refine ⟨fun tag ht => ?_, fun _ => hP0⟩
    rw [answers_fetchInside]
    refine ⟨fun slot hs => ?_, fun _ => hP0⟩
    rw [answers_ite, answers_ite]
    refine ⟨hF1 0 tag slot (by omega) ht hs, fun htag => ⟨hF2 0 tag slot (by omega) ht hs (not_not.1 htag), fun _ => ?_⟩⟩
    have later : ∀ j, a + 2 + 2 * j = a + 2 * (j + 1) ∧ a + 2 + 1 + 2 * j = a + 1 + 2 * (j + 1) := by omega
    refine ih _ (installSlot slot.toNat tag s) { f with slots := f.slots.set slot.toNat (some { tag := tag }) } ?_ ?_ ?_
      (fun j tg sl hj h1 h2 => hF1 (j + 1) tg sl (by omega) ((later j).1 ▸ h1) ((later j).2 ▸ h2))
      (fun j tg sl hj h1 h2 => hF2 (j + 1) tg sl (by omega) ((later j).1 ▸ h1) ((later j).2 ▸ h2))
    · simp [installSlot, hf]
    · intro slots hs
      simpa [installSlot, hf, State.setFrame] using hk slots (by simpa using hs)
    · intro slots hs
      simpa [installSlot, hf, State.setFrame] using hP slots (by simpa using hs)

end

end Sys2Proof.Machine
end

