-- ==== Sys2Proof/Laws/Exec.lean ====
section
/-!
SUPPORT. What executing any one instruction can change, said once for all instructions (`change_exec`): the state in the
middle of a rule (`Mid`), the next state (`Change`), and the operations that lead from the one to the other.
-/

namespace Sys2Proof.Machine

/-- A state in the middle of the rule of `i` begun in `s`: what the rule may have changed so far. -/
structure Mid (i : Instr) (s u : State) : Prop where
  cells : ∀ a, a ∉ cellsWritten i s → u.cell a = s.cell a
  cells_wf : s.cells.wf = true → u.cells.wf = true
  cells_in_range : (∀ e ∈ s.cells, e.1 < s.params.memCells) → ∀ e ∈ u.cells, e.1 < s.params.memCells
  pc : u.pc = s.pc
  ff : u.ff = s.ff
  sf : u.sf = s.sf
  bf : u.bf = s.bf
  fw : u.fw = s.fw
  brk : i ≠ .brkNext → i ≠ .brkAfter → u.brk = s.brk
  stack : (canPush i = false → (∀ rd, i ≠ .pull rd) → u.stack = s.stack) ∧
    ((∀ rd, i ≠ .pull rd) → ∃ pushed, u.stack = pushed ++ s.stack)
  depth : s.hasRoom 0 = true → u.hasRoom 0 = true
  frame : (∀ n, i ≠ .locals n) → i ≠ .prune → u.frame = s.frame
  frame_wf : (∀ f, s.frame = some f → f.WellFormed) → ∀ f, u.frame = some f → f.WellFormed
  run : u.run = s.run
  hookEvents : i ≠ .brkNow → u.hookEvents = s.hookEvents
  hookEvents_grow : ∃ new, u.hookEvents = s.hookEvents ++ new
  devWrites : (∀ d p v, i ≠ .wdevS d p v) → (∀ d p a b c e, i ≠ .wdevL d p a b c e) → (∀ d p v, i ≠ .emit d p v) →
    u.devWrites = s.devWrites
  devWrites_grow : ∃ new, u.devWrites = s.devWrites ++ new
  program : u.program = s.program
  params : u.params = s.params

/-- A next state of `i` executed in `s`: what may have changed, and the two ways a rule ends. -/
structure Change (i : Instr) (s t : State) : Prop where
  mid : ∃ u a r, Mid i s u ∧ t = (u.setPc a).setRun r
  ended : (t.run = s.run ∧ (canRedirect i = false → t.pc = s.pc + 1)) ∨
    (∃ code msg, t.run = .halted code msg ∧ isHaltCode code ∧ t.pc = s.pc)

section
variable {i : Instr} {s u : State}

/-! ## The beginning and the ends of a rule -/

theorem Mid.refl (i : Instr) (s : State) : Mid i s s where
  cells := fun _ _ => rfl
  cells_wf := id
  cells_in_range := id
  pc := rfl
  ff := rfl
  sf := rfl
  bf := rfl
  fw := rfl
  brk := fun _ _ => rfl
  stack := ⟨fun _ _ => rfl, fun _ => ⟨[], rfl⟩⟩
  depth := id
  frame := fun _ _ => rfl
  frame_wf := id
  run := rfl
  hookEvents := fun _ => rfl
  hookEvents_grow := ⟨[], (List.append_nil _).symm⟩
  devWrites := fun _ _ _ => rfl
  devWrites_grow := ⟨[], (List.append_nil _).symm⟩
  program := rfl
  params := rfl

theorem Mid.goes (h : Mid i s u) (a : Word) (ha : canRedirect i = false → a = s.pc + 1) : Change i s (u.setPc a) where
  mid := ⟨u, a, u.run, h, rfl⟩
  ended := .inl ⟨h.run, ha⟩

theorem Mid.advances (h : Mid i s u) : Change i s (u.setPc (u.pc + 1)) := h.goes _ fun _ => by rw [h.pc]

theorem Mid.halts (h : Mid i s u) {code : Nat} {msg : Option String} (hc : isHaltCode code) :
    Change i s (u.setRun (.halted code msg)) where
  mid := ⟨u, u.pc, .halted code msg, h, rfl⟩
  ended := .inr ⟨code, msg, rfl, hc, h.pc⟩

/-! ## The updates -/

theorem Mid.writes (h : Mid i s u) {c : Nat} (v : Word) (hc : c ∈ cellsWritten i s) (hr : c < u.params.memCells) :
    Mid i s (u.setCells (u.cells.write c v)) :=
  { h with
    cells := fun a ha => by
      have hac : a ≠ c := by rintro rfl; exact ha hc
      rw [State.setCells_cell, Memory.read_write, if_neg hac, ← State.cell_eq, h.cells a ha]
    cells_wf := fun hs => Memory.wf_write _ _ _ (h.cells_wf hs)
    cells_in_range := fun hs => Memory.write_in_range _ _ _ _ (h.cells_in_range hs) (h.params ▸ hr)
    depth := fun hs => h.depth hs }

theorem Mid.pushes (h : Mid i s u) (v : Word) (hc : canPush i = true) (hr : u.hasRoom 1 = true) :
    Mid i s (u.setStack (v :: u.stack)) :=
  { h with
    stack := ⟨fun h' _ => by simp [hc] at h', fun hp => by
      obtain ⟨l, hl⟩ := h.stack.2 hp
      exact ⟨v :: l, by simp [hl]⟩⟩
    depth := fun _ => by simpa using hr }

theorem Mid.draws (h : Mid i s u) (n : Nat) : Mid i s (u.setDraws n) := { h with depth := h.depth }

theorem Mid.writesDevice (h : Mid i s u) (l : List DevWrite)
    (hi : (∃ d p v, i = .wdevS d p v) ∨ (∃ d p a b c e, i = .wdevL d p a b c e) ∨ (∃ d p v, i = .emit d p v)) :
    Mid i s (u.setDevWrites (u.devWrites ++ l)) :=
  { h with
    depth := h.depth
    devWrites := fun h1 h2 h3 => by
      rcases hi with ⟨d, p, v, e⟩ | ⟨d, p, a, b, c, e', e⟩ | ⟨d, p, v, e⟩
      · exact absurd e (h1 d p v)
      · exact absurd e (h2 d p a b c e')
      · exact absurd e (h3 d p v)
    devWrites_grow := by
      obtain ⟨new, hn⟩ := h.devWrites_grow
      exact ⟨new ++ l, by simp [hn]⟩ }

/-! ## The operations -/

theorem isHaltCode_oor : isHaltCode Config.oorHaltCode := .inl (by simp)
theorem isHaltCode_device : isHaltCode Config.deviceNotFoundCode := .inl (by simp)

theorem Mid.reads (h : Mid i s u) (c : Nat) (k : Word → Result)
    (hk : ∀ v, Answers (Change i s) (faultCause i s) (k v)) :
    Answers (Change i s) (faultCause i s) (readCell c u k) := by
  rw [answers_readCell]
  exact ⟨fun _ => hk _, fun _ => h.halts isHaltCode_oor⟩

theorem Mid.writeCell (h : Mid i s u) {c : Nat} (v : Word) (hc : c ∈ cellsWritten i s) (k : State → Result)
    (hk : ∀ u', Mid i s u' → u'.stack = u.stack → Answers (Change i s) (faultCause i s) (k u')) :
    Answers (Change i s) (faultCause i s) (writeCell c v u k) := by
  rw [answers_writeCell]
  exact ⟨fun hr => hk _ (h.writes v hc hr) rfl, fun _ => h.halts isHaltCode_oor⟩

/-- A push that finds no room, as the `k`-th above the values the rule found, is a listed overflow. -/
theorem overflow_cause {k : Nat} (hp : u.params = s.params) (hl : u.stack.length = s.stack.length + k)
    (hk : k < valuesPushed i s) (h : ¬u.hasRoom 1 = true) : faultCause i s .stackOverflow := by
  refine ⟨by omega, Bool.eq_false_iff.2 fun hr => h ?_⟩
  rw [hasRoom_iff] at hr ⊢
  intro d hd
  have := hr d (hp ▸ hd)
  omega

theorem Mid.push (h : Mid i s u) (hl : u.stack = s.stack) (v : Word) (hc : canPush i = true) (hv : 0 < valuesPushed i s)
    (k : State → Result)
    (hk : ∀ u', Mid i s u' → u'.stack = v :: u.stack → Answers (Change i s) (faultCause i s) (k u')) :
    Answers (Change i s) (faultCause i s) (push v u k) := by
  rw [answers_push]
  exact ⟨fun hr => hk _ (h.pushes v hc hr) rfl, fun hr => overflow_cause h.params (k := 0) (by rw [hl]; rfl) hv hr⟩

theorem canPush_of_usesDest (h : usesDest i = true) : canPush i = true := by simp [canPush, h]

theorem Mid.dest (h : Mid i s u) (hl : u.stack = s.stack) {c : Nat} (v : Word) (hi : usesDest i = true) (hc : s.sf = false → c ∈ cellsWritten i s) :
    Answers (Change i s) (faultCause i s) (dest c v u) := by
  have hp := canPush_of_usesDest hi
  rw [answers_dest, h.sf]
  refine ⟨fun hs => ⟨fun hr => (h.pushes v hp hr).advances, fun hr =>
      overflow_cause h.params (k := 0) (by rw [hl]; rfl) (by simp [valuesPushed, hi, hs]) hr⟩,
    fun hs => ⟨fun hr => (h.writes v (hc (by simpa using hs)) hr).advances, fun _ => h.halts isHaltCode_oor⟩⟩

theorem Mid.settles (h : Mid i s u) (r : Option F32) (k : Word → State → Result)
    (hk : ∀ v u', Mid i s u' → u'.stack = u.stack → Answers (Change i s) (faultCause i s) (k v u')) :
    Answers (Change i s) (faultCause i s) (settleFloat r u k) := by
  rw [answers_settleFloat]
  exact ⟨fun _ _ => hk _ _ h rfl, fun _ => hk _ _ (h.draws _) rfl⟩

/-! ## The shared shapes -/

variable {rd ra rb : Nibble}

theorem change_intUnary (op : Word → Word) (hi : usesDest i = true) (hc : s.sf = false → rd.toNat ∈ cellsWritten i s) :
    Answers (Change i s) (faultCause i s) (intUnary op rd ra s) :=
  (Mid.refl i s).reads _ _ fun _ => (Mid.refl i s).dest rfl _ hi hc

theorem change_intBinary (op : Word → Word → Word) (hi : usesDest i = true)
    (hc : s.sf = false → rd.toNat ∈ cellsWritten i s) :
    Answers (Change i s) (faultCause i s) (intBinary op rd ra rb s) :=
  (Mid.refl i s).reads _ _ fun _ => (Mid.refl i s).reads _ _ fun _ => (Mid.refl i s).dest rfl _ hi hc

theorem change_floatUnary (op : F32 → Option F32) (hi : usesDest i = true)
    (hc : s.sf = false → rd.toNat ∈ cellsWritten i s) :
    Answers (Change i s) (faultCause i s) (floatUnary op rd ra s) :=
  (Mid.refl i s).reads _ _ fun _ => (Mid.refl i s).settles _ _ fun _ _ hu hl => hu.dest hl _ hi hc

theorem change_floatBinary (op : F32 → F32 → Option F32) (hi : usesDest i = true)
    (hc : s.sf = false → rd.toNat ∈ cellsWritten i s) :
    Answers (Change i s) (faultCause i s) (floatBinary op rd ra rb s) :=
  (Mid.refl i s).reads _ _ fun _ => (Mid.refl i s).reads _ _ fun _ => (Mid.refl i s).settles _ _ fun _ _ hu hl =>
    hu.dest hl _ hi hc

theorem isHaltCode_float : isHaltCode floatCode := .inl (by simp [floatCode])

theorem change_mathOp1 (fn : F32 → Option F32) (hi : usesDest i = true)
    (hc : s.sf = false → rd.toNat ∈ cellsWritten i s) :
    Answers (Change i s) (faultCause i s) (mathOp1 fn rd ra s) := by
  rw [mathOp1, answers_requireFloatMode]
  exact ⟨fun _ => change_floatUnary fn hi hc, fun _ => (Mid.refl i s).halts isHaltCode_float⟩

theorem change_mathOp2 (fn : F32 → F32 → Option F32) (hi : usesDest i = true)
    (hc : s.sf = false → rd.toNat ∈ cellsWritten i s) :
    Answers (Change i s) (faultCause i s) (mathOp2 fn rd ra rb s) := by
  rw [mathOp2, answers_requireFloatMode]
  exact ⟨fun _ => change_floatBinary fn hi hc, fun _ => (Mid.refl i s).halts isHaltCode_float⟩

theorem change_conditionalJump (test : JumpTest) (rt : Nibble) (hi : canRedirect i = true) :
    Answers (Change i s) (faultCause i s) (conditionalJump test rt ra rb s) := by
  refine (Mid.refl i s).reads _ _ fun _ => (Mid.refl i s).reads _ _ fun _ => (Mid.refl i s).reads _ _ fun _ => ?_
  rw [answers_ite]
  exact ⟨fun _ => (Mid.refl i s).goes _ fun h => by simp [hi] at h, fun _ => (Mid.refl i s).advances⟩

theorem change_bitwise (op : Word → Word → Word) (ca cb : Byte) (hi : i = .xor ca cb ∨ i = .or ca cb) :
    Answers (Change i s) (faultCause i s) (bitwise op ca cb s) := by
  have hu : usesDest i = true := by rcases hi with rfl | rfl <;> rfl
  have hc : s.sf = false → ca.toNat ∈ cellsWritten i s := by
    intro h; rcases hi with rfl | rfl <;> simp [cellsWritten, h]
  rw [bitwise, answers_requireIntegerMode]
  exact ⟨fun hf => ⟨⟨ca, cb, hi⟩, hf⟩, fun _ =>
    (Mid.refl i s).reads _ _ fun _ => (Mid.refl i s).reads _ _ fun _ => (Mid.refl i s).dest rfl _ hu hc⟩

end

/-! ## Every instruction -/

section
variable (s : State)

theorem change_div (rd ra rb : Nibble) :
    Answers (Change (.div rd ra rb) s) (faultCause (.div rd ra rb) s) (execDiv rd ra rb s) := by
  have hc : s.sf = false → rd.toNat ∈ cellsWritten (.div rd ra rb) s := fun h => by simp [cellsWritten, h]
  rw [execDiv, answers_ite]
  refine ⟨fun _ => change_floatBinary _ rfl hc, fun hf => ?_⟩
  rw [intDivide, answers_readCell]
  refine ⟨fun _ => ?_, fun _ => (Mid.refl _ s).halts isHaltCode_oor⟩
  rw [answers_readCell]
  refine ⟨fun _ => ?_, fun _ => (Mid.refl _ s).halts isHaltCode_oor⟩
  rw [answers_ite, answers_ite, answers_ite]
  refine ⟨fun _ => (Mid.refl _ s).halts (.inl (by simp [divisionByZeroCode])), fun _ =>
    ⟨fun hs => ⟨fun h => ?_, fun _ => (Mid.refl _ s).dest rfl _ rfl hc⟩, fun _ => (Mid.refl _ s).dest rfl _ rfl hc⟩⟩
  simp only [Bool.and_eq_true, decide_eq_true_eq] at h
  exact ⟨_, _, _, rfl, hs, by simpa using hf, (congrArg BitVec.toInt h.1).trans (by decide),
    (congrArg BitVec.toInt h.2).trans (by decide)⟩

theorem change_swap (ra rb : Nibble) :
    Answers (Change (.swap ra rb) s) (faultCause (.swap ra rb) s) (execSwap ra rb s) := by
  have h := Mid.refl (.swap ra rb) s
  rw [execSwap, answers_ite]
  refine ⟨fun _ => h.advances, fun _ => ?_⟩
  refine h.reads _ _ fun _ => h.reads _ _ fun _ => h.writeCell _ (by simp [cellsWritten, regIndex]) _ fun u hu _ => ?_
  refine hu.reads _ _ fun _ => hu.reads _ _ fun _ => hu.writeCell _ (by simp [cellsWritten, regIndex]) _ fun v hv _ => ?_
  exact hv.reads _ _ fun _ => hv.reads _ _ fun _ => hv.writeCell _ (by simp [cellsWritten, regIndex]) _ fun w hw _ =>
    hw.advances

theorem change_pull (rd : Nibble) : Answers (Change (.pull rd) s) (faultCause (.pull rd) s) (execPull rd s) := by
  rw [execPull, answers_pop]
  refine ⟨fun h => ⟨⟨rd, rfl⟩, h⟩, fun v rest hs => ?_⟩
  have h : Mid (.pull rd) s (s.setStack rest) :=
    { Mid.refl (.pull rd) s with
      stack := ⟨fun _ h => absurd rfl (h rd), fun h => absurd rfl (h rd)⟩
      depth := fun hd => by
        rw [hasRoom_iff] at hd ⊢
        exact fun d hd' => by have := hd d hd'; rw [hs] at this; simp at this ⊢; omega }
  exact h.writeCell _ (by simp [cellsWritten, regIndex]) _ fun u hu _ => hu.advances

theorem change_orb (n : Nibble) : Answers (Change (.orb n) s) (faultCause (.orb n) s) (execOrb n s) := by
  have h : ∀ l : List Word, (l ≠ [] → s.hasRoom l.length = true) → Mid (.orb n) s (s.setStack (l ++ s.stack)) := by
    intro l hl
    refine { Mid.refl (.orb n) s with
      stack := ⟨fun h => by simp [canPush, usesDest] at h, fun _ => ⟨l, rfl⟩⟩
      depth := fun hd => ?_ }
    rw [hasRoom_iff] at hd ⊢
    intro d hd'
    by_cases hl' : l = []
    · simpa [hl'] using hd d hd'
    · have := (hasRoom_iff _ _).1 (hl hl') d hd'
      simp; omega
  refine answers_pushWords _ _ _ _ (fun l hl => (h l hl).goes _ fun h => by simp [canRedirect] at h)
    (fun l hl => (h l hl).halts (.inl (by simp [streamExhaustedCode])))
    (fun m hm hp hr => ?_)
  have hv : m < valuesPushed (.orb n) s := by
    simp only [valuesPushed, usesDest, Bool.false_eq_true, if_false, countOf] at hm ⊢
    omega
  exact ⟨by omega, Bool.eq_false_iff.2 fun h => by rw [hasRoom_of_le s h hv] at hr; cases hr⟩

theorem change_sig (rd : Nibble) : Answers (Change (.sig rd) s) (faultCause (.sig rd) s) (execSig rd s) := by
  have h := Mid.refl (.sig rd) s
  have halt : isHaltCode streamExhaustedCode := .inl (by simp [streamExhaustedCode])
  have hc : ∀ c, c = rd.toNat ∨ c = rd.toNat + 1 → c ∈ cellsWritten (.sig rd) s := by simp [cellsWritten]
  refine h.writeCell _ (hc _ (.inl rfl)) _ fun u1 h1 e1 => ?_
  rw [answers_push]
  refine ⟨fun hr => ?_, fun hr => overflow_cause (k := 0) h1.params (by rw [e1]; rfl) (by simp [valuesPushed, usesDest]) hr⟩
  rw [answers_push]
  refine ⟨fun hr2 => ?_, fun hr => overflow_cause (k := 1) (u := u1.setStack (u1.pc :: u1.stack)) h1.params
    (by simp [e1]) (by simp [valuesPushed, usesDest]) hr⟩
  rw [answers_pop]
  refine ⟨fun h => by simp at h, fun v rest hv => ?_⟩
  simp only [State.setStack_stack, List.cons.injEq] at hv
  obtain ⟨rfl, rfl⟩ := hv
  have h2 : Mid (.sig rd) s ((u1.setStack (u1.pc :: u1.stack))) := h1.pushes _ rfl hr
  show Answers _ _ (match scanForRet _ _ with | none => raiseHaltFor _ _ (u1.setStack (u1.pc :: u1.stack)) | some a => _)
  split
  · exact h2.halts halt
  · rw [answers_pop]
    refine ⟨fun h => by simp at h, fun v rest hv => ?_⟩
    simp only [State.setStack_stack, List.cons.injEq] at hv
    obtain ⟨rfl, rfl⟩ := hv
    have h3 : Mid (.sig rd) s (u1.setStack u1.stack) := h1
    exact h3.writeCell _ (hc _ (.inr rfl)) _ fun u4 h4 _ => h4.goes _ fun h => by simp [canRedirect] at h

theorem change_xcall (rs : Nibble) : Answers (Change (.xcall rs) s) (faultCause (.xcall rs) s) (execXcall rs s) := by
  have h := Mid.refl (.xcall rs) s
  have hn : isHaltCode nativeCallCode := .inl (by simp [nativeCallCode])
  refine h.reads _ _ fun v => ?_
  split
  · exact h.halts (.inr ⟨_, rfl⟩)
  · rw [answers_ite]
    refine ⟨fun _ => h.halts hn, fun _ => ?_⟩
    split
    · exact (h.draws _).halts hn
    · rw [answers_ite]
      have hv : 0 < valuesPushed (.xcall rs) s := by simp [valuesPushed, usesDest]
      exact ⟨fun _ => (h.draws (s.draws + 1)).push rfl _ rfl hv advance fun u hu _ => hu.advances, fun _ => (h.draws _).advances⟩

theorem change_locals (n : Nibble) : Answers (Change (.locals n) s) (faultCause (.locals n) s) (execLocals n s) := by
  have hn : n.toNat ≤ 15 := by have := n.isLt; omega
  have h : ∀ slots : List (Option Placeholder), slots.length = n.toNat →
      Mid (.locals n) s (s.setFrame (some ⟨n.toNat, slots, []⟩)) := fun slots hs =>
    { Mid.refl (.locals n) s with
      frame := fun h => absurd rfl (h n)
      frame_wf := fun _ f hf => by cases hf; exact ⟨hs, hn⟩ }
  have second : ∀ k, s.pc.toNat + 1 + 1 + 2 * k = s.pc.toNat + 2 + 2 * k := by omega
  refine answers_readDescriptors _ _ _ _ _ (freshFrame n.toNat) rfl (fun slots hs => ?_) (fun slots hs => ?_)
    (fun k tag slot hk h1 h2 ht => ⟨n, k, tag, slot, rfl, hk, ⟨h1, second k ▸ h2⟩, ht⟩)
    (fun k tag slot hk h1 h2 ht hs => ⟨n, k, tag, slot, rfl, hk, ⟨h1, second k ▸ h2⟩, ht, hs⟩)
  · exact (h slots (by simpa [freshFrame] using hs)).goes _ fun h => by simp [canRedirect] at h
  · exact (h slots (by simpa [freshFrame] using hs)).halts (.inl (by simp [streamExhaustedCode]))

theorem change_prune : Answers (Change .prune s) (faultCause .prune s) (execPrune s) := by
  unfold execPrune
  split
  · exact ⟨rfl, by assumption⟩
  · exact Mid.advances (u := s.setFrame none)
      { Mid.refl .prune s with frame := fun _ h => absurd rfl h, frame_wf := fun _ f hf => by cases hf }

/-- What executing an instruction can do: a next state that changes what the instruction may change, or a listed fault. -/
theorem change_exec (i : Instr) : Answers (Change i s) (faultCause i s) (exec i s) := by
  cases i with
  | haltF => exact (Mid.refl _ s).halts (.inl (by simp))
  | halt0 => exact (Mid.refl _ s).halts (.inl (by simp))
  | halt1 => exact (Mid.refl _ s).halts (.inl (by simp))
  | nop => exact (Mid.refl _ s).advances
  | ldi rd imm => exact (Mid.refl _ s).writeCell _ (by simp [cellsWritten, regIndex]) _ fun u hu _ => hu.advances
  | ldiM c imm => exact (Mid.refl _ s).writeCell _ (by simp [cellsWritten, pairIndex]) _ fun u hu _ => hu.advances
  | swap ra rb => exact change_swap s ra rb
  | wdevS d p rv =>
    refine (answers_findDevice _ _ _).2 ⟨fun _ => ?_, fun _ => (Mid.refl _ s).halts isHaltCode_device⟩
    exact (Mid.refl _ s).reads _ _ fun _ => ((Mid.refl _ s).writesDevice _ (.inl ⟨_, _, _, rfl⟩)).advances
  | wdevL d p a b c e =>
    refine (answers_findDevice _ _ _).2 ⟨fun _ => ?_, fun _ => (Mid.refl _ s).halts isHaltCode_device⟩
    exact ((Mid.refl _ s).writesDevice _ (.inr (.inl ⟨_, _, _, _, _, _, rfl⟩))).advances
  | emit d p rv =>
    refine (answers_findDevice _ _ _).2 ⟨fun _ => ?_, fun _ => (Mid.refl _ s).halts isHaltCode_device⟩
    refine (Mid.refl _ s).reads _ _ fun _ => ?_
    rw [writeDeviceText_eq]
    exact ((Mid.refl _ s).writesDevice _ (.inr (.inr ⟨_, _, _, rfl⟩))).advances
  | pcap rd => exact (Mid.refl _ s).writeCell _ (by simp [cellsWritten, regIndex]) _ fun u hu _ => hu.advances
  | jumpT rt =>
    unfold exec execJumpT
    refine (Mid.refl (.jumpT rt) s).reads _ _ fun v => ?_
    exact (Mid.refl (.jumpT rt) s).goes v fun h => by simp [canRedirect] at h
  | jumpE rt ra rb => exact change_conditionalJump _ _ rfl
  | jumpG rt ra rb => exact change_conditionalJump _ _ rfl
  | jumpU rt ra rb => exact change_conditionalJump _ _ rfl
  | jumpY rt ra rb => exact change_conditionalJump _ _ rfl
  | orb n => exact change_orb s n
  | pull rd => exact change_pull s rd
  | rdev d p =>
    refine (answers_findDevice _ _ _).2 ⟨fun _ => ?_, fun _ => (Mid.refl _ s).halts isHaltCode_device⟩
    have hv : 0 < valuesPushed (.rdev d p) s := by simp [valuesPushed, usesDest]
    exact ((Mid.refl (.rdev d p) s).draws (s.draws + 1)).push rfl _ rfl hv advance fun u hu _ => hu.advances
  | sig rd => exact change_sig s rd
  | ret => exact rfl
  | inc rd =>
    unfold exec execInc
    refine (Mid.refl (.inc rd) s).reads _ _ fun _ => ?_
    exact (Mid.refl _ s).writeCell _ (by simp [cellsWritten, regIndex]) _ fun u hu _ => hu.advances
  | dec rd =>
    unfold exec execDec
    refine (Mid.refl (.dec rd) s).reads _ _ fun _ => ?_
    exact (Mid.refl _ s).writeCell _ (by simp [cellsWritten, regIndex]) _ fun u hu _ => hu.advances
  | dup src dst =>
    unfold exec execDup
    refine (Mid.refl (.dup src dst) s).reads _ _ fun _ => ?_
    exact (Mid.refl _ s).writeCell _ (by simp [cellsWritten, pairIndex]) _ fun u hu _ => hu.advances
  | ckft c =>
    refine (answers_ite _ _ _).2 ⟨fun _ => (Mid.refl _ s).reads _ _ fun _ => ?_, fun _ => (Mid.refl _ s).advances⟩
    exact (answers_ite _ _ _).2 ⟨fun _ => (Mid.refl _ s).advances, fun _ => (Mid.refl _ s).halts isHaltCode_float⟩
  | xor ca cb => exact change_bitwise _ _ _ (.inl rfl)
  | or ca cb => exact change_bitwise _ _ _ (.inr rfl)
  | brkNow =>
    exact Mid.advances (u := hook s.pc s)
      { Mid.refl .brkNow s with hookEvents := fun h => absurd rfl h, hookEvents_grow := ⟨[s.pc], rfl⟩, depth := id }
  | brkNext =>
    exact Mid.advances (u := s.setBrk .afterThisStep) { Mid.refl .brkNext s with brk := fun h => absurd rfl h, depth := id }
  | brkAfter =>
    exact Mid.advances (u := s.setBrk .armedDeferred) { Mid.refl .brkAfter s with brk := fun _ h => absurd rfl h, depth := id }
  | add rd ra rb | sub rd ra rb | mul rd ra rb | pow rd ra rb =>
    exact (answers_ite _ _ _).2 ⟨fun _ => change_floatBinary _ rfl (fun h => by simp [cellsWritten, h]),
      fun _ => change_intBinary _ rfl (fun h => by simp [cellsWritten, h])⟩
  | div rd ra rb => exact change_div s rd ra rb
  | sqrt rd ra =>
    exact (answers_ite _ _ _).2 ⟨fun _ => change_floatUnary _ rfl (fun h => by simp [cellsWritten, h]),
      fun _ => change_intUnary _ rfl (fun h => by simp [cellsWritten, h])⟩
  | xcall rs => exact change_xcall s rs
  | prune => exact change_prune s
  | locals n => exact change_locals s n
  | abs rd ra | sin rd ra | cos rd ra | tan rd ra | asin rd ra | acos rd ra | atan rd ra | sinh rd ra | cosh rd ra
  | tanh rd ra | asinh rd ra | acosh rd ra | atanh rd ra | ceiling rd ra | floor rd ra | truncate rd ra | log rd ra
  | log10 rd ra | exp rd ra | cbrt rd ra | bitinc rd ra | bitdec rd ra =>
    exact change_mathOp1 _ rfl (fun h => by simp [cellsWritten, h])
  | atan2 rd ra rb | min rd ra rb | max rd ra rb =>
    exact change_mathOp2 _ rfl (fun h => by simp [cellsWritten, h])

end

end Sys2Proof.Machine
end

