-- ==== Sys2Proof/Laws/Float.lean ====
section
/-!
SUPPORT. The laws of binary32: the parts of a pattern, the magnitudes of data, and that `roundSigned` rounds correctly.
-/

namespace Sys2Proof.Machine

/-! ## The parts of a pattern -/

theorem toNat_withSign (negative : Bool) {code : Nat} (h : code < 2 ^ 31) :
    (withSign negative code).toNat = (if negative then 2 ^ 31 else 0) + code := by
  unfold withSign
  cases negative <;> simp <;> omega

@[simp] theorem magnitudeCode_withSign (negative : Bool) {code : Nat} (h : code < 2 ^ 31) :
    magnitudeCode (withSign negative code) = code := by
  rw [magnitudeCode, toNat_withSign _ h]
  cases negative <;> simp <;> omega

@[simp] theorem isNegative_withSign (negative : Bool) {code : Nat} (h : code < 2 ^ 31) :
    isNegative (withSign negative code) = negative := by
  rw [isNegative, toNat_withSign _ h]
  cases negative <;> simp <;> omega

/-- A pattern is its sign and its magnitude code. -/
theorem withSign_parts (a : F32) : withSign (isNegative a) (magnitudeCode a) = a := by
  have h : magnitudeCode a < 2 ^ 31 := Nat.mod_lt _ (by decide)
  have ha := a.isLt
  apply BitVec.eq_of_toNat_eq
  rw [toNat_withSign _ h]
  unfold magnitudeCode isNegative
  rcases (by omega : a.toNat / 2 ^ 31 = 0 ∨ a.toNat / 2 ^ 31 = 1) with hs | hs <;> rw [hs] <;> simp <;> omega

/-- Two patterns with the same sign and magnitude code are the same. -/
theorem eq_of_parts {a b : F32} (hs : isNegative a = isNegative b) (hm : magnitudeCode a = magnitudeCode b) : a = b := by
  rw [← withSign_parts a, ← withSign_parts b, hs, hm]

/-! ## Magnitudes -/

/-- The magnitude that a code stands for, in units. -/
def codeUnits (code : Nat) : Nat :=
  if code / 2 ^ 23 = 0 then code % 2 ^ 23 else (2 ^ 23 + code % 2 ^ 23) * 2 ^ (code / 2 ^ 23 - 1)

theorem units_eq_codeUnits (a : F32) : units a = codeUnits (magnitudeCode a) := rfl

/-- A significand `n` of at most 24 bits, or 2^24 itself, above `e` low bits. -/
theorem codeUnits_step {e n : Nat} (hn : n ≤ 2 ^ 24) (h : e = 0 ∨ 2 ^ 23 ≤ n) : codeUnits (e * 2 ^ 23 + n) = n * 2 ^ e := by
  have cases3 : (e = 0 ∧ n < 2 ^ 23) ∨ (2 ^ 23 ≤ n ∧ n < 2 ^ 24) ∨ n = 2 ^ 24 := by omega
  unfold codeUnits
  rcases cases3 with ⟨rfl, h1⟩ | ⟨h1, h2⟩ | rfl
  · rw [if_pos (by omega)]; omega
  · have hd : (e * 2 ^ 23 + n) / 2 ^ 23 = e + 1 := by omega
    have hm : (e * 2 ^ 23 + n) % 2 ^ 23 = n - 2 ^ 23 := by omega
    rw [hd, hm, if_neg (by omega), Nat.add_sub_cancel, Nat.add_sub_cancel' h1]
  · have hd : (e * 2 ^ 23 + 2 ^ 24) / 2 ^ 23 = e + 2 := by omega
    have hm : (e * 2 ^ 23 + 2 ^ 24) % 2 ^ 23 = 0 := by omega
    rw [hd, hm, if_neg (by omega), show e + 2 - 1 = e + 1 by omega, pow_succ 2 e]
    omega

/-- A magnitude is below 2^23 steps of 2^e units, or a whole number of such steps. -/
theorem codeUnits_small_or_multiple (e code : Nat) :
    codeUnits code < 2 ^ 23 * 2 ^ e ∨ ∃ m, codeUnits code = m * 2 ^ e := by
  have hm : code % 2 ^ 23 < 2 ^ 23 := Nat.mod_lt _ (by decide)
  unfold codeUnits
  split_ifs with h
  · left
    calc code % 2 ^ 23 < 2 ^ 23 * 1 := by omega
      _ ≤ 2 ^ 23 * 2 ^ e := Nat.mul_le_mul_left _ Nat.one_le_two_pow
  · by_cases hk : code / 2 ^ 23 ≤ e
    · left
      calc (2 ^ 23 + code % 2 ^ 23) * 2 ^ (code / 2 ^ 23 - 1)
          < (2 ^ 23 * 2) * 2 ^ (code / 2 ^ 23 - 1) := by apply Nat.mul_lt_mul_of_pos_right (by omega) (by positivity)
        _ = 2 ^ 23 * 2 ^ (code / 2 ^ 23 - 1 + 1) := by rw [pow_succ' 2 (code / 2 ^ 23 - 1), mul_assoc]
        _ ≤ 2 ^ 23 * 2 ^ e := Nat.mul_le_mul_left _ (Nat.pow_le_pow_right (by decide) (by omega))
    · right
      refine ⟨(2 ^ 23 + code % 2 ^ 23) * 2 ^ (code / 2 ^ 23 - 1 - e), ?_⟩
      rw [mul_assoc, ← pow_add, Nat.sub_add_cancel (by omega)]

/-! ## Rounding to a whole number -/

/-- The rounded quotient is within half a divisor, and even where it is exactly half. -/
theorem divNearestEven_half (num : Nat) {den : Nat} (hd : 0 < den) :
    2 * ((num : Int) - divNearestEven num den * den).natAbs ≤ den ∧
    (2 * ((num : Int) - divNearestEven num den * den).natAbs = den → divNearestEven num den % 2 = 0) := by
  have hq : (num : Int) = den * (num / den : Nat) + (num % den : Nat) := by exact_mod_cast (Nat.div_add_mod num den).symm
  have hr : num % den < den := Nat.mod_lt _ hd
  have low : (num : Int) - (num / den : Nat) * den = (num % den : Nat) := by rw [mul_comm]; omega
  have high : (num : Int) - (num / den + 1 : Nat) * den = (num % den : Nat) - den := by
    push_cast; rw [add_mul, mul_comm]; push_cast at hq; omega
  unfold divNearestEven
  dsimp only
  split_ifs with h1 h2 h3
  · rw [low]; omega
  · rw [high]; omega
  · rw [low]; omega
  · rw [high]; omega

/-- No whole number is nearer to the quotient than the rounded one, and where another is as near, the rounded one is even. -/
theorem divNearestEven_nearest (num : Nat) {den : Nat} (hd : 0 < den) (m : Int) :
    ((num : Int) - divNearestEven num den * den).natAbs ≤ (num - m * den).natAbs ∧
    (((num : Int) - divNearestEven num den * den).natAbs = (num - m * den).natAbs → m ≠ divNearestEven num den →
      divNearestEven num den % 2 = 0) := by
  obtain ⟨h1, h2⟩ := divNearestEven_half num hd
  generalize divNearestEven num den = n at *
  by_cases hm : m = n
  · subst hm; exact ⟨le_refl _, fun _ h => absurd rfl h⟩
  · have far : (den : Int) ≤ ((m - n) * den).natAbs := by
      rw [Int.natAbs_mul, Int.natAbs_natCast]
      have : 1 ≤ (m - n).natAbs := by omega
      exact_mod_cast Nat.le_mul_of_pos_left den this
    have split : (num : Int) - m * den = (num - n * den) - (m - n) * den := by ring
    have bound : den ≤ ((num : Int) - n * den).natAbs + (num - m * den).natAbs := by rw [split]; omega
    exact ⟨by omega, fun h _ => h2 (by omega)⟩

/-! ## Rounding to a datum -/

/-- Where the exact quotient lies: below 2^24 steps, and from 2^23 steps on unless the step is one unit. -/
theorem excessBits_bounds (num : Nat) {den : Nat} (hd : 0 < den) :
    num < 2 ^ 24 * (den * 2 ^ excessBits (num / den)) ∧
    (excessBits (num / den) = 0 ∨ 2 ^ 23 * (den * 2 ^ excessBits (num / den)) ≤ num) := by
  have top : num / den < 2 ^ (24 + excessBits (num / den)) := by
    refine lt_of_lt_of_le Nat.lt_log2_self (Nat.pow_le_pow_right (by decide) ?_)
    unfold excessBits; omega
  constructor
  · have := (Nat.div_lt_iff_lt_mul hd).1 top
    rw [pow_add] at this
    calc num < 2 ^ 24 * 2 ^ excessBits (num / den) * den := this
      _ = 2 ^ 24 * (den * 2 ^ excessBits (num / den)) := by ring
  · by_cases h0 : excessBits (num / den) = 0
    · exact .inl h0
    · right
      have hne : num / den ≠ 0 := by rintro h; rw [h] at h0; exact h0 rfl
      have bottom : 2 ^ (23 + excessBits (num / den)) ≤ num / den := by
        refine le_trans (Nat.pow_le_pow_right (by decide) ?_) (Nat.log2_self_le hne)
        unfold excessBits at h0 ⊢; omega
      have := (Nat.le_div_iff_mul_le hd).1 bottom
      rw [pow_add] at this
      calc 2 ^ 23 * (den * 2 ^ excessBits (num / den)) = 2 ^ 23 * 2 ^ excessBits (num / den) * den := by ring
        _ ≤ num := this

/-- The rounded significand has at most 24 bits or is 2^24, and has 24 bits unless the step is one unit. -/
theorem significand_bounds (num : Nat) {den : Nat} (hd : 0 < den) :
    divNearestEven num (den * 2 ^ excessBits (num / den)) ≤ 2 ^ 24 ∧
    (excessBits (num / den) = 0 ∨ 2 ^ 23 ≤ divNearestEven num (den * 2 ^ excessBits (num / den))) := by
  obtain ⟨h1, h2⟩ := excessBits_bounds num hd
  have hD : 0 < den * 2 ^ excessBits (num / den) := by positivity
  generalize excessBits (num / den) = e at *
  generalize den * 2 ^ e = D at *
  obtain ⟨half, -⟩ := divNearestEven_half num hD
  generalize divNearestEven num D = n at *
  constructor
  · by_contra hn
    have : (2 ^ 24 + 1) * D ≤ n * D := Nat.mul_le_mul_right D (by omega)
    have : ((2 ^ 24 + 1) * D : Int) ≤ n * D := by exact_mod_cast this
    have : (num : Int) < 2 ^ 24 * D := by exact_mod_cast h1
    omega
  · refine h2.imp id fun h2 => ?_
    by_contra hn
    have : (n + 1) * D ≤ 2 ^ 23 * D := Nat.mul_le_mul_right D (by omega)
    have : ((n + 1) * D : Int) ≤ 2 ^ 23 * D := by exact_mod_cast this
    have : (2 ^ 23 * D : Int) ≤ num := by exact_mod_cast h2
    rw [add_mul] at *
    omega

/-- No magnitude is nearer to the exact quotient than the rounded one, before the limit at infinity, and where another is as
near, the rounded code is even. -/
theorem roundCode_nearest (num : Nat) {den : Nat} (hd : 0 < den) (code : Nat) :
    let n := divNearestEven num (den * 2 ^ excessBits (num / den))
    let u := n * 2 ^ excessBits (num / den)
    ((num : Int) - u * den).natAbs ≤ ((num : Int) - codeUnits code * den).natAbs ∧
    (((num : Int) - u * den).natAbs = ((num : Int) - codeUnits code * den).natAbs → codeUnits code ≠ u → n % 2 = 0) := by
  obtain ⟨h1, h2⟩ := excessBits_bounds num hd
  have hD : 0 < den * 2 ^ excessBits (num / den) := by positivity
  have near := divNearestEven_nearest num hD
  dsimp only
  generalize excessBits (num / den) = e at *
  generalize divNearestEven num (den * 2 ^ e) = n at *
  have hu : ((num : Int) - (n * 2 ^ e : Nat) * den) = num - n * (den * 2 ^ e : Nat) := by push_cast; ring
  rw [hu]
  have whole : ∀ m : Nat, codeUnits code = m * 2 ^ e →
      ((num : Int) - codeUnits code * den) = num - (m : Int) * (den * 2 ^ e : Nat) := by
    intro m hm; rw [hm]; push_cast; ring
  rcases codeUnits_small_or_multiple e code with hs | ⟨m, hm⟩
  · rcases h2 with rfl | h2
    · refine ⟨?_, fun h hne => ?_⟩
      · rw [whole (codeUnits code) (by simp)]; exact (near _).1
      · rw [whole (codeUnits code) (by simp)] at h
        refine (near _).2 h fun e => hne ?_
        rw [pow_zero, mul_one]; exact_mod_cast e
    · have far : ((num : Int) - (2 ^ 23 : Nat) * (den * 2 ^ e : Nat)).natAbs < ((num : Int) - codeUnits code * den).natAbs := by
        have : codeUnits code * den < 2 ^ 23 * (den * 2 ^ e) :=
          calc codeUnits code * den < 2 ^ 23 * 2 ^ e * den := Nat.mul_lt_mul_of_pos_right hs hd
            _ = 2 ^ 23 * (den * 2 ^ e) := by ring
        have : (codeUnits code * den : Int) < 2 ^ 23 * (den * 2 ^ e : Nat) := by exact_mod_cast this
        have : (2 ^ 23 * (den * 2 ^ e : Nat) : Int) ≤ num := by exact_mod_cast h2
        push_cast at *
        omega
      have := (near (2 ^ 23 : Nat)).1
      exact ⟨by omega, fun h _ => by omega⟩
  · rw [whole m hm]
    refine ⟨(near m).1, fun h hne => (near m).2 h fun e => hne ?_⟩
    rw [hm]; congr 1; exact_mod_cast e

/-- From the midpoint above the largest finite magnitude on, the rounded code reaches infinity, and below it does not. -/
theorem roundCode_overflow (num : Nat) {den : Nat} (hd : 0 < den) :
    infinityCode ≤ excessBits (num / den) * 2 ^ 23 + divNearestEven num (den * 2 ^ excessBits (num / den)) ↔
      (2 ^ 25 - 1) * 2 ^ 253 * den ≤ 2 * num := by
  obtain ⟨h1, h2⟩ := excessBits_bounds num hd
  obtain ⟨b1, b2⟩ := significand_bounds num hd
  have hD : 0 < den * 2 ^ excessBits (num / den) := by positivity
  have half := divNearestEven_half num hD
  generalize he : excessBits (num / den) = e at *
  generalize divNearestEven num (den * 2 ^ e) = n at *
  have code : infinityCode ≤ e * 2 ^ 23 + n ↔ 254 ≤ e ∨ (e = 253 ∧ n = 2 ^ 24) := by
    unfold infinityCode; omega
  rw [code]
  rcases lt_trichotomy e 253 with hlt | rfl | hgt
  · have : num < 2 ^ 24 * (den * 2 ^ 252) :=
      lt_of_lt_of_le h1 (Nat.mul_le_mul_left _ (Nat.mul_le_mul_left _ (Nat.pow_le_pow_right (by decide) (by omega))))
    refine ⟨fun h => by omega, fun h => ?_⟩
    exfalso
    have p : 2 ^ 253 = 2 * 2 ^ 252 := by rw [pow_succ, mul_comm]
    rw [p] at h
    generalize 2 ^ 252 = P at *
    have e1 : (2 ^ 25 - 1) * (2 * P) * den = 67108862 * (den * P) := by
      rw [show (2 ^ 25 - 1 : Nat) = 33554431 from rfl]; ring
    omega
  · generalize 2 ^ 253 = P at *
    have e1 : (2 ^ 25 - 1) * P * den = 2 ^ 25 * (den * P) - den * P := by
      rw [Nat.sub_mul, Nat.sub_mul, mul_assoc, one_mul, mul_comm P]
    generalize den * P = D at *
    rw [e1]
    constructor
    · rintro (h | ⟨-, rfl⟩)
      · omega
      · have := half.1
        push_cast at this
        omega
    · intro h
      refine .inr ⟨rfl, ?_⟩
      by_contra hn
      have : (n : Int) * D ≤ (2 ^ 24 - 1) * D := by
        apply mul_le_mul_of_nonneg_right <;> omega
      have hh := half.1
      have tie := half.2
      have e2 : (2 ^ 24 - 1) * (D : Int) = 2 ^ 24 * D - D := by ring
      rw [e2] at this
      by_cases hn1 : n = 2 ^ 24 - 1
      · subst hn1
        rw [show ((2 ^ 24 - 1 : Nat) : Int) = 16777215 from rfl] at hh tie
        have := tie (by omega)
        omega
      · have : (n : Int) * D ≤ (2 ^ 24 - 2) * D := by
          apply mul_le_mul_of_nonneg_right <;> omega
        have e3 : (2 ^ 24 - 2) * (D : Int) = 2 ^ 24 * D - 2 * D := by ring
        rw [e3] at this
        omega
  · refine ⟨fun _ => ?_, fun _ => .inl hgt⟩
    have h2 := h2.resolve_left (by omega)
    have : 2 ^ 23 * (den * 2 ^ 254) ≤ num :=
      le_trans (Nat.mul_le_mul_left _ (Nat.mul_le_mul_left _ (Nat.pow_le_pow_right (by decide) hgt))) h2
    have p : 2 ^ 254 = 2 * 2 ^ 253 := by rw [pow_succ, mul_comm]
    rw [p] at this
    generalize 2 ^ 253 = P at *
    have e1 : (2 ^ 25 - 1) * P * den = 2 ^ 25 * (den * P) - den * P := by
      rw [Nat.sub_mul, Nat.sub_mul, mul_assoc, one_mul, mul_comm P]
    have e2 : 2 ^ 23 * (den * (2 * P)) = 2 ^ 24 * (den * P) := by ring
    omega

theorem roundCode_le (num den : Nat) : roundCode num den < 2 ^ 31 :=
  lt_of_le_of_lt (Nat.min_le_left _ _) (by decide)

/-- `roundSigned` gives the datum the exact signed quotient rounds to. -/
theorem roundSigned_roundsTo (negative : Bool) (num : Nat) {den : Nat} (hd : 0 < den) :
    RoundsTo (if negative then -(num : Int) else num) den (roundSigned negative num den) := by
  have hl := roundCode_le num den
  obtain ⟨b1, b2⟩ := significand_bounds num hd
  have overflow := roundCode_overflow num hd
  have habs : (if negative then -(num : Int) else num).natAbs = num := by cases negative <;> simp
  refine ⟨fun h0 => ?_, ?_⟩
  · rw [roundSigned, isNegative_withSign _ hl]
    cases negative <;> simp at h0 ⊢
    omega
  · rw [habs]
    by_cases ho : (2 ^ 25 - 1) * 2 ^ 253 * den ≤ 2 * num
    · rw [if_pos ho]
      have : roundCode num den = infinityCode := Nat.min_eq_left (overflow.2 ho)
      rw [isInfinite, roundSigned, magnitudeCode_withSign _ hl, this]
      rfl
    · rw [if_neg ho]
      have hlt := lt_of_not_ge fun h => ho (overflow.1 h)
      have hc : roundCode num den = _ := Nat.min_eq_right hlt.le
      have hu : units (roundSigned negative num den) =
          divNearestEven num (den * 2 ^ excessBits (num / den)) * 2 ^ excessBits (num / den) := by
        rw [units_eq_codeUnits, roundSigned, magnitudeCode_withSign _ hl, hc, codeUnits_step b1 b2]
      have hs : signedUnits (roundSigned negative num den) =
          if negative then -(units (roundSigned negative num den) : Int) else units (roundSigned negative num den) := by
        conv_lhs => unfold signedUnits
        rw [show isNegative (roundSigned negative num den) = negative from isNegative_withSign _ hl]
      have heven : divNearestEven num (den * 2 ^ excessBits (num / den)) % 2 = 0 →
          (roundSigned negative num den).toNat % 2 = 0 := by
        intro h
        rw [roundSigned, toNat_withSign _ hl, hc]
        cases negative <;> simp <;> omega
      refine ⟨?_, fun g hg => ?_⟩
      · rw [isFinite, roundSigned, magnitudeCode_withSign _ hl, hc]; exact decide_eq_true hlt
      · have near := roundCode_nearest num hd (magnitudeCode g)
        have zero := roundCode_nearest num hd 0
        rw [show codeUnits 0 = 0 from rfl] at zero
        rw [← units_eq_codeUnits] at near
        dsimp only at near zero
        rw [← hu] at near zero
        have hg' : signedUnits g = if isNegative g then -(units g : Int) else units g := rfl
        have cast : ∀ x : Nat, (0 : Int) ≤ x * den := fun x => by positivity
        have hx := cast (units (roundSigned negative num den))
        have hy := cast (units g)
        have inj : ∀ x : Nat, (x * den : Int) = 0 → x = 0 := fun x h => by
          have := mul_eq_zero.1 h
          omega
        have hz := inj (units g)
        rw [hs, hg']
        clear hs hg' hu hc ho hlt overflow habs b1 b2 hl cast inj
        generalize (roundSigned negative num den).toNat = r at *
        generalize units (roundSigned negative num den) = x at *
        generalize units g = y at *
        cases negative <;> cases isNegative g <;>
          simp only [Bool.false_eq_true, if_false, if_true, neg_mul] at *
        · exact ⟨near.1, fun h hne => heven (near.2 h (by exact_mod_cast hne))⟩
        · refine ⟨by omega, fun h hne => heven (zero.2 (by omega) (fun h0 => hne ?_))⟩
          have := hz (by omega); omega
        · refine ⟨by omega, fun h hne => heven (zero.2 (by omega) (fun h0 => hne ?_))⟩
          have := hz (by omega); omega
        · exact ⟨by omega, fun h hne => heven (near.2 (by omega) (by omega))⟩

end Sys2Proof.Machine
end

