-- ==== Sys2Proof/Laws/Ignores.lean ====
section
/-!
SUPPORT. A field that a rule does not read: an update of it before the rule is the same update after it. `Ignores g` says that
`g` updates a field that no operation writes; `exec_ignores` says it once for all instructions.
-/

namespace Sys2Proof.Machine

/-- `g` updates nothing that an operation reads or writes, but perhaps `ff`, `sf` or `bf`. -/
structure Ignores (g : State → State) : Prop where
  cells : ∀ s, (g s).cells = s.cells
  pc : ∀ s, (g s).pc = s.pc
  stack : ∀ s, (g s).stack = s.stack
  frame : ∀ s, (g s).frame = s.frame
  hookEvents : ∀ s, (g s).hookEvents = s.hookEvents
  devWrites : ∀ s, (g s).devWrites = s.devWrites
  program : ∀ s, (g s).program = s.program
  params : ∀ s, (g s).params = s.params
  draws : ∀ s, (g s).draws = s.draws
  setCells : ∀ s m, (g s).setCells m = g (s.setCells m)
  setPc : ∀ s a, (g s).setPc a = g (s.setPc a)
  setBrk : ∀ s b, (g s).setBrk b = g (s.setBrk b)
  setStack : ∀ s l, (g s).setStack l = g (s.setStack l)
  setFrame : ∀ s f, (g s).setFrame f = g (s.setFrame f)
  setRun : ∀ s r, (g s).setRun r = g (s.setRun r)
  setHookEvents : ∀ s l, (g s).setHookEvents l = g (s.setHookEvents l)
  setDevWrites : ∀ s l, (g s).setDevWrites l = g (s.setDevWrites l)
  setDraws : ∀ s n, (g s).setDraws n = g (s.setDraws n)

theorem ignores_ff (b : Bool) : Ignores fun t => { t with ff := b } := by constructor <;> intros <;> rfl
theorem ignores_sf (b : Bool) : Ignores fun t => { t with sf := b } := by constructor <;> intros <;> rfl
theorem ignores_bf (b : Bool) : Ignores fun t => { t with bf := b } := by constructor <;> intros <;> rfl
theorem ignores_fw (b : Bool) : Ignores fun t => { t with fw := b } := by constructor <;> intros <;> rfl

section
variable {g : State → State} (h : Ignores g) {s : State}

theorem mapNext_ite (c : Prop) [Decidable c] (a b : Result) :
    mapNext g (if c then a else b) = if c then mapNext g a else mapNext g b := by split_ifs <;> rfl

include h

/-! ## The operations -/

theorem Ignores.cell (s : State) (i : Nat) : (g s).cell i = s.cell i := by rw [State.cell, h.cells]; rfl

theorem Ignores.fetch (s : State) (a : Nat) : (g s).fetch a = s.fetch a := by rw [State.fetch, h.program]; rfl

theorem Ignores.hasRoom (s : State) (n : Nat) : (g s).hasRoom n = s.hasRoom n := by
  unfold State.hasRoom; rw [h.params, h.stack]

theorem Ignores.raiseHalt (code : Nat) (msg : Option String) : raiseHalt code msg (g s) = mapNext g (raiseHalt code msg s) :=
  congrArg Host.Outcome.next (h.setRun _ _)

theorem Ignores.raiseHaltFor (cause : HaltCause) (code : Nat) :
    raiseHaltFor cause code (g s) = mapNext g (raiseHaltFor cause code s) := by
  unfold Machine.raiseHaltFor; rw [h.pc]; exact h.raiseHalt _ _

theorem Ignores.advance (s : State) : advance (g s) = mapNext g (advance s) := by
  unfold Machine.advance; rw [h.setPc, h.pc]; rfl

theorem Ignores.advancePast (n : Nat) (s : State) : advancePast n (g s) = mapNext g (advancePast n s) := by
  unfold Machine.advancePast; rw [h.setPc, h.pc]; rfl

theorem Ignores.jumpTo (a : Word) (s : State) : jumpTo a (g s) = mapNext g (jumpTo a s) :=
  congrArg Host.Outcome.next (h.setPc _ _)

theorem Ignores.readCell (i : Nat) {k k' : Word → Result} (hk : ∀ v, k' v = mapNext g (k v)) :
    readCell i (g s) k' = mapNext g (readCell i s k) := by
  unfold Machine.readCell; rw [mapNext_ite, h.params, h.cell, hk]; congr 1; exact h.raiseHaltFor _ _

theorem Ignores.writeCell (i : Nat) (v : Word) {k k' : State → Result} (hk : ∀ u, k' (g u) = mapNext g (k u)) :
    writeCell i v (g s) k' = mapNext g (writeCell i v s k) := by
  unfold Machine.writeCell; rw [mapNext_ite, h.params, h.cells, h.setCells, hk]; congr 1; exact h.raiseHaltFor _ _

theorem Ignores.push (v : Word) {k k' : State → Result} (hk : ∀ u, k' (g u) = mapNext g (k u)) :
    push v (g s) k' = mapNext g (push v s k) := by
  unfold Machine.push; rw [mapNext_ite, h.hasRoom, h.stack, h.setStack, hk]; rfl

theorem Ignores.pop {k k' : Word → State → Result} (hk : ∀ v u, k' v (g u) = mapNext g (k v u)) :
    pop (g s) k' = mapNext g (pop s k) := by
  unfold Machine.pop
  rw [h.stack]
  cases s.stack with
  | nil => rfl
  | cons v rest => rw [← hk, ← h.setStack]

theorem Ignores.dest (hs : ∀ s, (g s).sf = s.sf) (i : Nat) (v : Word) (s : State) :
    dest i v (g s) = mapNext g (dest i v s) := by
  unfold Machine.dest; rw [mapNext_ite, hs, h.push v (h.advance), h.writeCell i v (h.advance)]

theorem Ignores.settleFloat (r : Option F32) {k k' : Word → State → Result} (hk : ∀ v u, k' v (g u) = mapNext g (k v u)) :
    settleFloat r (g s) k' = mapNext g (settleFloat r s k) := by
  cases r with
  | none => show k' _ (g s).drawn = mapNext g (k _ s.drawn); rw [h.draws, ← hk, State.drawn, State.drawn, h.setDraws, h.draws]
  | some f => exact hk _ _

theorem Ignores.fetchInside (a : Nat) {k k' : Word → Result} (hk : ∀ w, k' w = mapNext g (k w)) :
    fetchInside a (g s) k' = mapNext g (fetchInside a s k) := by
  unfold Machine.fetchInside
  rw [h.fetch]
  cases s.fetch a with
  | none => exact h.raiseHaltFor _ _
  | some w => exact hk w

theorem Ignores.findDevice (id : Nibble) {k k' : Result} (hk : k' = mapNext g k) :
    findDevice id (g s) k' = mapNext g (findDevice id s k) := by
  unfold Machine.findDevice; rw [mapNext_ite, h.params, hk]; congr 1; exact h.raiseHaltFor _ _

theorem Ignores.pushWords (n a : Nat) (s : State) {k k' : State → Result} (hk : ∀ u, k' (g u) = mapNext g (k u)) :
    pushWords n a (g s) k' = mapNext g (pushWords n a s k) := by
  induction n generalizing a s with
  | zero => exact hk s
  | succ n ih => exact h.fetchInside a fun w => h.push w fun u => ih _ _

theorem Ignores.readDescriptors (count n a : Nat) (s : State) {k k' : State → Result}
    (hk : ∀ u, k' (g u) = mapNext g (k u)) :
    readDescriptors count n a (g s) k' = mapNext g (readDescriptors count n a s k) := by
  induction n generalizing a s with
  | zero => exact hk s
  | succ n ih =>
    refine h.fetchInside a fun tag => h.fetchInside _ fun slot => ?_
    rw [mapNext_ite, mapNext_ite, h.params, ← ih, installSlot, installSlot, h.setFrame, h.frame]
    rfl

theorem Ignores.writeDevice (id port : Nibble) (v : Word) (s : State) :
    writeDevice id port v (g s) = g (writeDevice id port v s) := by
  unfold Machine.writeDevice; rw [h.setDevWrites, h.devWrites]

theorem Ignores.writeDeviceText (id port : Nibble) (text : List Byte) (s : State) :
    writeDeviceText id port text (g s) = g (writeDeviceText id port text s) := by
  rw [writeDeviceText_eq, writeDeviceText_eq, h.setDevWrites, h.devWrites]

/-! ## The shared shapes -/

theorem Ignores.intUnary (hs : ∀ s, (g s).sf = s.sf) (op : Word → Word) (rd ra : Nibble) :
    intUnary op rd ra (g s) = mapNext g (intUnary op rd ra s) := h.readCell _ fun _ => h.dest hs _ _ _

theorem Ignores.intBinary (hs : ∀ s, (g s).sf = s.sf) (op : Word → Word → Word) (rd ra rb : Nibble) :
    intBinary op rd ra rb (g s) = mapNext g (intBinary op rd ra rb s) :=
  h.readCell _ fun _ => h.readCell _ fun _ => h.dest hs _ _ _

theorem Ignores.floatUnary (hs : ∀ s, (g s).sf = s.sf) (op : F32 → Option F32) (rd ra : Nibble) :
    floatUnary op rd ra (g s) = mapNext g (floatUnary op rd ra s) :=
  h.readCell _ fun _ => h.settleFloat _ fun _ _ => h.dest hs _ _ _

theorem Ignores.floatBinary (hs : ∀ s, (g s).sf = s.sf) (op : F32 → F32 → Option F32) (rd ra rb : Nibble) :
    floatBinary op rd ra rb (g s) = mapNext g (floatBinary op rd ra rb s) :=
  h.readCell _ fun _ => h.readCell _ fun _ => h.settleFloat _ fun _ _ => h.dest hs _ _ _

theorem Ignores.mathOp1 (hs : ∀ s, (g s).sf = s.sf) (hf : ∀ s, (g s).ff = s.ff) (fn : F32 → Option F32) (rd ra : Nibble) :
    mathOp1 fn rd ra (g s) = mapNext g (mathOp1 fn rd ra s) := by
  unfold Machine.mathOp1 requireFloatMode
  rw [mapNext_ite, hf, h.floatUnary hs]; congr 1; exact h.raiseHaltFor _ _

theorem Ignores.mathOp2 (hs : ∀ s, (g s).sf = s.sf) (hf : ∀ s, (g s).ff = s.ff) (fn : F32 → F32 → Option F32)
    (rd ra rb : Nibble) : mathOp2 fn rd ra rb (g s) = mapNext g (mathOp2 fn rd ra rb s) := by
  unfold Machine.mathOp2 requireFloatMode
  rw [mapNext_ite, hf, h.floatBinary hs]; congr 1; exact h.raiseHaltFor _ _

theorem Ignores.bitwise (hs : ∀ s, (g s).sf = s.sf) (hf : ∀ s, (g s).ff = s.ff) (op : Word → Word → Word) (ca cb : Byte) :
    bitwise op ca cb (g s) = mapNext g (bitwise op ca cb s) := by
  unfold Machine.bitwise requireIntegerMode
  rw [mapNext_ite, hf]; congr 1
  exact h.readCell _ fun _ => h.readCell _ fun _ => h.dest hs _ _ _

omit h in
theorem byFloatMode (hf : ∀ s, (g s).ff = s.ff) {a b a' b' : Result} (ha : a' = mapNext g a)
    (hb : b' = mapNext g b) : (if (g s).ff then a' else b') = mapNext g (if s.ff then a else b) := by
  rw [mapNext_ite, hf, ha, hb]

theorem Ignores.conditionalJump (hj : s.params.jumpCmp = .floatInFloatMode → (g s).ff = s.ff) (test : JumpTest)
    (rt ra rb : Nibble) : conditionalJump test rt ra rb (g s) = mapNext g (conditionalJump test rt ra rb s) := by
  refine h.readCell _ fun a => h.readCell _ fun b => h.readCell _ fun t => ?_
  have : test.holds (g s).params.jumpCmp (g s).ff a b = test.holds s.params.jumpCmp s.ff a b := by
    rw [h.params]
    unfold JumpTest.holds
    cases hc : s.params.jumpCmp with
    | unsigned => rfl
    | signed => rfl
    | floatInFloatMode => rw [hj hc]
  rw [mapNext_ite, this, h.jumpTo, h.advance]

theorem Ignores.xorCells (d i j : Nat) (s : State) {k k' : State → Result} (hk : ∀ u, k' (g u) = mapNext g (k u)) :
    xorCells d i j (g s) k' = mapNext g (xorCells d i j s k) :=
  h.readCell _ fun _ => h.readCell _ fun _ => h.writeCell _ _ hk

/-! ## Every instruction -/

theorem Ignores.execSig (rd : Nibble) (s : State) : execSig rd (g s) = mapNext g (execSig rd s) := by
  unfold Machine.execSig
  rw [h.pc]
  refine h.writeCell _ _ fun u => ?_
  simp only [h.pc]
  refine h.push _ fun u => ?_
  simp only [h.pc]
  refine h.push _ fun u => h.pop fun _ u => ?_
  simp only [h.program, h.pc]
  split
  · exact h.raiseHaltFor _ _
  · exact h.pop fun v u => h.writeCell _ _ fun u => h.jumpTo _ _

theorem Ignores.execXcall (rs : Nibble) (s : State) : execXcall rs (g s) = mapNext g (execXcall rs s) := by
  have hd : (g s).drawn = g s.drawn := by rw [State.drawn, State.drawn, h.setDraws, h.draws]
  refine h.readCell _ fun v => ?_
  simp only [h.params, h.draws, hd]
  split
  · exact h.raiseHaltFor _ _
  · rw [mapNext_ite]
    congr 1
    · exact h.raiseHaltFor _ _
    · split
      · exact h.raiseHalt _ _
      · rw [mapNext_ite, h.advance, h.push _ h.advance]

/-- An instruction that does not read `sf` or `ff` acts alike whatever `g` makes of them. -/
theorem exec_ignores (i : Instr) (hs : usesDest i = true → ∀ s, (g s).sf = s.sf)
    (hf : readsFf i = true → ∀ s, (g s).ff = s.ff)
    (hj : s.params.jumpCmp = .floatInFloatMode → (g s).ff = s.ff) :
    exec i (g s) = mapNext g (exec i s) := by
  cases i with
  | haltF | halt0 | halt1 => exact h.raiseHalt _ _
  | nop => exact h.advance _
  | ldi | ldiM => exact h.writeCell _ _ h.advance
  | swap ra rb =>
    show execSwap ra rb (g s) = mapNext g (execSwap ra rb s)
    unfold execSwap
    dsimp only
    rw [mapNext_ite, h.advance]
    congr 1
    refine h.xorCells _ _ _ _ fun u => ?_
    refine h.xorCells _ _ _ _ fun u => ?_
    exact h.xorCells _ _ _ _ h.advance
  | wdevS d p rv =>
    exact h.findDevice d (h.readCell _ fun v => by rw [← h.advance, h.writeDevice])
  | wdevL d p a b c e =>
    refine h.findDevice d ?_
    rw [← h.advance, h.writeDevice, h.params]
  | emit d p rv =>
    exact h.findDevice d (h.readCell _ fun v => by rw [← h.advance, h.writeDeviceText, hf rfl])
  | pcap rd =>
    show Machine.writeCell _ (g s).pc _ _ = _
    rw [h.pc]; exact h.writeCell _ _ h.advance
  | jumpT rt => exact h.readCell _ fun v => h.jumpTo v s
  | jumpE | jumpG | jumpU | jumpY => exact h.conditionalJump hj _ _ _ _
  | orb n =>
    show Machine.pushWords _ ((g s).pc.toNat + 1) _ _ = _
    rw [h.pc]; exact h.pushWords _ _ _ fun u => h.advancePast _ _
  | pull rd =>
    unfold exec execPull
    refine h.pop fun v u => ?_
    exact h.writeCell _ _ h.advance
  | rdev d p =>
    have hd : (g s).drawn = g s.drawn := by rw [State.drawn, State.drawn, h.setDraws, h.draws]
    refine h.findDevice d ?_
    rw [hd, h.draws]; exact h.push _ h.advance
  | sig rd => exact h.execSig rd s
  | ret => rfl
  | inc =>
    unfold exec execInc
    refine h.readCell _ fun v => ?_
    exact h.writeCell _ _ h.advance
  | dec =>
    unfold exec execDec
    refine h.readCell _ fun v => ?_
    exact h.writeCell _ _ h.advance
  | dup =>
    unfold exec execDup
    refine h.readCell _ fun v => ?_
    exact h.writeCell _ _ h.advance
  | ckft c =>
    refine byFloatMode (hf rfl) (h.readCell _ fun v => ?_) (h.advance s)
    rw [mapNext_ite, h.advance]; congr 1; exact h.raiseHaltFor _ _
  | xor a b | or a b => exact h.bitwise (hs rfl) (hf rfl) _ _ _
  | brkNow =>
    show Machine.advance (hook (g s).pc (g s)) = mapNext g (Machine.advance (hook s.pc s))
    rw [← h.advance, hook, hook, h.setHookEvents, h.hookEvents, h.pc]
  | brkNext =>
    show Machine.advance ((g s).setBrk _) = mapNext g (Machine.advance (s.setBrk _)); rw [← h.advance, h.setBrk]
  | brkAfter =>
    show Machine.advance ((g s).setBrk _) = mapNext g (Machine.advance (s.setBrk _)); rw [← h.advance, h.setBrk]
  | add | sub | mul | pow =>
    exact byFloatMode (hf rfl) (h.floatBinary (hs rfl) _ _ _ _) (h.intBinary (hs rfl) _ _ _ _)
  | div rd ra rb =>
    refine byFloatMode (hf rfl) (h.floatBinary (hs rfl) _ _ _ _) (h.readCell _ fun a => h.readCell _ fun b => ?_)
    rw [mapNext_ite, mapNext_ite, mapNext_ite, h.params, h.dest (hs rfl), h.dest (hs rfl), h.raiseHaltFor]; rfl
  | sqrt => exact byFloatMode (hf rfl) (h.floatUnary (hs rfl) _ _ _) (h.intUnary (hs rfl) _ _ _)
  | xcall rs => exact h.execXcall rs s
  | prune =>
    show execPrune (g s) = mapNext g (execPrune s)
    unfold execPrune
    rw [h.frame]
    cases s.frame with
    | none => rfl
    | some f => rw [← h.advance, h.setFrame]
  | locals n =>
    show Machine.readDescriptors _ _ ((g s).pc.toNat + 1) ((g s).setFrame _) _ = _
    rw [h.pc, h.setFrame]; exact h.readDescriptors _ _ _ _ fun u => h.advancePast _ _
  | abs | sin | cos | tan | asin | acos | atan | sinh | cosh | tanh | asinh | acosh | atanh | ceiling | floor | truncate
  | log | log10 | exp | cbrt | bitinc | bitdec => exact h.mathOp1 (hs rfl) (hf rfl) _ _ _
  | atan2 | min | max => exact h.mathOp2 (hs rfl) (hf rfl) _ _ _ _

end

end Sys2Proof.Machine
end

