-- ==== Sys2Proof/Laws/PerInstr.lean ====
section
/-!
SUPPORT. Statements about each instruction as syntax, one lemma per constructor.
-/

namespace Sys2Proof.Laws.EncodingFitsLow36

/-- The instruction's word has bits 63:36 zero (spec/30_encoding R60). -/
def Statement (i : Instr) : Prop := (encode i).extractLsb' 36 28 = 0

theorem haltF : Statement .haltF := encFields_high _
theorem halt0 : Statement .halt0 := encFields_high _
theorem halt1 : Statement .halt1 := encFields_high _
theorem nop : Statement .nop := encFields_high _
theorem ldi (rd : Nibble) (imm : Byte) : Statement (.ldi rd imm) := encFields_high _
theorem ldiM (cell : Byte) (imm : Byte) : Statement (.ldiM cell imm) := encFields_high _
theorem swap (ra rb : Nibble) : Statement (.swap ra rb) := encFields_high _
theorem wdevS (dev port rv : Nibble) : Statement (.wdevS dev port rv) := encFields_high _
theorem wdevL (dev port n3 n2 n1 n0 : Nibble) : Statement (.wdevL dev port n3 n2 n1 n0) := encFields_high _
theorem emit (dev port rv : Nibble) : Statement (.emit dev port rv) := encFields_high _
theorem pcap (rd : Nibble) : Statement (.pcap rd) := encFields_high _
theorem jumpT (rt : Nibble) : Statement (.jumpT rt) := encFields_high _
theorem jumpE (rt ra rb : Nibble) : Statement (.jumpE rt ra rb) := encFields_high _
theorem jumpG (rt ra rb : Nibble) : Statement (.jumpG rt ra rb) := encFields_high _
theorem jumpU (rt ra rb : Nibble) : Statement (.jumpU rt ra rb) := encFields_high _
theorem jumpY (rt ra rb : Nibble) : Statement (.jumpY rt ra rb) := encFields_high _
theorem orb (count : Nibble) : Statement (.orb count) := encFields_high _
theorem pull (rd : Nibble) : Statement (.pull rd) := encFields_high _
theorem rdev (dev port : Nibble) : Statement (.rdev dev port) := encFields_high _
theorem sig (rd : Nibble) : Statement (.sig rd) := encFields_high _
theorem ret : Statement .ret := encFields_high _
theorem inc (rd : Nibble) : Statement (.inc rd) := encFields_high _
theorem dec (rd : Nibble) : Statement (.dec rd) := encFields_high _
theorem dup (src dst : Byte) : Statement (.dup src dst) := encFields_high _
theorem ckft (cell : Byte) : Statement (.ckft cell) := encFields_high _
theorem xor (ca cb : Byte) : Statement (.xor ca cb) := encFields_high _
theorem or (ca cb : Byte) : Statement (.or ca cb) := encFields_high _
theorem brkNow : Statement .brkNow := encFields_high _
theorem brkNext : Statement .brkNext := encFields_high _
theorem brkAfter : Statement .brkAfter := encFields_high _
theorem add (rd ra rb : Nibble) : Statement (.add rd ra rb) := encFields_high _
theorem sub (rd ra rb : Nibble) : Statement (.sub rd ra rb) := encFields_high _
theorem mul (rd ra rb : Nibble) : Statement (.mul rd ra rb) := encFields_high _
theorem div (rd ra rb : Nibble) : Statement (.div rd ra rb) := encFields_high _
theorem pow (rd ra rb : Nibble) : Statement (.pow rd ra rb) := encFields_high _
theorem sqrt (rd ra : Nibble) : Statement (.sqrt rd ra) := encFields_high _
theorem xcall (rs : Nibble) : Statement (.xcall rs) := encFields_high _
theorem prune : Statement .prune := encFields_high _
theorem locals (count : Nibble) : Statement (.locals count) := encFields_high _
theorem abs (rd ra : Nibble) : Statement (.abs rd ra) := encFields_high _
theorem sin (rd ra : Nibble) : Statement (.sin rd ra) := encFields_high _
theorem cos (rd ra : Nibble) : Statement (.cos rd ra) := encFields_high _
theorem tan (rd ra : Nibble) : Statement (.tan rd ra) := encFields_high _
theorem asin (rd ra : Nibble) : Statement (.asin rd ra) := encFields_high _
theorem acos (rd ra : Nibble) : Statement (.acos rd ra) := encFields_high _
theorem atan (rd ra : Nibble) : Statement (.atan rd ra) := encFields_high _
theorem sinh (rd ra : Nibble) : Statement (.sinh rd ra) := encFields_high _
theorem cosh (rd ra : Nibble) : Statement (.cosh rd ra) := encFields_high _
theorem tanh (rd ra : Nibble) : Statement (.tanh rd ra) := encFields_high _
theorem asinh (rd ra : Nibble) : Statement (.asinh rd ra) := encFields_high _
theorem acosh (rd ra : Nibble) : Statement (.acosh rd ra) := encFields_high _
theorem atanh (rd ra : Nibble) : Statement (.atanh rd ra) := encFields_high _
theorem ceiling (rd ra : Nibble) : Statement (.ceiling rd ra) := encFields_high _
theorem floor (rd ra : Nibble) : Statement (.floor rd ra) := encFields_high _
theorem truncate (rd ra : Nibble) : Statement (.truncate rd ra) := encFields_high _
theorem log (rd ra : Nibble) : Statement (.log rd ra) := encFields_high _
theorem log10 (rd ra : Nibble) : Statement (.log10 rd ra) := encFields_high _
theorem exp (rd ra : Nibble) : Statement (.exp rd ra) := encFields_high _
theorem cbrt (rd ra : Nibble) : Statement (.cbrt rd ra) := encFields_high _
theorem atan2 (rd ra rb : Nibble) : Statement (.atan2 rd ra rb) := encFields_high _
theorem min (rd ra rb : Nibble) : Statement (.min rd ra rb) := encFields_high _
theorem max (rd ra rb : Nibble) : Statement (.max rd ra rb) := encFields_high _
theorem bitinc (rd ra : Nibble) : Statement (.bitinc rd ra) := encFields_high _
theorem bitdec (rd ra : Nibble) : Statement (.bitdec rd ra) := encFields_high _

end Sys2Proof.Laws.EncodingFitsLow36
end

