-- ==== Sys2Proof/Laws/Results.lean ====
section
/-!
SUPPORT. What each shared operation does to a state, in the terms claims use (Safety.lean): the conditions it tests are
given, its answer follows.
-/

namespace Sys2Proof.Machine

/-! ## Reads and writes in range -/

theorem readCell_in_range {i : Nat} {s : State} (h : i < s.params.memCells) (k : Word → Result) :
    readCell i s k = k (s.cell i) := if_pos h

theorem writeCell_in_range {i : Nat} {s : State} (h : i < s.params.memCells) (v : Word) (k : State → Result) :
    writeCell i v s k = k (s.setCells (s.cells.write i v)) := if_pos h

theorem haltOutOfRange_haltsOnly (s : State) : HaltsOnly s Config.oorHaltCode (haltOutOfRange s) := ⟨_, rfl⟩

/-- A read that a rule continues, whether the cell is in range or not. -/
theorem inRangeElseHalts_readCell {i : Nat} {s : State} {P : Result → Prop} {k : Word → Result}
    (h : P (k (s.cell i))) : InRangeElseHalts s i P (readCell i s k) := by
  unfold InRangeElseHalts readCell
  split_ifs
  · exact h
  · exact haltOutOfRange_haltsOnly s

/-- A register is in range. -/
theorem regIndex_in_range {s : State} (h : RegistersExist s) (r : Nibble) : regIndex r < s.params.memCells := by
  have := r.isLt
  unfold RegistersExist at h
  unfold regIndex
  omega

/-- So is the cell after it. -/
theorem nextIndex_in_range {s : State} (h : RegistersExist s) (r : Nibble) : nextIndex r < s.params.memCells := by
  have := r.isLt
  unfold RegistersExist at h
  unfold nextIndex
  omega

theorem readCell_reg {s : State} (h : RegistersExist s) (r : Nibble) (k : Word → Result) :
    readCell (regIndex r) s k = k (s.cell r.toNat) := readCell_in_range (regIndex_in_range h r) k

/-- A write that ends a rule. -/
theorem writesOnly_writeCell {i : Nat} {s : State} (h : i < s.params.memCells) (v : Word) :
    WritesOnly s i v (writeCell i v s advance) := by
  rw [writeCell_in_range h]
  exact ⟨_, rfl, fun a => by simp [State.cell_eq], rfl⟩

theorem writesOnly_reg {s : State} (h : RegistersExist s) (r : Nibble) (v : Word) :
    WritesOnly s r.toNat v (writeCell (regIndex r) v s advance) := writesOnly_writeCell (regIndex_in_range h r) v

theorem inRangeElseHalts_writesOnly (s : State) (i : Nat) (v : Word) :
    InRangeElseHalts s i (WritesOnly s i v) (writeCell i v s advance) := by
  unfold InRangeElseHalts
  split_ifs with h
  · exact writesOnly_writeCell h v
  · unfold writeCell; rw [if_neg h]; exact haltOutOfRange_haltsOnly s

/-! ## The stack and `dest` -/

theorem push_room {s : State} (h : s.hasRoom 1 = true) (v : Word) (k : State → Result) :
    push v s k = k (s.setStack (v :: s.stack)) := if_pos h

theorem push_full {s : State} (h : s.hasRoom 1 = false) (v : Word) (k : State → Result) :
    push v s k = .fault .stackOverflow := by unfold push; rw [if_neg (by simp [h])]

theorem delivers_dest {i : Nat} {s : State} (h : i < s.params.memCells) (v : Word) : Delivers s i v (dest i v s) := by
  unfold Delivers dest
  split_ifs with h1 h2
  · rw [push_room h2]; rfl
  · exact push_full (by simpa using h2) _ _
  · exact writesOnly_writeCell h v

/-- A NaN pattern is a NaN, whatever the draw. -/
theorem nanPattern_isNaN (n : Nat) : isNaN (nanPattern n) = true := by
  have hf := (Config.nanFractionLessOne n).isLt
  have hs := (Config.nanSign n).isLt
  have h : magnitudeCode (nanPattern n) = 0xFF * 2 ^ 23 + ((Config.nanFractionLessOne n).val + 1) := by
    rw [magnitudeCode, nanPattern, append_toNat, append_toNat]
    simp only [BitVec.toNat_ofNat]
    omega
  simp only [isNaN, h, infinityCode, decide_eq_true_eq]
  omega

theorem deliversFloat_settleFloat {i : Nat} {s : State} (h : i < s.params.memCells) (r : Option F32) :
    DeliversFloat s i r (settleFloat r s fun v s => dest i v s) := by
  cases r with
  | none => exact ⟨_, nanPattern_isNaN _, delivers_dest (s := s.setDraws (s.draws + 1)) h _⟩
  | some f => exact delivers_dest h _

/-! ## The paths of the arithmetic unit -/

variable {s : State} (h : RegistersExist s) (rd ra rb : Nibble)
include h

theorem intUnary_delivers (op : Word → Word) : Delivers s rd.toNat (op (s.cell ra.toNat)) (intUnary op rd ra s) := by
  rw [intUnary, readCell_reg h]; exact delivers_dest (regIndex_in_range h rd) _

theorem intBinary_delivers (op : Word → Word → Word) :
    Delivers s rd.toNat (op (s.cell ra.toNat) (s.cell rb.toNat)) (intBinary op rd ra rb s) := by
  rw [intBinary, readCell_reg h, readCell_reg h]; exact delivers_dest (regIndex_in_range h rd) _

theorem floatUnary_delivers (op : F32 → Option F32) :
    DeliversFloat s rd.toNat (op (f32 (s.cell ra.toNat))) (floatUnary op rd ra s) := by
  rw [floatUnary, readCell_reg h]; exact deliversFloat_settleFloat (regIndex_in_range h rd) _

theorem floatBinary_delivers (op : F32 → F32 → Option F32) :
    DeliversFloat s rd.toNat (op (f32 (s.cell ra.toNat)) (f32 (s.cell rb.toNat))) (floatBinary op rd ra rb s) := by
  rw [floatBinary, readCell_reg h, readCell_reg h]; exact deliversFloat_settleFloat (regIndex_in_range h rd) _

theorem mathOp1_delivers (fn : F32 → Option F32) (hf : s.ff = true) :
    DeliversFloat s rd.toNat (fn (f32 (s.cell ra.toNat))) (mathOp1 fn rd ra s) := by
  rw [mathOp1, requireFloatMode, if_pos hf]; exact floatUnary_delivers h rd ra fn

theorem mathOp2_delivers (fn : F32 → F32 → Option F32) (hf : s.ff = true) :
    DeliversFloat s rd.toNat (fn (f32 (s.cell ra.toNat)) (f32 (s.cell rb.toNat))) (mathOp2 fn rd ra rb s) := by
  rw [mathOp2, requireFloatMode, if_pos hf]; exact floatBinary_delivers h rd ra rb fn

end Sys2Proof.Machine
end

