-- ==== Sys2Proof/Laws/Step.lean ====
section
/-!
SUPPORT. What a step can do, said once, and what its phases leave of the state.
-/

namespace Sys2Proof.Machine

/-! ## The phases -/

theorem preStep_eq (s : State) : preStep s =
    (s.setHookEvents (if s.bf then s.hookEvents ++ [s.pc] else s.hookEvents)).setBrk (escalate s.brk) := by
  cases h : s.bf <;> simp [preStep, hook, h, State.setHookEvents, State.setBrk]

theorem postStep_eq (s : State) : postStep s =
    if firesAfterStep s.brk then (s.setHookEvents (s.hookEvents ++ [s.pc])).setBrk .idle else s := rfl

/-- The pre-step phase changes the hook record and the break cell, nothing else. -/
theorem preStep_frame (s : State) :
    ∃ l b, preStep s = (s.setHookEvents l).setBrk b := ⟨_, _, preStep_eq s⟩

@[simp] theorem preStep_cells (s : State) : (preStep s).cells = s.cells := by rw [preStep_eq]; rfl
@[simp] theorem preStep_pc (s : State) : (preStep s).pc = s.pc := by rw [preStep_eq]; rfl
@[simp] theorem preStep_ff (s : State) : (preStep s).ff = s.ff := by rw [preStep_eq]; rfl
@[simp] theorem preStep_sf (s : State) : (preStep s).sf = s.sf := by rw [preStep_eq]; rfl
@[simp] theorem preStep_bf (s : State) : (preStep s).bf = s.bf := by rw [preStep_eq]; rfl
@[simp] theorem preStep_fw (s : State) : (preStep s).fw = s.fw := by rw [preStep_eq]; rfl
@[simp] theorem preStep_brk (s : State) : (preStep s).brk = escalate s.brk := by rw [preStep_eq]; rfl
@[simp] theorem preStep_stack (s : State) : (preStep s).stack = s.stack := by rw [preStep_eq]; rfl
@[simp] theorem preStep_frame' (s : State) : (preStep s).frame = s.frame := by rw [preStep_eq]; rfl
@[simp] theorem preStep_run (s : State) : (preStep s).run = s.run := by rw [preStep_eq]; rfl
@[simp] theorem preStep_devWrites (s : State) : (preStep s).devWrites = s.devWrites := by rw [preStep_eq]; rfl
@[simp] theorem preStep_program (s : State) : (preStep s).program = s.program := by rw [preStep_eq]; rfl
@[simp] theorem preStep_params (s : State) : (preStep s).params = s.params := by rw [preStep_eq]; rfl
@[simp] theorem preStep_draws (s : State) : (preStep s).draws = s.draws := by rw [preStep_eq]; rfl
@[simp] theorem preStep_hasRoom (s : State) (n : Nat) : (preStep s).hasRoom n = s.hasRoom n := by rw [preStep_eq]; rfl
@[simp] theorem preStep_fetch (s : State) (a : Nat) : (preStep s).fetch a = s.fetch a := by rw [preStep_eq]; rfl
@[simp] theorem preStep_cell (s : State) (i : Nat) : (preStep s).cell i = s.cell i := by rw [preStep_eq]; rfl

/-- The end of a step changes at most the hook record and the break cell. -/
theorem finishStep_frame (s : State) : ∃ l b, finishStep s = (s.setHookEvents l).setBrk b := by
  have self : s = (s.setHookEvents s.hookEvents).setBrk s.brk := rfl
  unfold finishStep
  split
  · rw [postStep_eq]
    split
    · exact ⟨_, _, rfl⟩
    · exact ⟨_, _, self⟩
  · exact ⟨_, _, self⟩

/-- A halted machine passes the end of the step unchanged. -/
theorem finishStep_of_halted {s : State} {c : Nat} {m : Option String} (h : s.run = .halted c m) : finishStep s = s := by
  unfold finishStep; rw [h]

theorem finishStep_of_running {s : State} (h : s.run = .running) : finishStep s = postStep s := by
  unfold finishStep; rw [h]

@[simp] theorem finishStep_run (s : State) : (finishStep s).run = s.run := by
  obtain ⟨l, b, h⟩ := finishStep_frame s; rw [h]; rfl

@[simp] theorem finishStep_pc (s : State) : (finishStep s).pc = s.pc := by
  obtain ⟨l, b, h⟩ := finishStep_frame s; rw [h]; rfl

/-! ## The step -/

/-- A step of a running machine whose fetched word decodes. -/
theorem step_of_decode {s : State} {w : Word} {i : Instr} (hr : s.run = .running) (hf : s.fetch s.pc.toNat = some w)
    (hd : decode w = .ok i) : step s = afterExecute (exec i (preStep s)) := by
  simp only [step, hr, fetchAndExecute, preStep_fetch, preStep_pc, hf, hd]

/-- A step of a running machine whose fetched word is unlisted. -/
theorem step_of_unlisted {s : State} {w : Word} {why : Unlisted} (hr : s.run = .running)
    (hf : s.fetch s.pc.toNat = some w) (hd : decode w = .error why) : step s = unlistedWord (preStep s) := by
  simp only [step, hr, fetchAndExecute, preStep_fetch, preStep_pc, hf, hd]

/-- Everything a step that reaches a next state can be: a halt on an unlisted word, or an instruction between the phases. -/
theorem step_next_cases {s u : State} (h : step s = .next u) :
    s.run = .running ∧ ∃ w, s.fetch s.pc.toNat = some w ∧
      ((∃ why, decode w = .error why ∧ s.params.unlistedPolicy = .haltFC ∧
          u = (preStep s).setRun (.halted unknownOpcodeCode (some "unknown opcode"))) ∨
        ∃ i t, decode w = .ok i ∧ exec i (preStep s) = .next t ∧ u = finishStep t) := by
  cases hr : s.run with
  | halted c m => simp [step, hr] at h
  | running =>
    cases hf : s.fetch s.pc.toNat with
    | none => simp [step, hr, fetchAndExecute, hf] at h
    | some w =>
      refine ⟨rfl, w, rfl, ?_⟩
      cases hd : decode w with
      | error why =>
        left
        rw [step_of_unlisted hr hf hd] at h
        unfold unlistedWord at h
        rw [preStep_params] at h
        cases hp : s.params.unlistedPolicy with
        | haltFC => rw [hp] at h; exact ⟨why, rfl, rfl, by simpa [raiseHalt] using h.symm⟩
        | refuse => rw [hp] at h; simp at h
      | ok i =>
        right
        rw [step_of_decode hr hf hd] at h
        cases he : exec i (preStep s) with
        | next t => rw [he] at h; exact ⟨i, t, rfl, he, by simpa [afterExecute] using h.symm⟩
        | fault f => rw [he] at h; simp [afterExecute] at h
        | refused q => rw [he] at h; simp [afterExecute] at h

/-- Everything a step of a running machine that faults can be: the end of the stream, an unlisted word under `refuse`, or a
fault of the instruction. -/
theorem step_fault_cases {s : State} {f : Fault} (hr : s.run = .running) (h : step s = .fault f) :
    (f = .endOfStream ∧ s.fetch s.pc.toNat = none) ∨
    ∃ w, s.fetch s.pc.toNat = some w ∧
      ((f = .unlisted ∧ s.params.unlistedPolicy = .refuse ∧ ∃ why, decode w = .error why) ∨
        ∃ i, decode w = .ok i ∧ exec i (preStep s) = .fault f) := by
  cases hf : s.fetch s.pc.toNat with
  | none => left; simpa [step, hr, fetchAndExecute, hf, eq_comm] using h
  | some w =>
    refine .inr ⟨w, rfl, ?_⟩
    cases hd : decode w with
    | error why =>
      left
      rw [step_of_unlisted hr hf hd] at h
      unfold unlistedWord at h
      rw [preStep_params] at h
      cases hp : s.params.unlistedPolicy with
      | haltFC => rw [hp] at h; simp [raiseHalt] at h
      | refuse => rw [hp] at h; exact ⟨by simpa [eq_comm] using h, rfl, why, rfl⟩
    | ok i =>
      right
      rw [step_of_decode hr hf hd] at h
      cases he : exec i (preStep s) with
      | next t => rw [he] at h; simp [afterExecute] at h
      | fault g => rw [he] at h; exact ⟨i, rfl, by simpa [afterExecute, he] using h⟩
      | refused q => rw [he] at h; simp [afterExecute] at h

/-- The pre-step phase changes nothing that the cause of a fault is about. -/
theorem faultCause_preStep (i : Instr) (s : State) (f : Fault) : faultCause i (preStep s) f ↔ faultCause i s f := by
  cases f <;> simp [faultCause, valuesPushed, State.descriptorAt]

end Sys2Proof.Machine
end

