-- ==== Sys2Proof/Tests/Slice0.lean ====
section
/-!
SUPPORT. The model's own tests. Words and expected results are those of spec/95_test_vectors.md and of the rules' examples;
none is the model's own answer. The last section shows a state and operands that meet the hypotheses of each statement.
-/

namespace Sys2Proof.Tests

open Sys2Proof Sys2Proof.Machine

/-! ## Well-formedness: the one check -/

/-- spec/30_encoding R55: 0x10 and 0xF0 have no encoding in `ldi`; 0x0F, 0x11 and 0xFF have one. -/
theorem test_wellFormed_ldi :
    Instr.wellFormed (.ldi 1 0x10) = false ∧ Instr.wellFormed (.ldi 1 0xF0) = false ∧
    Instr.wellFormed (.ldi 1 0x0F) = true ∧ Instr.wellFormed (.ldi 1 0x11) = true ∧
    Instr.wellFormed (.ldi 1 0xFF) = true := by decide

/-! ## Decoding: every constructor, by a word written out from its rule -/

/-- R65..R68. -/
theorem test_decode_system :
    decode 0x0FFFFFFFF = .ok .haltF ∧ decode 0x00FFFFFFF = .ok .halt0 ∧ decode 0x01FFFFFFF = .ok .halt1 ∧
    decode 0x0012345FF = .ok .nop := by decide

/-- R69..R73. -/
theorem test_decode_moves :
    decode 0x011005000 = .ok (.ldi 1 5) ∧ decode 0x011000500 = .ok (.ldi 1 5) ∧ decode 0x011002300 = .ok (.ldi 1 0x23) ∧
    decode 0x01200400A = .ok (.ldiM 0x20 0x40) ∧ decode 0x01030100A = .ok (.ldiM 0x03 0x10) ∧
    decode 0x031200000 = .ok (.swap 1 2) ∧ decode 0xB30540000 = .ok (.dup 0x05 0x40) ∧
    decode 0xA12000000 = .ok (.pull 2) := by decide

/-- R74..R77. -/
theorem test_decode_devices :
    decode 0x0F103000E = .ok (.wdevS 1 0 3) ∧ decode 0x0F211234C = .ok (.wdevL 2 1 1 2 3 4) ∧
    decode 0xA41200000 = .ok (.rdev 1 2) ∧ decode 0x0F103000F = .ok (.emit 1 0 3) := by decide

/-- R78..R86. -/
theorem test_decode_control :
    decode 0x084000C00 = .ok (.pcap 4) ∧ decode 0x083000F00 = .ok (.jumpT 3) ∧
    decode 0x081230F10 = .ok (.jumpE 1 2 3) ∧ decode 0x083120F20 = .ok (.jumpG 3 1 2) ∧
    decode 0x081230F30 = .ok (.jumpU 1 2 3) ∧ decode 0x081230F40 = .ok (.jumpY 1 2 3) ∧
    decode 0xA02000000 = .ok (.orb 2) ∧ decode 0xA5F000001 = .ok (.sig 15) ∧ decode 0xA50000002 = .ok .ret := by decide

/-- R90..R100. -/
theorem test_decode_alu :
    decode 0xB14000000 = .ok (.inc 4) ∧ decode 0xB21000000 = .ok (.dec 1) ∧
    decode 0xCA3120000 = .ok (.add 3 1 2) ∧ decode 0xCB3120000 = .ok (.sub 3 1 2) ∧
    decode 0xCC3120000 = .ok (.mul 3 1 2) ∧ decode 0xCD3120000 = .ok (.div 3 1 2) ∧
    decode 0xCE3120000 = .ok (.pow 3 1 2) ∧ decode 0xCF6500000 = .ok (.sqrt 6 5) ∧
    decode 0xB50102000 = .ok (.xor 0x01 0x02) ∧ decode 0xB61002000 = .ok (.or 0x10 0x02) ∧
    decode 0xB40500000 = .ok (.ckft 0x05) := by decide

/-- R101..R103, R106..R108. -/
theorem test_decode_frame_and_debug :
    decode 0x362000000 = .ok (.xcall 2) ∧ decode 0x381000000 = .ok (.locals 1) ∧ decode 0x370000000 = .ok .prune ∧
    decode 0xC10000001 = .ok .brkNow ∧ decode 0xC10000002 = .ok .brkNext ∧ decode 0xC10000003 = .ok .brkAfter := by decide

/-- R111..R123. -/
theorem test_decode_math_low :
    decode 0xD01200000 = .ok (.abs 1 2) ∧ decode 0xD11200000 = .ok (.sin 1 2) ∧ decode 0xD21200000 = .ok (.cos 1 2) ∧
    decode 0xD31200000 = .ok (.tan 1 2) ∧ decode 0xD41200000 = .ok (.asin 1 2) ∧ decode 0xD51200000 = .ok (.acos 1 2) ∧
    decode 0xD61200000 = .ok (.atan 1 2) ∧ decode 0xD71200000 = .ok (.sinh 1 2) ∧ decode 0xD81200000 = .ok (.cosh 1 2) ∧
    decode 0xD91200000 = .ok (.tanh 1 2) ∧ decode 0xDA1200000 = .ok (.asinh 1 2) ∧ decode 0xDB1200000 = .ok (.acosh 1 2) ∧
    decode 0xDC1200000 = .ok (.atanh 1 2) := by decide

/-- R124..R135. -/
theorem test_decode_math_high :
    decode 0xDD1200000 = .ok (.ceiling 1 2) ∧ decode 0xDE1200000 = .ok (.floor 1 2) ∧
    decode 0xDF1200000 = .ok (.truncate 1 2) ∧ decode 0xE01200000 = .ok (.log 1 2) ∧ decode 0xE11200000 = .ok (.log10 1 2) ∧
    decode 0xE21200000 = .ok (.exp 1 2) ∧ decode 0xE31200000 = .ok (.cbrt 1 2) ∧ decode 0xE41230000 = .ok (.atan2 1 2 3) ∧
    decode 0xE51230000 = .ok (.min 1 2 3) ∧ decode 0xE61230000 = .ok (.max 1 2 3) ∧
    decode 0xE71200000 = .ok (.bitinc 1 2) ∧ decode 0xE81200000 = .ok (.bitdec 1 2) := by decide

/-- spec/95 2.1: unlisted words, and words one bit away from a halt word. -/
theorem test_decode_unlisted :
    decode 0x01FFFFFFE = .error (.unknownSelector 0x01) ∧ decode 0x010000005 = .error (.unknownSelector 0x01) ∧
    decode 0x080000F50 = .error (.unknownSelector 0x08) ∧ decode 0x080000A00 = .error (.unknownSelector 0x08) ∧
    decode 0x090000000 = .error (.unknownIid 0x09) ∧ decode 0xA50000003 = .error (.unknownSelector 0xA5) ∧
    decode 0xC10000000 = .error (.unknownSelector 0xC1) ∧ decode 0xE90000000 = .error (.unknownIid 0xE9) ∧
    decode 0x00FFFFFFE = .ok .nop ∧ decode 0x0FFFFFFFE = .ok (.wdevS 15 15 15) := by decide

/-- R60 and the words of spec/95: the encoder. -/
theorem test_encode :
    encode (.jumpG 3 1 2) = 0x083120F20 ∧ encode (.ldi 1 5) = 0x011005000 ∧ encode (.ldi 1 0xFF) = 0x01100FF00 ∧
    encode (.ldiM 0x10 0x40) = 0x01100400A ∧ encode (.dup 0x05 0x40) = 0xB30540000 ∧
    encode (.wdevL 2 1 1 2 3 4) = 0x0F211234C ∧ encode (.or 0x10 0x02) = 0xB61002000 ∧ encode .haltF = 0x0FFFFFFFF ∧
    encode .brkAfter = 0xC10000003 := by decide

/-! ## One step each -/

/-- A launch of one program with some cells listed; devices 1 and 2 are present. -/
def start (program : List Word) (cells : Memory) : State :=
  { State.reset with program := program, cells := cells, params := { Params.default with devices := [1, 2] } }

/-- The same in float mode. -/
def startFloat (program : List Word) (cells : Memory) : State := { start program cells with ff := true }

/-- A cell of the next state. -/
def cellAfter (r : Result) (i : Nat) : Option Word :=
  match r with
  | .next t => some (t.cell i)
  | .fault _ => none
  | .refused _ => none

/-- Cell `i` and the pc after one step. -/
def cellAndPc (s : State) (i : Nat) : Option (Word × Word) :=
  match step s with
  | .next t => some (t.cell i, t.pc)
  | .fault _ => none
  | .refused _ => none

/-- The stack and the pc after one step. -/
def stackAndPc (s : State) : Option (List Word × Word) :=
  match step s with
  | .next t => some (t.stack, t.pc)
  | .fault _ => none
  | .refused _ => none

/-- The halt code and the pc after one step. -/
def haltAndPc (s : State) : Option (Nat × Word) :=
  match step s with
  | .next t =>
    match t.run with
    | .halted code _ => some (code, t.pc)
    | .running => none
  | .fault _ => none
  | .refused _ => none

/-- The device writes of one step. -/
def writesOf (s : State) : Option (List (Nat × Nat × Nat)) :=
  match step s with
  | .next t => some (t.devWrites.map fun w => (w.device.toNat, w.port.toNat, w.value.toNat))
  | .fault _ => none
  | .refused _ => none

/-- The hook record and the break cell after one step. -/
def hooksAndBrk (s : State) : Option (List Word × BreakMode) :=
  match step s with
  | .next t => some (t.hookEvents, t.brk)
  | .fault _ => none
  | .refused _ => none

/-- The fault of one step. -/
def faultOf (s : State) : Option Fault :=
  match step s with
  | .next _ => none
  | .fault f => some f
  | .refused _ => none

/-- The frame and the pc after one step. -/
def frameAndPc (s : State) : Option (Option Frame × Word) :=
  match step s with
  | .next t => some (t.frame, t.pc)
  | .fault _ => none
  | .refused _ => none

/-- R66, R67, R68: the pc stays. -/
theorem test_halts :
    haltAndPc { start [0, 0, 0, 0x0FFFFFFFF] [] with pc := 3 } = some (0xF, 3) ∧
    haltAndPc (start [0x00FFFFFFF] []) = some (0x0, 0) ∧ haltAndPc (start [0x01FFFFFFF] []) = some (0x1, 0) := by decide

/-- R65. -/
theorem test_nop : stackAndPc { start [0, 0, 0, 0, 0, 0] [] with pc := 5 } = some ([], 6) := by decide

theorem test_ldi : cellAndPc (start [0x011002300] [(1, 0xFFFFFFFFFFFFFFFF)]) 1 = some (0x23, 1) := by decide
theorem test_ldi_u2_zero : cellAndPc (start [0x011001000] []) 1 = some (1, 1) := by decide
theorem test_ldiM : cellAndPc (start [0x01200400A] []) 32 = some (0x40, 1) := by decide

/-- spec/95 2.11: with 17 cells, cell 32 is out of range. -/
theorem test_ldiM_out_of_range :
    step { start [0x01200100A] [] with params := { Params.default with memCells := 17 } } =
      .next { start [0x01200100A] [] with
        params := { Params.default with memCells := 17 }
        run := .halted Config.oorHaltCode (Config.haltMessage .cellRange 0) } := by rfl

theorem test_swap_first : cellAndPc (start [0x031200000] [(1, 7), (2, 9)]) 1 = some (9, 1) := by decide
theorem test_swap_same : cellAndPc (start [0x033300000] [(3, 5)]) 3 = some (5, 1) := by decide
theorem test_dup : cellAndPc (start [0xB30540000] [(5, 0xFFFFFFFF40800000)]) 64 = some (0xFFFFFFFF40800000, 1) := by decide
theorem test_pull : cellAndPc { start [0xA12000000] [] with stack := [9, 4] } 2 = some (9, 1) := by decide
theorem test_pull_empty : faultOf (start [0xA12000000] []) = some .stackUnderflow := by decide

theorem test_wdevS : writesOf (start [0x0F103000E] [(3, 0x1234)]) = some [(1, 0, 0x34)] := by decide
theorem test_wdevL : writesOf (start [0x0F211234C] []) = some [(2, 1, 0x01020304)] := by decide

/-- R75's alternative assembly. -/
theorem test_wdevL_dense :
    writesOf { start [0x0F211234C] [] with params := { Params.default with devices := [2], longAssembly := .dense } } =
      some [(2, 1, 0x1234)] := by decide

theorem test_rdev : step (start [0xA41200000] []) =
    .next { start [0xA41200000] [] with stack := [Config.deviceAnswer 0 1 2], pc := 1, draws := 1 } := by rfl
theorem test_emit : writesOf (start [0x0F103000F] [(3, 42)]) = some [(1, 0, 0x34), (1, 0, 0x32)] := by decide
theorem test_emit_zero : writesOf (start [0x0F103000F] []) = some [(1, 0, 0x30)] := by decide

theorem test_pcap : cellAndPc { start [0, 0, 0, 0, 0, 0, 0, 0x084000C00] [] with pc := 7 } 4 = some (7, 8) := by decide
theorem test_jumpT : stackAndPc (start [0x083000F00] [(3, 10)]) = some ([], 10) := by decide
theorem test_jumpE_equal : stackAndPc (start [0x081230F10] [(1, 9), (2, 5), (3, 5)]) = some ([], 9) := by decide
theorem test_jumpG_equal : stackAndPc (start [0x081230F20] [(1, 9), (2, 5), (3, 5)]) = some ([], 1) := by decide
theorem test_jumpG_unsigned : stackAndPc (start [0x081230F20] [(1, 9), (2, 0xFFFFFFFFFFFFFFFF)]) = some ([], 9) := by decide
theorem test_jumpU_unsigned : stackAndPc (start [0x081230F30] [(1, 9), (2, 0xFFFFFFFFFFFFFFFF)]) = some ([], 1) := by decide
theorem test_jumpU_less : stackAndPc (start [0x081230F30] [(1, 9), (2, 1), (3, 4)]) = some ([], 9) := by decide
theorem test_jumpY : stackAndPc (start [0x081230F40] [(1, 9), (2, 6), (3, 4)]) = some ([], 1) := by decide
theorem test_orb : stackAndPc (start [0xA02000000, 0xAAA, 0xBBB] []) = some ([0xBBB, 0xAAA], 3) := by decide
theorem test_orb_end : haltAndPc (start [0xA03000000, 0xAAA] []) = some (0xA1, 0) := by decide

/-- spec/95 2.4: `sig r15` at pc 1, `ret` at pc 2. -/
theorem test_sig : cellAndPc { start [0, 0xA5F000001, 0xA50000002] [] with pc := 1 } 16 = some (1, 3) := by decide

/-- spec/95 2.4: a halt word between `sig` and `ret` is scanned, not executed. -/
theorem test_sig_scans : stackAndPc { start [0, 0xA52000001, 0x0FFFFFFFF, 0, 0xA50000002] [] with pc := 1 } =
    some ([], 5) := by decide
theorem test_ret : faultOf (start [0xA50000002] []) = some .retOutsideScan := by decide

theorem test_inc : cellAndPc (startFloat [0xB14000000] [(4, 0x3F800000)]) 4 = some (0x3F800001, 1) := by decide
theorem test_inc_wraps : cellAndPc (start [0xB14000000] [(4, 0xFFFFFFFFFFFFFFFF)]) 4 = some (0, 1) := by decide
theorem test_dec_wraps : cellAndPc (start [0xB21000000] []) 1 = some (0xFFFFFFFFFFFFFFFF, 1) := by decide
theorem test_dec_ignores_sf : stackAndPc { start [0xB21000000] [(1, 3)] with sf := true } = some ([], 1) := by decide
theorem test_add_stack : stackAndPc { start [0xCA3120000] [(1, 5), (2, 3)] with sf := true } = some ([8], 1) := by decide
theorem test_add_float :
    cellAndPc (startFloat [0xCA3120000] [(1, 0xFFFFFFFF3F800000), (2, 0x3F800000)]) 3 = some (0x40000000, 1) := by decide
theorem test_sub : cellAndPc (start [0xCB3120000] [(1, 3), (2, 5)]) 3 = some (0xFFFFFFFFFFFFFFFE, 1) := by decide
theorem test_sub_float : cellAndPc (startFloat [0xCB3120000] [(1, 0x3F800000), (2, 0x3F800000)]) 3 = some (0, 1) := by decide
theorem test_mul :
    cellAndPc (start [0xCC3120000] [(1, 0xFFFFFFFFFFFFFFFF), (2, 0xFFFFFFFFFFFFFFFF)]) 3 = some (1, 1) := by decide
theorem test_mul_float :
    cellAndPc (startFloat [0xCC3120000] [(1, 0x40400000), (2, 0x3F000000)]) 3 = some (0x3FC00000, 1) := by decide
theorem test_div_unsigned :
    cellAndPc (start [0xCD3120000] [(1, 0xFFFFFFFFFFFFFFFF), (2, 2)]) 3 = some (0x7FFFFFFFFFFFFFFF, 1) := by decide
theorem test_div_zero : haltAndPc (start [0xCD3120000] [(1, 7)]) = some (0xC, 0) := by decide
theorem test_div_float_by_negative_zero :
    cellAndPc (startFloat [0xCD3120000] [(1, 0x3F800000), (2, 0x80000000)]) 3 = some (0xFF800000, 1) := by decide

/-- R88's signed option: -7 / 2 truncates to -3. -/
theorem test_div_signed :
    cellAndPc { start [0xCD3120000] [(1, 0xFFFFFFFFFFFFFFF9), (2, 2)] with
      params := { Params.default with intDivSigned := true } } 3 = some (0xFFFFFFFFFFFFFFFD, 1) := by decide
theorem test_pow : cellAndPc (start [0xCE3120000] [(1, 2), (2, 10)]) 3 = some (1024, 1) := by decide
theorem test_pow_zero : cellAndPc (start [0xCE3120000] []) 3 = some (1, 1) := by decide
theorem test_sqrt : cellAndPc (start [0xCF3100000] [(1, 0xFFFFFFFFFFFFFFFF)]) 3 = some (0xFFFFFFFF, 1) := by decide +kernel
theorem test_sqrt_float : cellAndPc (startFloat [0xCF3100000] [(1, 0x40000000)]) 3 = some (0x3FB504F3, 1) := by decide +kernel
theorem test_xor : cellAndPc (start [0xB50102000] [(1, 0xC), (2, 0xA)]) 1 = some (0x6, 1) := by decide
theorem test_xor_float : faultOf (startFloat [0xB52002000] []) = some .bitwiseInFloatMode := by decide
theorem test_or : cellAndPc (start [0xB60102000] [(1, 0xC), (2, 0xA)]) 1 = some (0xE, 1) := by decide
theorem test_or_stack : stackAndPc { start [0xB61002000] [(2, 2), (16, 1)] with sf := true } = some ([3], 1) := by decide
theorem test_ckft_halts : haltAndPc (startFloat [0xB40500000] [(5, 0xFF800000)]) = some (0xA9, 0) := by decide
theorem test_ckft_passes : stackAndPc (startFloat [0xB40500000] [(5, 0x7F7FFFFF)]) = some ([], 1) := by decide

/-- spec/95 2.6: `+inf + -inf` takes a NaN draw and goes on. -/
theorem test_add_nan : step (startFloat [0xCA3120000] [(1, 0x7F800000), (2, 0xFF800000)]) =
    .next { startFloat [0xCA3120000] [(1, 0x7F800000), (2, 0xFF800000)] with
      cells := Memory.write [(1, 0x7F800000), (2, 0xFF800000)] 3 (box (nanPattern 0)), pc := 1, draws := 1 } := by rfl

theorem test_abs_nan : cellAndPc (startFloat [0xD01200000] [(2, 0xFFC00001)]) 1 = some (0x7FC00001, 1) := by decide
theorem test_abs_integer_mode : haltAndPc { start [0xD01200000] [] with sf := true } = some (0xA9, 0) := by decide
theorem test_ceiling : cellAndPc (startFloat [0xDD1200000] [(2, 0xBF000000)]) 1 = some (0x80000000, 1) := by decide
theorem test_floor : cellAndPc (startFloat [0xDE1200000] [(2, 0xC0200000)]) 1 = some (0xC0400000, 1) := by decide
theorem test_truncate : cellAndPc (startFloat [0xDF1200000] [(2, 0xC0200000)]) 1 = some (0xC0000000, 1) := by decide
theorem test_min : cellAndPc (startFloat [0xE51230000] [(3, 0x80000000)]) 1 = some (0x80000000, 1) := by decide
theorem test_max : cellAndPc (startFloat [0xE61230000] [(3, 0x80000000)]) 1 = some (0, 1) := by decide
theorem test_bitinc : cellAndPc (startFloat [0xE71200000] [(2, 0xFF800000)]) 1 = some (0xFF7FFFFF, 1) := by decide
theorem test_bitdec : cellAndPc (startFloat [0xE81200000] []) 1 = some (0x80000001, 1) := by decide

/-! R112..R123, R127..R131 under `ff = 0`: a host function halts, as E6(b) says of `cbrt`. -/

theorem test_trigonometric_need_float_mode :
    haltAndPc (start [0xD11200000] []) = some (0xA9, 0) ∧
    haltAndPc (start [0xD21200000] []) = some (0xA9, 0) ∧
    haltAndPc (start [0xD31200000] []) = some (0xA9, 0) ∧
    haltAndPc (start [0xD41200000] []) = some (0xA9, 0) ∧
    haltAndPc (start [0xD51200000] []) = some (0xA9, 0) ∧
    haltAndPc (start [0xD61200000] []) = some (0xA9, 0) := by decide

theorem test_hyperbolic_need_float_mode :
    haltAndPc (start [0xD71200000] []) = some (0xA9, 0) ∧
    haltAndPc (start [0xD81200000] []) = some (0xA9, 0) ∧
    haltAndPc (start [0xD91200000] []) = some (0xA9, 0) ∧
    haltAndPc (start [0xDA1200000] []) = some (0xA9, 0) ∧
    haltAndPc (start [0xDB1200000] []) = some (0xA9, 0) ∧
    haltAndPc (start [0xDC1200000] []) = some (0xA9, 0) := by decide

theorem test_logarithms_need_float_mode :
    haltAndPc (start [0xE01200000] []) = some (0xA9, 0) ∧
    haltAndPc (start [0xE11200000] []) = some (0xA9, 0) ∧
    haltAndPc (start [0xE21200000] []) = some (0xA9, 0) ∧
    haltAndPc (start [0xE36500000] []) = some (0xA9, 0) ∧
    haltAndPc (start [0xE41230000] []) = some (0xA9, 0) := by decide

theorem test_locals :
    frameAndPc { start [0x381000000, 0xA, 0] [] with params := { Params.default with typeTags := [0xA] } } =
      some (some ⟨1, [some ⟨0xA⟩], []⟩, 3) := by decide
theorem test_locals_bad_slot :
    faultOf { start [0x381000000, 0xA, 1] [] with params := { Params.default with typeTags := [0xA] } } =
      some .badSlot := by decide
theorem test_prune :
    frameAndPc { start [0x370000000] [] with frame := some ⟨1, [none], []⟩ } = some (none, 1) := by decide
theorem test_prune_none : faultOf (start [0x370000000] []) = some .pruneWithoutFrame := by decide

/-- spec/95 2.9: a routine with arguments; the signature is the low 32 bits. -/
theorem test_xcall_args :
    haltAndPc { start [0x362000000] [(2, 0xFFFFFFFF1234ABCD)] with
      params := { Params.default with registry := [(0x1234ABCD, .found ⟨true, false⟩)] } } = some (0xA22, 0) := by decide

/-- R106, R107, R108 and spec/95 2.10. -/
theorem test_brk :
    hooksAndBrk { start [0, 0, 0xC10000001] [] with pc := 2 } = some ([2], .idle) ∧
    hooksAndBrk { start [0, 0, 0xC10000002] [] with pc := 2 } = some ([3], .idle) ∧
    hooksAndBrk (start [0xC10000003, 0] []) = some ([], .armedDeferred) ∧
    hooksAndBrk { start [0xC10000003, 0] [] with pc := 1, brk := .armedDeferred } = some ([2], .idle) ∧
    hooksAndBrk { start [0, 0x00FFFFFFF] [] with pc := 1, brk := .armedDeferred } = some ([], .triggerNow) ∧
    hooksAndBrk { start [0x00FFFFFFF] [] with bf := true } = some ([0], .idle) := by decide

/-- E7: an unlisted word halts with 0xFC and keeps the pc. -/
theorem test_unlisted : haltAndPc { start [0, 0x090000000] [] with pc := 1 } = some (0xFC, 1) := by decide

/-- R64 and R31: the end of the stream, and a halted machine. -/
theorem test_no_step :
    faultOf { start [0] [] with pc := 1 } = some .endOfStream ∧
    faultOf { start [0] [] with run := .halted 0 none } = some .noStepWhenHalted := by decide

/-! ## The host's two functions -/

theorem test_decodeTableWord : decodeTableWord 64 0xCA3120000 = some (.add 3 1 2) := by decide

theorem test_withFetchWord : cellAndPc (State.reset.withFetchWord 64 0x011005000) 1 = some (5, 1) := by decide

/-! ## Witnesses: a state and operands that meet the hypotheses of each statement -/

/-- The least legal launch: 17 cells and room for one value; device 1 is present. -/
def small : State :=
  { State.reset with
    params := { Params.default with memCells := 17, stackDepth := some 1, devices := [1], typeTags := [0xA] } }

/-- The same with a full stack. -/
def full : State := { small with stack := [7] }

/-- A register is the last of the 17 cells but one. -/
theorem witness_RegistersExist : RegistersExist small ∧ RegistersExist full := ⟨(by decide : 17 ≤ 17), (by decide : 17 ≤ 17)⟩

/-- `EncodedAs`, row by row: a word with the row's bits under the row's mask, its other bits not 0, that is no halt word. -/
theorem witness_EncodedAs_low :
    ([(0x000000000, 0xFF0000000, 0x0012345FF), (0x010000000, 0xFF000000F, 0x01F0FFF00), (0x01000000A, 0xFF000000F, 0x01FFFFFFA),
      (0x030000000, 0xFF0000000, 0x03FFFFFFF), (0x080000C00, 0xFF0000F00, 0x08FFFFCFF), (0x080000F00, 0xFF0000FF0, 0x08FFFFF0F),
      (0x080000F10, 0xFF0000FF0, 0x08FFFFF1F), (0x080000F20, 0xFF0000FF0, 0x08FFFFF2F), (0x080000F30, 0xFF0000FF0, 0x08FFFFF3F),
      (0x080000F40, 0xFF0000FF0, 0x08FFFFF4F), (0x0F000000E, 0xFF000000F, 0x0FFFFFFFE), (0x0F000000C, 0xFF000000F, 0x0FFFFFFFC),
      (0x0F000000F, 0xFF000000F, 0x0FFFFFF0F), (0x360000000, 0xFF0000000, 0x36FFFFFFF), (0x370000000, 0xFF0000000, 0x37FFFFFFF),
      (0x380000000, 0xFF0000000, 0x38FFFFFFF)] : List (Word × Word × Word)).all
      (fun e => e.2.2 &&& e.2.1 == e.1 && haltPattern (fields e.2.2) == none) = true := by decide

theorem witness_EncodedAs_middle :
    ([(0xA00000000, 0xFF0000000, 0xA0FFFFFFF), (0xA10000000, 0xFF0000000, 0xA1FFFFFFF), (0xA40000000, 0xFF0000000, 0xA4FFFFFFF),
      (0xA50000001, 0xFF000000F, 0xA5FFFFFF1), (0xA50000002, 0xFF000000F, 0xA5FFFFFF2), (0xB10000000, 0xFF0000000, 0xB1FFFFFFF),
      (0xB20000000, 0xFF0000000, 0xB2FFFFFFF), (0xB30000000, 0xFF0000000, 0xB3FFFFFFF), (0xB40000000, 0xFF0000000, 0xB4FFFFFFF),
      (0xB50000000, 0xFF0000000, 0xB5FFFFFFF), (0xB60000000, 0xFF0000000, 0xB6FFFFFFF), (0xC10000001, 0xFF000000F, 0xC1FFFFFF1),
      (0xC10000002, 0xFF000000F, 0xC1FFFFFF2), (0xC10000003, 0xFF000000F, 0xC1FFFFFF3), (0xCA0000000, 0xFF0000000, 0xCAFFFFFFF),
      (0xCB0000000, 0xFF0000000, 0xCBFFFFFFF), (0xCC0000000, 0xFF0000000, 0xCCFFFFFFF), (0xCD0000000, 0xFF0000000, 0xCDFFFFFFF),
      (0xCE0000000, 0xFF0000000, 0xCEFFFFFFF), (0xCF0000000, 0xFF0000000, 0xCFFFFFFFF)] : List (Word × Word × Word)).all
      (fun e => e.2.2 &&& e.2.1 == e.1 && haltPattern (fields e.2.2) == none) = true := by decide

theorem witness_EncodedAs_math :
    ([(0xD00000000, 0xD0FFFFFFF), (0xD10000000, 0xD1FFFFFFF), (0xD20000000, 0xD2FFFFFFF), (0xD30000000, 0xD3FFFFFFF),
      (0xD40000000, 0xD4FFFFFFF), (0xD50000000, 0xD5FFFFFFF), (0xD60000000, 0xD6FFFFFFF), (0xD70000000, 0xD7FFFFFFF),
      (0xD80000000, 0xD8FFFFFFF), (0xD90000000, 0xD9FFFFFFF), (0xDA0000000, 0xDAFFFFFFF), (0xDB0000000, 0xDBFFFFFFF),
      (0xDC0000000, 0xDCFFFFFFF), (0xDD0000000, 0xDDFFFFFFF), (0xDE0000000, 0xDEFFFFFFF), (0xDF0000000, 0xDFFFFFFFF),
      (0xE00000000, 0xE0FFFFFFF), (0xE10000000, 0xE1FFFFFFF), (0xE20000000, 0xE2FFFFFFF), (0xE30000000, 0xE3FFFFFFF),
      (0xE40000000, 0xE4FFFFFFF), (0xE50000000, 0xE5FFFFFFF), (0xE60000000, 0xE6FFFFFFF), (0xE70000000, 0xE7FFFFFFF),
      (0xE80000000, 0xE8FFFFFFF)] : List (Word × Word)).all
      (fun e => e.2 &&& 0xFF0000000 == e.1 && haltPattern (fields e.2) == none) = true := by decide

theorem witness_DecodeOfEncodeGivesTheInstruction :
    Instr.wellFormed (.ldi 15 0xFF) = true ∧ Instr.wellFormed (.ldi 0 0x0F) = true ∧ Instr.wellFormed (.dup 0xFF 0x00) = true ∧
    Instr.wellFormed .haltF = true := by decide

theorem witness_EncoderInvertsFieldDecoder :
    (0xFFFFFFFFF : Word).extractLsb' 36 28 = 0 ∧ (0 : Word).extractLsb' 36 28 = 0 := by decide

theorem witness_HighBitsOfAWordAreIgnoredButKept :
    (0xFFFFFFFCA3120000 : Word).extractLsb' 0 36 = (0xCA3120000 : Word).extractLsb' 0 36 ∧
    small.hasRoom 1 = true ∧ { small with program := [0xA01000000, 0xFFFFFFFCA3120000] }.fetch 1 = some 0xFFFFFFFCA3120000 := by
  decide

theorem witness_HaltWordsMatchExactlyAndHalt :
    (Instr.halt1, 0x01FFFFFFF#64, 0x1) ∈ [(Instr.haltF, 0x0FFFFFFFF#64, 0xF), (Instr.halt0, 0x00FFFFFFF#64, 0x0),
      (Instr.halt1, 0x01FFFFFFF#64, 0x1)] := by decide

/-- The first and the last iid of each gap of R57(a), and a word of each of (b) to (f). -/
theorem witness_UnlistedWordsAreExactlyTheseAndHalt :
    ([0x020000000, 0x040000000, 0x070000000, 0x090000000, 0x0E0000000, 0x100000000, 0x350000000, 0x390000000, 0x9F0000000,
      0xA20000000, 0xA30000000, 0xA60000000, 0xB00000000, 0xB70000000, 0xC00000000, 0xC20000000, 0xC90000000, 0xE90000000,
      0xFF0000000, 0x010000001, 0x01FFFFFFE, 0x080000B00, 0x080000F50, 0x080000FF0, 0x0F000000D, 0xA50000000, 0xA50000003,
      0xC10000000, 0xC10000004] : List Word).all (fun w => !(decode w).isOk) = true ∧
    small.run = .running ∧ { small with program := [0x020000000] }.fetch 0 = some 0x020000000 ∧
    small.params.unlistedPolicy = .haltFC := by decide

theorem witness_UnlistedWordHaltsOrFaultsByPolicy :
    decode 0x090000000 = .error (.unknownIid 0x09) ∧ small.params.unlistedPolicy = .haltFC ∧
    { small with params := { Params.default with unlistedPolicy := .refuse } }.params.unlistedPolicy = .refuse := by decide

theorem witness_LdiLoadsTheEncodableImmediates :
    (0x0F : Byte).toNat < 16 ∧ 16 ≤ (0x11 : Byte).toNat ∧ (0x11 : Byte).toNat % 16 ≠ 0 ∧ (0xFF : Byte).toNat % 16 ≠ 0 ∧
    16 ≤ (0x10 : Byte).toNat ∧ (0x10 : Byte).toNat % 16 = 0 ∧ (0xF0 : Byte).toNat % 16 = 0 ∧
    decode 0x011002300 = .ok (.ldi 1 0x23) := by decide

theorem witness_StepRunsTheDecodedInstruction :
    { small with program := [0xCA3120000] }.run = .running ∧
    { small with program := [0xCA3120000] }.fetch 0 = some 0xCA3120000 ∧ decode 0xCA3120000 = .ok (.add 3 1 2) := by decide

theorem witness_FetchPastTheEndFaults : small.run = .running ∧ small.program.length ≤ small.pc.toNat := by decide

theorem witness_HaltKeepsThePcAndIsFinal :
    (∃ t, step (start [0x00FFFFFFF] []) = .next t ∧ t.run = .halted 0 none) ∧
    { small with run := .halted 0xFC (some "unknown opcode") }.run = .halted 0xFC (some "unknown opcode") := ⟨⟨_, rfl, rfl⟩, rfl⟩

theorem witness_PreStepAndPostStepPhases :
    (∃ t, step (start [0] []) = .next t ∧ t.run = .running) ∧
    ∃ t, step (start [0x00FFFFFFF] []) = .next t ∧ t.run = .halted 0 none := ⟨⟨_, rfl, rfl⟩, _, rfl, rfl⟩

theorem witness_DeferredBreakFiresOnceAtTheEndOfTheNextStep :
    (∃ t, step (start [0xC10000003] []) = .next t) ∧
    (∃ t, step { start [0] [] with brk := .armedDeferred } = .next t ∧ t.run = .running) ∧
    (∃ t, step { start [0x00FFFFFFF] [] with brk := .armedDeferred, bf := true } = .next t ∧ t.run = .halted 0 none) ∧
    isBreak .nop = false ∧ isBreak .halt0 = false := ⟨⟨_, rfl⟩, ⟨_, rfl, rfl⟩, ⟨_, rfl, rfl⟩, rfl, rfl⟩

/-- A state with a cell, a value on the stack and a frame, at its bounds, that meets the invariant and has a next step. -/
theorem witness_EveryStepKeepsTheInvariant :
    { full with cells := [(16, 9)], frame := some ⟨15, List.replicate 15 none, []⟩, program := [0] }.Inv ∧
    ∃ t, step { full with cells := [(16, 9)], frame := some ⟨15, List.replicate 15 none, []⟩, program := [0] } = .next t :=
  ⟨⟨by decide, by decide, by decide, fun f hf => by cases hf; exact ⟨rfl, Nat.le_refl 15⟩⟩, _, rfl⟩

theorem witness_NoStepWritesFlagsStreamOrParameters :
    ∃ t, step { start [0xCA3120000] [] with sf := true, bf := true, fw := true } = .next t := ⟨_, rfl⟩

theorem witness_ModeFlagsAreReadOnlyByTheListedInstructions :
    usesDest (.inc 1) = false ∧ readsFf (.inc 1) = false ∧ readsFf (.jumpE 1 2 3) = false ∧
    small.params.jumpCmp ≠ .floatInFloatMode := by decide

theorem witness_CellsAreWrittenOnlyWhereListed :
    (∃ t, exec (.sig 15) (start [0, 0xA50000002] []) = .next t) ∧
    17 ∉ cellsWritten (.sig 15) (start [0, 0xA50000002] []) := ⟨⟨_, rfl⟩, by decide⟩

theorem witness_StackChangesOnlyWhereListed :
    (∃ t, exec (.inc 1) full = .next t) ∧ canPush (.inc 1) = false ∧ (∀ rd, Instr.inc 1 ≠ .pull rd) ∧
    ∃ t, exec (.orb 1) (start [0, 9] []) = .next t := ⟨⟨_, rfl⟩, rfl, by decide, _, rfl⟩

theorem witness_FrameBreakCellAndRecordsChangeOnlyWhereListed :
    (∃ t, exec (.add 1 2 3) small = .next t) ∧ (∀ n, Instr.add 1 2 3 ≠ .locals n) ∧ Instr.add 1 2 3 ≠ .prune ∧
    Instr.add 1 2 3 ≠ .brkNext ∧ Instr.add 1 2 3 ≠ .brkAfter ∧ Instr.add 1 2 3 ≠ .brkNow ∧
    (∀ d p v, Instr.add 1 2 3 ≠ .wdevS d p v) ∧ (∀ d p a b c e, Instr.add 1 2 3 ≠ .wdevL d p a b c e) ∧
    (∀ d p v, Instr.add 1 2 3 ≠ .emit d p v) := by
  refine ⟨⟨_, rfl⟩, ?_, ?_, ?_, ?_, ?_, ?_, ?_, ?_⟩ <;> simp

theorem witness_PcAdvancesByOneUnlessRedirected :
    canRedirect .nop = false ∧ small.run = .running ∧ ∃ t, exec .nop small = .next t ∧ t.run = .running :=
  ⟨rfl, rfl, _, rfl, rfl⟩

theorem witness_EveryHaltCodeIsListed :
    ∃ t, step (start [0xCD3120000] []) = .next t ∧ t.run = .halted 0xC (Config.haltMessage .divisionByZero 0) :=
  ⟨_, rfl, rfl⟩

/-- Each model fault of an instruction, raised. -/
theorem witness_EveryModelFaultHasItsListedCause :
    exec (.pull 1) small = .fault .stackUnderflow ∧ exec (.sig 1) small = .fault .stackOverflow ∧
    valuesPushed (.orb 5) { small with program := [0, 1, 2] } = 2 ∧
    exec (.orb 5) { small with program := [0, 1, 2] } = .fault .stackOverflow ∧
    valuesPushed (.orb 5) { small with program := [0, 1] } = 1 ∧
    (∃ t, exec (.orb 5) { small with program := [0, 1] } = .next t) ∧
    step { small with program := [0xA50000002] } = .fault .retOutsideScan ∧ step small = .fault .endOfStream ∧
    step { small with program := [0x090000000], params := { small.params with unlistedPolicy := .refuse } } =
      .fault .unlisted ∧
    { small with run := .halted 0 none }.run = .halted 0 none ∧
    exec (.xor 1 2) { small with ff := true } = .fault .bitwiseInFloatMode ∧ exec .ret small = .fault .retOutsideScan ∧
    exec .prune small = .fault .pruneWithoutFrame ∧
    exec (.locals 1) { small with program := [0, 0xB, 0] } = .fault .badTypeTag ∧
    exec (.locals 1) { small with program := [0, 0xA, 1] } = .fault .badSlot ∧
    exec (.div 3 1 2) { start [] [(1, 0x8000000000000000), (2, 0xFFFFFFFFFFFFFFFF)] with
      params := { Params.default with intDivSigned := true } } = .fault .divOverflow :=
  ⟨rfl, rfl, rfl, rfl, rfl, ⟨_, rfl⟩, rfl, rfl, rfl, rfl, rfl, rfl, rfl, rfl, rfl, rfl⟩

theorem witness_CanonicalCellStoresThatReadAlikeAreEqual :
    Memory.wf [(1, 5), (16, 9)] = true ∧ Memory.wf (Memory.write [(16, 9)] 1 5) = true ∧
    ∀ i, Memory.read [(1, 5), (16, 9)] i = Memory.read (Memory.write [(16, 9)] 1 5) i := ⟨by decide, by decide, fun _ => rfl⟩

/-- In range and out of range, by one. -/
theorem witness_InRangeElseHalts :
    (0x10 : Byte).toNat < small.params.memCells ∧ ¬(0x11 : Byte).toNat < small.params.memCells := by decide

theorem witness_PullPopsIntoARegister : full.stack = 7 :: [] ∧ small.stack = [] := by decide

theorem witness_DeviceWritesRecordOneWrite :
    1 ∈ small.params.devices ∧ 2 ∉ small.params.devices ∧ small.params.longAssembly = .spread ∧
    { Params.default with longAssembly := .dense }.longAssembly = .dense := by decide

theorem witness_DeviceReadPushesTheAnswer :
    1 ∈ small.params.devices ∧ small.hasRoom 1 = true ∧ full.hasRoom 1 = false ∧ 2 ∉ small.params.devices := by decide

theorem witness_EmitWritesTheTextOfACell :
    1 ∈ small.params.devices ∧ small.ff = false ∧ { small with ff := true }.ff = true ∧ 2 ∉ small.params.devices := by decide

theorem witness_ConditionalJumpsCompareTwoRegisters :
    17 ≤ small.params.memCells ∧ small.params.jumpCmp = .unsigned ∧
    { Params.default with jumpCmp := .signed }.jumpCmp = .signed := by decide

/-- The premises of each clause: float comparison, a NaN, less, more, equal (the zeros), and integer mode. -/
theorem witness_FloatComparisonOfJumpsIsTheModelsChoice :
    { Params.default with jumpCmp := .floatInFloatMode }.jumpCmp = .floatInFloatMode ∧ 17 ≤ Params.default.memCells ∧
    { small with ff := true }.ff = true ∧ small.ff = false ∧ isNaN 0x7FC00000 = true ∧
    isNaN 0xBF800000 = false ∧ isNaN 0x3F800000 = false ∧ compareKey 0xBF800000 < compareKey 0x3F800000 ∧
    isNaN 0x80000000 = false ∧ compareKey 0x80000000 = compareKey 0x00000000 := by decide

/-- No word, all of 15 words, the end after 14, and a stack that fills at the second word. -/
theorem witness_OrbPushesTheNextWords :
    (([] : List Word).length = (0 : Nibble).toNat ∧ full.hasRoom 0 = true) ∧
    ((List.replicate 15 9 : List Word).length = (15 : Nibble).toNat ∧ (start (List.replicate 16 9) []).hasRoom 15 = true ∧
      ∀ k < 15, (start (List.replicate 16 9) []).fetch (0 + 1 + k) = (List.replicate 15 9 : List Word)[k]?) ∧
    ((List.replicate 14 9 : List Word).length < (15 : Nibble).toNat ∧ (start (List.replicate 15 9) []).hasRoom 14 = true ∧
      (∀ k < 14, (start (List.replicate 15 9) []).fetch (0 + 1 + k) = (List.replicate 14 9 : List Word)[k]?) ∧
      (start (List.replicate 15 9) []).fetch (0 + 1 + 14) = none) ∧
    (1 < (2 : Nibble).toNat ∧ small.hasRoom (1 + 1) = false ∧
      ∀ j ≤ 1, { small with program := [0, 9, 9] }.fetch (0 + 1 + j) ≠ none) := by decide

/-- `ret` at once, `ret` after a halt word, no `ret`, and no room. -/
theorem witness_SigScansToTheFirstRet :
    (∀ j, 0 < j → j < 1 → ∃ v, (start [0, 0xA50000002] []).fetch j = some v ∧ decode v ≠ .ok .ret) ∧
    (start [0, 0xA50000002] []).fetch 1 = some 0xA50000002 ∧ decode 0xA50000002 = .ok .ret ∧
    (∃ v, (start [0, 0x0FFFFFFFF, 0xA50000002] []).fetch 1 = some v ∧ decode v ≠ .ok .ret) ∧
    (start [0, 0x0FFFFFFFF, 0xA50000002] []).fetch 2 = some 0xA50000002 ∧
    (∀ j v, 0 < j → (start [0] []).fetch j = some v → decode v ≠ .ok .ret) ∧
    (start [0] []).hasRoom 2 = true ∧ small.hasRoom 2 = false ∧ full.hasRoom 2 = false := by
  refine ⟨fun j h1 h2 => by omega, by decide, by decide, ⟨_, rfl, by decide⟩, by decide, fun j v h1 h2 => ?_, by decide, by decide,
    by decide⟩
  obtain ⟨k, rfl⟩ : ∃ k, j = k + 1 := ⟨j - 1, by omega⟩
  cases h2

/-- Both modes, both destinations, and a full stack. -/
theorem witness_AddSubMulDeliverTheirResult :
    small.ff = false ∧ { small with ff := true }.ff = true ∧ small.sf = false ∧ { small with sf := true }.sf = true ∧
    small.hasRoom 1 = true ∧ full.hasRoom 1 = false := by decide

/-- Each of the five cases of `div`: the quotient at its bounds, and the overflow. -/
theorem witness_DivDeliversTheQuotientOrHalts :
    small.ff = false ∧ (0xFFFFFFFFFFFFFFFF : Word) ≠ 0 ∧ small.params.intDivSigned = false ∧
    { Params.default with intDivSigned := true }.intDivSigned = true ∧
    ¬((0x8000000000000000 : Word).toInt = -2 ^ 63 ∧ (1 : Word).toInt = -1) ∧
    (0x8000000000000000 : Word).toInt = -2 ^ 63 ∧ (0xFFFFFFFFFFFFFFFF : Word).toInt = -1 ∧ { small with ff := true }.ff = true := by
  decide

theorem witness_XorAndOrCombineTwoCells :
    { small with ff := true }.ff = true ∧ small.ff = false ∧ (0x10 : Byte).toNat < small.params.memCells ∧
    ¬(0xFF : Byte).toNat < small.params.memCells := by decide

/-- The largest finite datum, infinity, and a NaN, above bits that are ignored. -/
theorem witness_CkftHaltsOnNonFiniteInFloatMode :
    { small with ff := true }.ff = true ∧ (0xFFFFFFFF7F7FFFFF : Word).extractLsb' 23 8 ≠ 0xFF ∧
    (0x7F800000 : Word).extractLsb' 23 8 = 0xFF ∧ (0xFFC00000 : Word).extractLsb' 23 8 = 0xFF := by decide

theorem witness_XcallResolvesAndInvokes :
    resolveIn [(1, .failed 3)] 1 = .failed 3 ∧ resolveIn [(1, .found ⟨true, true⟩)] 1 = .found ⟨true, true⟩ ∧
    resolveIn [(1, .found ⟨false, false⟩)] 1 = .found ⟨false, false⟩ ∧
    resolveIn [(1, .found ⟨false, true⟩)] 1 = .found ⟨false, true⟩ ∧ small.hasRoom 1 = true ∧ full.hasRoom 1 = false := by decide

/-- All of two descriptors, both of slot 1; none of two, and a stream that ends before or after the tag; a bad tag; a bad slot. -/
theorem witness_LocalsReadsItsDescriptors :
    (∀ k d, ([(0xA, 1), (0xA, 1)] : List (Word × Word))[k]? = some d →
      { small with program := [0, 0xA, 1, 0xA, 1] }.fetch (0 + 1 + 2 * k) = some d.1 ∧
      { small with program := [0, 0xA, 1, 0xA, 1] }.fetch (0 + 2 + 2 * k) = some d.2 ∧
      d.1 ∈ small.params.typeTags ∧ d.2.toNat < (2 : Nibble).toNat) ∧
    { small with program := [0] }.fetch (0 + 1 + 2 * 0) = none ∧ { small with program := [0, 0xA] }.fetch (0 + 2 + 2 * 0) = none ∧
    { small with program := [0, 0xB, 2] }.fetch (0 + 1 + 2 * 0) = some 0xB ∧ 0xB ∉ small.params.typeTags ∧
    { small with program := [0, 0xA, 2] }.fetch (0 + 2 + 2 * 0) = some 2 ∧ 0xA ∈ small.params.typeTags ∧
    (2 : Nibble).toNat ≤ (2 : Word).toNat := by
  refine ⟨fun k d hk => ?_, by decide⟩
  match k, hk with
  | 0, hk => cases hk; decide
  | 1, hk => cases hk; decide
  | k + 2, hk => cases hk

theorem witness_PruneReleasesTheFrame :
    { small with frame := some ⟨0, [], []⟩ }.frame = some ⟨0, [], []⟩ ∧ small.frame = none := by decide

theorem witness_BreakNowAndBreakNextFireTheHook :
    { small with program := [0xC10000001] }.fetch 0 = some 0xC10000001 ∧ decode 0xC10000001 = .ok .brkNow ∧
    { small with brk := .armedDeferred }.brk ≠ .idle ∧ small.brk = .idle ∧ small.run = .running ∧
    { small with program := [0xC10000002] }.fetch 0 = some 0xC10000002 ∧ decode 0xC10000002 = .ok .brkNext := by decide

/-- The modes of the math table, and a row of each list. -/
theorem witness_MathTable :
    { small with ff := true }.ff = true ∧ small.ff = false ∧ RegistersExist { small with ff := true } ∧
    (0xD10000000#64, Instr.sin, HostFn1.sin) ∈ [(0xD10000000#64, Instr.sin, HostFn1.sin)] :=
  ⟨rfl, rfl, (by decide : 17 ≤ 17), List.mem_singleton.2 rfl⟩

/-- Finite data at the ends of the range, with both zeros, and a divisor that is not zero. -/
theorem witness_FloatAddAndSubAreCorrectlyRounded :
    isFinite 0x7F7FFFFF = true ∧ isFinite 0xFF7FFFFF = true ∧ isFinite 0x00000001 = true ∧ isFinite 0x80000000 = true ∧
    signedUnits 0x80000000 + signedUnits 0x80000000 = 0 ∧ signedUnits 0x00000001 - signedUnits 0x00000001 = 0 := by decide

theorem witness_FloatMulAndDivAreCorrectlyRounded :
    isFinite 0xFF7FFFFF = true ∧ isFinite 0x00000001 = true ∧ units 0x00000001 ≠ 0 := by decide

theorem witness_FloatSqrtIsCorrectlyRounded :
    isFinite 0x00000001 = true ∧ isNegative 0x00000001 = false ∧ units 0x00000001 ≠ 0 ∧
    isFinite 0x00000000 = true ∧ isNegative 0x00000000 = false := by decide

/-- A NaN, both infinities, a finite datum and a zero; a root of each kind. -/
theorem witness_FloatSpecialOperandsFollowIeee :
    isNaN 0x7F800001 = true ∧ isNaN 0xFFFFFFFF = true ∧ isInfinite 0x7F800000 = true ∧ isInfinite 0xFF800000 = true ∧
    isFinite 0x7F7FFFFF = true ∧ units 0x80000000 = 0 ∧ isNaN 0xFF800000 = false ∧ isNegative 0xFF800000 = true := by decide

theorem witness_IntegralRoundingFunctions :
    isFinite 0xBF000000 = true ∧ isFinite 0x7F7FFFFF = true ∧ isInfinite 0xFF800000 = true ∧ isNaN 0x7FC00000 = true := by decide

theorem witness_MinimumMaximumAndNeighbours :
    isNaN 0x7FC00000 = true ∧ isNaN 0x7F7FFFFF = false ∧ (0x7F7FFFFF : F32) ≠ 0x7F800000 ∧ isNaN 0xFF800000 = false ∧
    compareKey 0xFF800000 < compareKey 0xFF7FFFFF := by decide

end Sys2Proof.Tests
end

section
/-!
PROOFS. Binary32 operations on NaNs, infinities and zeros (spec/44_alu R89, R95, R97; spec/00_scope R14).
-/

namespace Sys2Proof.Machine

/-! ## The classes of data -/

theorem isInfinite_iff {a : F32} : isInfinite a = true ↔ magnitudeCode a = infinityCode := beq_iff_eq

theorem isFinite_iff {a : F32} : isFinite a = true ↔ magnitudeCode a < infinityCode := decide_eq_true_iff

theorem isNaN_iff {a : F32} : isNaN a = true ↔ infinityCode < magnitudeCode a := decide_eq_true_iff

theorem isNaN_of_isInfinite {a : F32} (h : isInfinite a = true) : isNaN a = false :=
  decide_eq_false (isInfinite_iff.1 h).not_gt

theorem isNaN_of_isFinite {a : F32} (h : isFinite a = true) : isNaN a = false :=
  decide_eq_false (isFinite_iff.1 h).not_gt

theorem isInfinite_of_isFinite {a : F32} (h : isFinite a = true) : isInfinite a = false :=
  beq_false_of_ne (isFinite_iff.1 h).ne

theorem magnitudeCode_ne_zero_of_isInfinite {a : F32} (h : isInfinite a = true) : magnitudeCode a ≠ 0 := by
  rw [isInfinite_iff.1 h]; decide

/-- The zeros are the data of no units: a normal datum has its leading bit. -/
theorem units_eq_zero_iff {a : F32} : units a = 0 ↔ magnitudeCode a = 0 := by
  unfold units
  dsimp only
  split_ifs with h
  · omega
  · have hpos : 0 < (2 ^ 23 + magnitudeCode a % 2 ^ 23) * 2 ^ (magnitudeCode a / 2 ^ 23 - 1) := by positivity
    omega

/-! ## The change of sign -/

@[simp] theorem isNegative_floatNeg (a : F32) : isNegative (floatNeg a) = !isNegative a := by
  have ha := a.isLt
  rw [isNegative, isNegative, floatNeg, BitVec.toNat_xor, Nat.xor_div_two_pow]
  rcases (by omega : a.toNat / 2 ^ 31 = 0 ∨ a.toNat / 2 ^ 31 = 1) with hs | hs <;> rw [hs] <;> rfl

@[simp] theorem magnitudeCode_floatNeg (a : F32) : magnitudeCode (floatNeg a) = magnitudeCode a := by
  rw [magnitudeCode, floatNeg, BitVec.toNat_xor, Nat.xor_mod_two_pow]
  exact Nat.xor_zero _

@[simp] theorem isNaN_floatNeg (a : F32) : isNaN (floatNeg a) = isNaN a := by simp [isNaN]

@[simp] theorem isInfinite_floatNeg (a : F32) : isInfinite (floatNeg a) = isInfinite a := by simp [isInfinite]

@[simp] theorem isFinite_floatNeg (a : F32) : isFinite (floatNeg a) = isFinite a := by simp [isFinite]

/-! ## The infinities and the zeros by sign -/

/-- The infinity of a product or a quotient. -/
theorem withSign_infinity (x y : Bool) :
    withSign (x != y) infinityCode = if x = y then 0x7F800000 else 0xFF800000 := by
  cases x <;> cases y <;> rfl

theorem withSign_zero (x y : Bool) : withSign (x != y) 0 = if x = y then 0x00000000 else 0x80000000 := by
  cases x <;> cases y <;> rfl

theorem floatNeg_of_isInfinite {a : F32} (h : isInfinite a = true) :
    floatNeg a = if isNegative a = true then 0x7F800000 else 0xFF800000 := by
  rw [← withSign_parts (floatNeg a), isNegative_floatNeg, magnitudeCode_floatNeg, isInfinite_iff.1 h]
  cases isNegative a <;> rfl

/-! ## Sums and differences -/

section
variable {a b : F32}

theorem floatAdd_of_isNaN (h : isNaN a = true ∨ isNaN b = true) : floatAdd a b = none :=
  if_pos ((Bool.or_eq_true _ _).mpr h)

theorem floatAdd_of_isInfinite (ha : isInfinite a = true) (hb : isInfinite b = true) :
    floatAdd a b = if isNegative a = isNegative b then some a else none := by
  simp [floatAdd, isNaN_of_isInfinite, ha, hb]

theorem floatAdd_of_isInfinite_left (ha : isInfinite a = true) (hb : isFinite b = true) : floatAdd a b = some a := by
  simp [floatAdd, isNaN_of_isInfinite ha, isNaN_of_isFinite hb, isInfinite_of_isFinite hb, ha]

theorem floatAdd_of_isInfinite_right (ha : isFinite a = true) (hb : isInfinite b = true) : floatAdd a b = some b := by
  simp [floatAdd, isNaN_of_isInfinite hb, isNaN_of_isFinite ha, isInfinite_of_isFinite ha, hb]

theorem floatSub_of_isNaN (h : isNaN a = true ∨ isNaN b = true) : floatSub a b = none :=
  floatAdd_of_isNaN (by rwa [isNaN_floatNeg])

theorem floatSub_of_isInfinite (ha : isInfinite a = true) (hb : isInfinite b = true) :
    floatSub a b = if isNegative a = isNegative b then none else some a := by
  rw [floatSub, floatAdd_of_isInfinite ha (by rwa [isInfinite_floatNeg]), isNegative_floatNeg]
  cases isNegative a <;> cases isNegative b <;> rfl

theorem floatSub_of_isInfinite_left (ha : isInfinite a = true) (hb : isFinite b = true) : floatSub a b = some a :=
  floatAdd_of_isInfinite_left ha (by rwa [isFinite_floatNeg])

theorem floatSub_of_isInfinite_right (ha : isFinite a = true) (hb : isInfinite b = true) :
    floatSub a b = some (if isNegative b = true then 0x7F800000 else 0xFF800000) := by
  rw [floatSub, floatAdd_of_isInfinite_right ha (by rwa [isInfinite_floatNeg]), floatNeg_of_isInfinite hb]

/-! ## Products -/

theorem floatMul_of_isNaN (h : isNaN a = true ∨ isNaN b = true) : floatMul a b = none :=
  if_pos ((Bool.or_eq_true _ _).mpr h)

theorem floatMul_comm (a b : F32) : floatMul a b = floatMul b a := by
  unfold floatMul
  rw [bne_comm, Bool.or_comm (isNaN a), Bool.or_comm (isInfinite a), Nat.mul_comm (units a),
    Bool.or_comm (decide (magnitudeCode a = 0))]

/-- An infinity times a datum that is no NaN: a NaN when that is a zero, else an infinity. -/
theorem floatMul_of_isInfinite_left (ha : isInfinite a = true) (hb : isNaN b = false) :
    floatMul a b = if units b = 0 then none else some (if isNegative a = isNegative b then 0x7F800000 else 0xFF800000) := by
  simp [floatMul, isNaN_of_isInfinite ha, magnitudeCode_ne_zero_of_isInfinite ha, ha, hb, units_eq_zero_iff,
    withSign_infinity]

theorem floatMul_of_isInfinite_right (ha : isNaN a = false) (hb : isInfinite b = true) :
    floatMul a b = if units a = 0 then none else some (if isNegative a = isNegative b then 0x7F800000 else 0xFF800000) := by
  rw [floatMul_comm, floatMul_of_isInfinite_left hb ha]
  simp only [eq_comm]

theorem floatMul_of_isInfinite (ha : isInfinite a = true) (hb : isInfinite b = true) :
    floatMul a b = some (if isNegative a = isNegative b then 0x7F800000 else 0xFF800000) := by
  have hb0 : units b ≠ 0 := mt units_eq_zero_iff.1 (magnitudeCode_ne_zero_of_isInfinite hb)
  rw [floatMul_of_isInfinite_left ha (isNaN_of_isInfinite hb), if_neg hb0]

/-! ## Quotients -/

theorem floatDiv_of_isNaN (h : isNaN a = true ∨ isNaN b = true) : floatDiv a b = none :=
  if_pos ((Bool.or_eq_true _ _).mpr h)

theorem floatDiv_of_isInfinite (ha : isInfinite a = true) (hb : isInfinite b = true) : floatDiv a b = none := by
  simp [floatDiv, ha, hb]

theorem floatDiv_of_isInfinite_left (ha : isInfinite a = true) (hb : isFinite b = true) :
    floatDiv a b = some (if isNegative a = isNegative b then 0x7F800000 else 0xFF800000) := by
  simp [floatDiv, isNaN_of_isInfinite ha, isNaN_of_isFinite hb, isInfinite_of_isFinite hb, ha, withSign_infinity]

theorem floatDiv_of_isInfinite_right (ha : isFinite a = true) (hb : isInfinite b = true) :
    floatDiv a b = some (if isNegative a = isNegative b then 0x00000000 else 0x80000000) := by
  simp [floatDiv, isNaN_of_isInfinite hb, isNaN_of_isFinite ha, isInfinite_of_isFinite ha, hb, withSign_zero]

/-- R89(f), R95: division by a zero. -/
theorem floatDiv_of_units_eq_zero (ha : isFinite a = true) (hb : isFinite b = true) (h0 : units b = 0) :
    floatDiv a b =
      if units a = 0 then none else some (if isNegative a = isNegative b then 0x7F800000 else 0xFF800000) := by
  simp [floatDiv, isNaN_of_isFinite, isInfinite_of_isFinite, ha, hb, h0, withSign_infinity]

end

/-! ## Roots -/

theorem floatSqrt_of_isNaN {a : F32} (h : isNaN a = true) : floatSqrt a = none := if_pos h

/-- The negative zero is its own root, and no other negative datum has one (R97). -/
theorem floatSqrt_of_isNegative {a : F32} (hn : isNaN a = false) (h : isNegative a = true) :
    floatSqrt a = if a = 0x80000000 then some 0x80000000 else none := by
  have zero : magnitudeCode a = 0 ↔ a = 0x80000000 :=
    ⟨fun h0 => eq_of_parts h h0, fun ha => by rw [ha]; rfl⟩
  by_cases ha : a = 0x80000000
  · subst ha; rfl
  · rw [floatSqrt, if_neg (by simp [hn]), if_neg (mt zero.1 ha), if_pos h, if_neg ha]

/-! ## The fields of a NaN -/

/-- R89(e): a NaN has exponent bits all ones and a fraction that is not 0. -/
theorem isNaN_fields {a : F32} (h : isNaN a = true) : a.extractLsb' 23 8 = 0xFF ∧ a.extractLsb' 0 23 ≠ 0 := by
  have hcode : infinityCode < a.toNat % 2 ^ 31 := isNaN_iff.1 h
  unfold infinityCode at hcode
  constructor
  · apply BitVec.eq_of_toNat_eq
    rw [BitVec.extractLsb'_toNat, Nat.shiftRight_eq_div_pow, show (0xFF : BitVec 8).toNat = 0xFF from rfl]
    omega
  · intro h0
    have hfraction := congrArg BitVec.toNat h0
    rw [BitVec.extractLsb'_toNat, Nat.shiftRight_zero, show (0 : BitVec 23).toNat = 0 from rfl] at hfraction
    omega

/-! ## The obligation -/

/-- Settles O58: the operations on each class of operands, and the fields of a drawn NaN. -/
theorem floatSpecialOperandsFollowIeee : Obligations.FloatSpecialOperandsFollowIeee := by
  refine ⟨fun a b h => ⟨floatAdd_of_isNaN h, floatSub_of_isNaN h, floatMul_of_isNaN h, floatDiv_of_isNaN h⟩,
    fun a b ha hb => ⟨floatAdd_of_isInfinite ha hb, floatSub_of_isInfinite ha hb, floatMul_of_isInfinite ha hb,
      floatDiv_of_isInfinite ha hb⟩,
    fun a b ha hb => ?infiniteAndFinite,
    fun a b => floatDiv_of_units_eq_zero,
    fun a => floatSqrt_of_isNaN, fun a => floatSqrt_of_isNegative, rfl, rfl,
    fun n => isNaN_fields (nanPattern_isNaN n)⟩
  have mul_right := floatMul_of_isInfinite_right (isNaN_of_isFinite hb) ha
  have div_right := floatDiv_of_isInfinite_right hb ha
  simp only [eq_comm (a := isNegative b)] at mul_right div_right
  exact ⟨floatAdd_of_isInfinite_left ha hb, floatAdd_of_isInfinite_right hb ha,
    floatSub_of_isInfinite_left ha hb, floatSub_of_isInfinite_right hb ha,
    floatMul_of_isInfinite_left ha (isNaN_of_isFinite hb), mul_right,
    floatDiv_of_isInfinite_left ha hb, div_right⟩

end Sys2Proof.Machine
end

section
/-!
PROOFS. What a step and an instruction change of the state (spec/10_state.md), from the inversion lemma `change_exec` and
the laws of the two phases; and the canonical form of the cell store (log 15).
-/

namespace Sys2Proof.Machine

/-! ## An instruction, and a step, that answers a next state -/

section
variable {i : Instr} {s t : State}

theorem change_of_exec_next (h : exec i s = .next t) : Change i s t := (change_exec s i).next h

/-- Every step to a next state is an instruction's change between the two phases; an unlisted word changes what a halt
instruction does. -/
theorem change_of_step_next (h : step s = .next t) :
    s.run = .running ∧ ∃ i u, Change i (preStep s) u ∧ t = finishStep u := by
  obtain ⟨hr, w, -, ⟨why, -, -, rfl⟩ | ⟨i, u, -, he, rfl⟩⟩ := step_next_cases h
  · exact ⟨hr, .haltF, _, (Mid.refl _ _).halts (.inl (by simp [unknownOpcodeCode])), (finishStep_of_halted rfl).symm⟩
  · exact ⟨hr, i, u, change_of_exec_next he, rfl⟩

/-! ## The invariant (R19, R29, R30) -/

/-- The invariant says nothing of the hook record or the break cell, all that the two phases change. -/
theorem State.Inv.setHookEvents_setBrk (h : s.Inv) (l : List Word) (b : BreakMode) :
    ((s.setHookEvents l).setBrk b).Inv :=
  ⟨h.cells_wf, h.cells_in_range, h.stack_in_depth, h.frame_wf⟩

theorem State.Inv.preStep (h : s.Inv) : (preStep s).Inv := by
  obtain ⟨l, b, e⟩ := preStep_frame s
  exact e ▸ h.setHookEvents_setBrk l b

theorem State.Inv.finishStep (h : s.Inv) : (finishStep s).Inv := by
  obtain ⟨l, b, e⟩ := finishStep_frame s
  exact e ▸ h.setHookEvents_setBrk l b

theorem State.Inv.change (h : s.Inv) (hc : Change i s t) : t.Inv := by
  obtain ⟨⟨u, a, r, hu, rfl⟩, -⟩ := hc
  exact {
    cells_wf := hu.cells_wf h.cells_wf
    cells_in_range := by simpa [hu.params] using hu.cells_in_range h.cells_in_range
    stack_in_depth := hu.depth h.stack_in_depth
    frame_wf := hu.frame_wf h.frame_wf }

end

/-- Settles O14: each phase and the instruction between them keep the invariant. -/
theorem everyStepKeepsTheInvariant : Obligations.EveryStepKeepsTheInvariant := by
  intro s t hs h
  obtain ⟨-, i, u, hc, rfl⟩ := change_of_step_next h
  exact (hs.preStep.change hc).finishStep

/-! ## Halting and the program counter (R22, R31, R63) -/

/-- Settles O11: a rule that does not halt leaves the machine running, and only a running machine has a next state. -/
theorem haltKeepsThePcAndIsFinal : Obligations.HaltKeepsThePcAndIsFinal := by
  refine ⟨fun s t code msg h ht => ?_, fun s code msg hs t h => ?_⟩
  · obtain ⟨hr, i, u, hc, rfl⟩ := change_of_step_next h
    rw [finishStep_run] at ht
    rw [finishStep_pc]
    obtain ⟨hrun, -⟩ | ⟨_, _, -, -, hpc⟩ := hc.ended
    · rw [hrun, preStep_run, hr] at ht; cases ht
    · rw [hpc, preStep_pc]
  · rw [(change_of_step_next h).1] at hs; cases hs

/-- Settles O22: a rule ends with the pc one further, with a redirection, or with a halt. -/
theorem pcAdvancesByOneUnlessRedirected : Obligations.PcAdvancesByOneUnlessRedirected := by
  intro i s t hi _ h ht
  obtain ⟨-, hpc⟩ | ⟨_, _, hhalt, -⟩ := (change_of_exec_next h).ended
  · exact hpc hi
  · rw [hhalt] at ht; cases ht

/-! ## What no instruction or only some change (R21, R23, R28, R29, R30, R33) -/

/-- Settles O16: no rule and no phase writes these fields. -/
theorem noStepWritesFlagsStreamOrParameters : Obligations.NoStepWritesFlagsStreamOrParameters := by
  intro s t h
  obtain ⟨-, i, u, ⟨⟨v, a, r, hv, rfl⟩, -⟩, rfl⟩ := change_of_step_next h
  obtain ⟨l, b, e⟩ := finishStep_frame ((v.setPc a).setRun r)
  simp [e, hv.ff, hv.sf, hv.bf, hv.fw, hv.program, hv.params]

/-- Settles O19: a rule ends by the pc and the run state, and what came before it wrote listed cells only. -/
theorem cellsAreWrittenOnlyWhereListed : Obligations.CellsAreWrittenOnlyWhereListed := by
  intro i s t h
  obtain ⟨u, a, r, hu, rfl⟩ := (change_of_exec_next h).mid
  exact hu.cells

/-- Settles O20: a rule ends by the pc and the run state, and before that only the listed pushes and `pull` touch the stack. -/
theorem stackChangesOnlyWhereListed : Obligations.StackChangesOnlyWhereListed := by
  intro i s t h
  obtain ⟨u, a, r, hu, rfl⟩ := (change_of_exec_next h).mid
  exact hu.stack

/-- Settles O21: before the end of a rule only the listed instructions update these fields, and the records by appending. -/
theorem frameBreakCellAndRecordsChangeOnlyWhereListed :
    Obligations.FrameBreakCellAndRecordsChangeOnlyWhereListed := by
  intro i s t h
  obtain ⟨u, a, r, hu, rfl⟩ := (change_of_exec_next h).mid
  exact ⟨hu.frame, hu.brk, hu.hookEvents, hu.devWrites, hu.devWrites_grow, hu.hookEvents_grow⟩

/-! ## The mode flags as operands (R24..R27) -/

section
variable {g : State → State} (h : Ignores g) (hbf : ∀ s, (g s).bf = s.bf) (hbrk : ∀ s, (g s).brk = s.brk)
  (hrun : ∀ s, (g s).run = s.run)

include h hbrk

include hbf in
theorem Ignores.preStep (s : State) : preStep (g s) = g (preStep s) := by
  rw [preStep_eq, preStep_eq, hbf, hbrk, h.hookEvents, h.pc, h.setHookEvents, h.setBrk]

theorem Ignores.postStep (s : State) : postStep (g s) = g (postStep s) := by
  rw [postStep_eq, postStep_eq, hbrk, h.hookEvents, h.pc, h.setHookEvents, h.setBrk, apply_ite g]

include hrun

theorem Ignores.finishStep (s : State) : finishStep (g s) = g (finishStep s) := by
  cases hs : s.run with
  | halted code msg => rw [finishStep_of_halted hs, finishStep_of_halted ((hrun s).trans hs)]
  | running => rw [finishStep_of_running hs, finishStep_of_running ((hrun s).trans hs), h.postStep hbrk]

theorem Ignores.afterExecute (r : Result) : afterExecute (mapNext g r) = mapNext g (afterExecute r) := by
  cases r with
  | next t => exact congrArg Host.Outcome.next (h.finishStep hbrk hrun t)
  | fault | refused => rfl

omit hbrk hrun in
theorem Ignores.unlistedWord (s : State) : unlistedWord (g s) = mapNext g (unlistedWord s) := by
  unfold Machine.unlistedWord
  rw [h.params]
  cases s.params.unlistedPolicy with
  | haltFC => exact h.raiseHalt _ _
  | refuse => rfl

include hbf in
/-- A field that no instruction reads, and no phase, is one that no step reads. -/
theorem Ignores.step (hexec : ∀ i s, exec i (g s) = mapNext g (exec i s)) (s : State) : step (g s) = mapNext g (step s) := by
  unfold Machine.step
  rw [hrun]
  cases s.run with
  | halted code msg => rfl
  | running =>
    rw [h.preStep hbf hbrk]
    unfold fetchAndExecute
    rw [h.fetch, h.pc]
    cases (Machine.preStep s).fetch (Machine.preStep s).pc.toNat with
    | none => rfl
    | some w =>
      cases hd : decode w with
      | error why => simpa [hd] using h.unlistedWord _
      | ok i => simpa [hd, hexec] using h.afterExecute hbrk hrun _

end

/-- Settles O17: `fw` is a field that no rule reads, and no phase. -/
theorem fastWriteChangesNoResult : Obligations.FastWriteChangesNoResult := by
  intro s b
  have hexec : ∀ (i : Instr) (s : State),
      exec i { s with fw := b } = mapNext (fun t => { t with fw := b }) (exec i s) :=
    fun i _ => exec_ignores (ignores_fw b) i (fun _ _ => rfl) (fun _ _ => rfl) fun _ => rfl
  exact ⟨fun i => hexec i s, (ignores_fw b).step (fun _ => rfl) (fun _ => rfl) (fun _ => rfl) hexec s⟩

/-- Settles O18: each flag is a field that the instructions outside its list do not read. -/
theorem modeFlagsAreReadOnlyByTheListedInstructions : Obligations.ModeFlagsAreReadOnlyByTheListedInstructions := by
  intro i s b
  refine ⟨?bf, fun hdest => ?sf, fun hreads hjump => ?ff⟩
  case bf => exact exec_ignores (ignores_bf b) i (fun _ _ => rfl) (fun _ _ => rfl) fun _ => rfl
  case sf => exact exec_ignores (ignores_sf b) i (fun h => by simp [hdest] at h) (fun _ _ => rfl) fun _ => rfl
  case ff => exact exec_ignores (ignores_ff b) i (fun _ _ => rfl) (fun h => by simp [hreads] at h) (absurd · hjump)

/-! ## The causes of the model faults (R138) -/

/-- Settles O24: the causes of an instruction's fault do not change in the pre-step phase. -/
theorem everyModelFaultHasItsListedCause : Obligations.EveryModelFaultHasItsListedCause := by
  have hexec : ∀ (i : Instr) (s : State) (f : Fault), exec i s = .fault f → faultCause i s f :=
    fun i s f h => (change_exec s i).fault h
  refine ⟨hexec, fun s f hr h => ?_, fun s code msg hs => ?_⟩
  · obtain ⟨hf, hnone⟩ | ⟨w, hw, hunlisted | ⟨i, hd, he⟩⟩ := step_fault_cases hr h
    · exact .inl ⟨hf, List.getElem?_eq_none_iff.1 hnone⟩
    · exact .inr ⟨w, hw, .inl hunlisted⟩
    · exact .inr ⟨w, hw, .inr ⟨i, hd, (faultCause_preStep i s f).1 (hexec i _ f he)⟩⟩
  · unfold step; rw [hs]

/-! ## The canonical form of the cell store (R19, log 15) -/

namespace Memory

theorem wf_cons (j : Nat) (v : Word) (m : Memory) :
    Memory.wf ((j, v) :: m) = true ↔ (∀ e ∈ m, j < e.1) ∧ v ≠ blankCell ∧ m.wf = true := by
  simp only [wf, Bool.and_eq_true, sorted_cons, List.all_cons, bne_iff_ne]
  tauto

theorem pairwise_of_wf {m : Memory} (h : m.wf = true) : m.Pairwise (·.1 < ·.1) := by
  induction m with
  | nil => exact .nil
  | cons e m ih =>
    obtain ⟨hlt, -, hm⟩ := (wf_cons _ _ _).1 h
    exact .cons hlt (ih hm)

/-- A store in canonical form lists the cells that are not blank, each with its value. -/
theorem mem_iff_read {m : Memory} (h : m.wf = true) (i : Nat) (v : Word) :
    (i, v) ∈ m ↔ v ≠ blankCell ∧ Memory.read m i = v := by
  induction m with
  | nil => simp [eq_comm]
  | cons e m ih =>
    obtain ⟨j, w⟩ := e
    obtain ⟨hlt, hw, hm⟩ := (wf_cons _ _ _).1 h
    rw [List.mem_cons, ih hm, read_cons, Prod.mk.injEq]
    split_ifs with hji
    · subst hji
      have hnot : ¬(v ≠ blankCell ∧ Memory.read m j = v) := fun hv => lt_irrefl j (hlt _ ((ih hm).2 hv))
      grind
    · grind

/-- Stores with the same entries, each with its indices rising, are one list. -/
theorem eq_of_read_eq {m m' : Memory} (h : m.wf = true) (h' : m'.wf = true) (hr : ∀ i, Memory.read m i = Memory.read m' i) :
    m = m' := by
  have : Std.Irrefl fun e e' : Nat × Word => e.1 < e'.1 := ⟨fun _ => lt_irrefl _⟩
  have : Std.Antisymm fun e e' : Nat × Word => e.1 < e'.1 := ⟨fun _ _ hlt hgt => absurd hlt hgt.asymm⟩
  refine (pairwise_of_wf h).eq_of_mem_iff (pairwise_of_wf h') fun ⟨i, v⟩ => ?_
  rw [mem_iff_read h, mem_iff_read h', hr]

end Memory

/-- Settles O26: what a canonical store reads as fixes its entries, and their order is fixed by the indices. -/
theorem canonicalCellStoresThatReadAlikeAreEqual : Obligations.CanonicalCellStoresThatReadAlikeAreEqual :=
  fun _ _ => Memory.eq_of_read_eq

end Sys2Proof.Machine
end

section
/-!
PROOFS. Decoding and encoding (spec/30_encoding.md): the fields of a word and the encoder's formula, the match as a search of
the table, the round trip, the unlisted words and the immediates of `ldi`; and that no instruction is refused (R143).
-/

namespace Sys2Proof.Machine

/-! ## The fields of a word and the encoder's formula (R50, R51, R60) -/

/-- R50: a field is a group of bits. -/
theorem extractLsb'_toNat_eq {n : Nat} (x : BitVec n) (start len : Nat) :
    (x.extractLsb' start len).toNat = x.toNat / 2 ^ start % 2 ^ len := by
  rw [BitVec.extractLsb'_toNat, Nat.shiftRight_eq_div_pow]

/-- R60: the encoder's word is the sum of the fields, each at its place. -/
theorem encFields_toNat (f : Fields) : (encFields f).toNat =
    f.iid.toNat * 2 ^ 28 + f.r1.toNat * 2 ^ 24 + f.r2.toNat * 2 ^ 20 + f.r3.toNat * 2 ^ 16 + f.u1.toNat * 2 ^ 12 +
      f.u2.toNat * 2 ^ 8 + f.x1.toNat * 2 ^ 4 + f.x2.toNat := by
  simp only [encFields, append_toNat, BitVec.toNat_ofNat]
  omega

/-- R60: the encoder's word is the fields, each shifted to its place. -/
theorem encFields_eq_or (f : Fields) : encFields f =
    (f.iid.zeroExtend 64 <<< 28) ||| (f.r1.zeroExtend 64 <<< 24) ||| (f.r2.zeroExtend 64 <<< 20) |||
    (f.r3.zeroExtend 64 <<< 16) ||| (f.u1.zeroExtend 64 <<< 12) ||| (f.u2.zeroExtend 64 <<< 8) |||
    (f.x1.zeroExtend 64 <<< 4) ||| f.x2.zeroExtend 64 := by
  refine (BitVec.setWidth_eq (encFields f)).symm.trans ?_
  simp only [encFields, BitVec.setWidth_append_eq_shiftLeft_setWidth_or, BitVec.or_assoc]
  simp

/-- R60: on a word of 36 bits the encoder inverts the field decoder. -/
theorem encFields_fields {w : Word} (h : w.extractLsb' 36 28 = 0) : encFields (fields w) = w := by
  rw [encFields, ← show w.extractLsb' 36 28 = 0#28 from h]
  simp only [fields, BitVec.extractLsb'_append_extractLsb'_eq_extractLsb']
  exact BitVec.extractLsb'_eq_self

/-- R51: a word's fields are those of its low 36 bits. -/
theorem fields_congr {w w' : Word} (h : w.extractLsb' 0 36 = w'.extractLsb' 0 36) : fields w = fields w' := by
  have hpart : ∀ start len, start + len ≤ 36 → w.extractLsb' start len = w'.extractLsb' start len := by
    intro _ _ hle
    rw [← BitVec.extractLsb'_extractLsb'_of_le hle, h, BitVec.extractLsb'_extractLsb'_of_le hle]
  simp [fields, hpart]

/-- A word and a 36-bit word agree on their 36 bits when they have the same fields. -/
theorem and_low36_eq_iff {w p : Word} (hp : p.extractLsb' 36 28 = 0) :
    w &&& 0xFFFFFFFFF#64 = p ↔ fields w = fields p := by
  have hhigh : (w &&& 0xFFFFFFFFF#64).extractLsb' 36 28 = 0 := by
    rw [BitVec.extractLsb'_and, show BitVec.extractLsb' 36 28 0xFFFFFFFFF#64 = 0#28 from rfl]
    exact BitVec.and_zero
  have hfields : fields (w &&& 0xFFFFFFFFF#64) = fields w := by
    rw [fields_and, show fields 0xFFFFFFFFF#64 = ⟨0xFF, 0xF, 0xF, 0xF, 0xF, 0xF, 0xF, 0xF⟩ from rfl]
    simp [byte_and_ones, nibble_and_ones]
  constructor
  · rintro rfl; exact hfields.symm
  · intro h; rw [← encFields_fields hhigh, hfields, h, encFields_fields hp]

/-- Settles O2: the field decoder's bits, the encoder's formula, and the inverse on words of 36 bits. -/
theorem encoderInvertsFieldDecoder : Obligations.EncoderInvertsFieldDecoder := by
  refine ⟨fun w => ?bits, encFields_eq_or, encFields_high, fun w => encFields_fields⟩
  simp only [fields, extractLsb'_toNat_eq, pow_zero, Nat.div_one, and_self]

/-! ## The match as a search of the table (R53) -/

/-- Some row of the table has the iid and the selector fields. -/
def Listed (f : Fields) : Prop := ∃ r ∈ rows, r.selects f = true

theorem haltPattern_eq_none_iff (f : Fields) :
    haltPattern f = none ↔ ¬(f.allOnes = true ∧ (f.iid = 0x0F ∨ f.iid = 0x00 ∨ f.iid = 0x01)) := by
  unfold haltPattern
  split_ifs <;> simp only [true_iff, false_iff] <;> tauto

theorem wellFormed_of_haltPattern {f : Fields} {i : Instr} (h : haltPattern f = some i) : i.wellFormed = true := by
  unfold haltPattern at h
  split_ifs at h <;> cases h <;> rfl

/-- What matches is a halt word or what a row builds. -/
theorem matchFields_ok_cases {f : Fields} {i : Instr} (h : matchFields f = .ok i) :
    haltPattern f = some i ∨ ∃ r ∈ rows, r.selects f = true ∧ i = r.build f := by
  unfold matchFields at h
  split at h
  next j hj => exact .inl (by rw [hj, Except.ok.inj h])
  next =>
    split at h
    next r hr =>
      exact .inr ⟨r, List.mem_of_find?_eq_some hr, by simpa using List.find?_some hr, (Except.ok.inj h).symm⟩
    next => cases h

/-- What does not match is no halt word and in no row. -/
theorem matchFields_error_iff (f : Fields) :
    (∃ why, matchFields f = .error why) ↔ haltPattern f = none ∧ ¬Listed f := by
  unfold matchFields Listed
  cases haltPattern f with
  | some i => simp
  | none =>
    cases hfind : rows.find? (fun r => r.selects f) with
    | some r =>
      have hlisted : ∃ r ∈ rows, r.selects f = true :=
        ⟨r, List.mem_of_find?_eq_some hfind, by simpa using List.find?_some hfind⟩
      simp [hlisted]
    | none => simpa using List.find?_eq_none.1 hfind

/-! ## The round trip (R54, R55) -/

/-- R55: the two fields of an encodable immediate give it back. -/
theorem immLdi_of_encodable : ∀ imm : Byte, ldiEncodable imm = true → immLdi (immLdiU1 imm) (immLdiU2 imm) = imm := by
  decide

/-- R55: `imm_ldi` takes no other values. -/
theorem ldiEncodable_immLdi : ∀ u1 u2 : Nibble, ldiEncodable (immLdi u1 u2) = true := by decide

/-- The row of an instruction's iid and selectors is the first that its fields select; a pair of nibbles and the immediate
of `ldi` are the operands that the encoder split. -/
theorem matchFields_toFields {i : Instr} (h : i.wellFormed = true) : matchFields i.toFields = .ok i := by
  cases i with
  | ldi rd imm => exact congrArg (fun v => Except.ok (Instr.ldi rd v)) (immLdi_of_encodable imm h)
  | ldiM c v => exact congrArg₂ (fun a b => Except.ok (Instr.ldiM a b)) (pair_high_low c) (pair_high_low v)
  | dup a b => exact congrArg₂ (fun a b => Except.ok (Instr.dup a b)) (pair_high_low a) (pair_high_low b)
  | xor a b => exact congrArg₂ (fun a b => Except.ok (Instr.xor a b)) (pair_high_low a) (pair_high_low b)
  | or a b => exact congrArg₂ (fun a b => Except.ok (Instr.or a b)) (pair_high_low a) (pair_high_low b)
  | ckft c => exact congrArg (fun a => Except.ok (Instr.ckft a)) (pair_high_low c)
  | _ => rfl

/-- Settles O1: the decoder unpacks the fields that the encoder packs, and they match the instruction's row. -/
theorem decodeOfEncodeGivesTheInstruction : Obligations.DecodeOfEncodeGivesTheInstruction :=
  fun i h => (decode_encode_eq i).trans (matchFields_toFields h)

/-! ## The high bits (R51) -/

theorem pushWords_succ_of_fetch {s : State} {w : Word} {a : Nat} (hroom : s.hasRoom 1 = true) (hw : s.fetch a = some w)
    (n : Nat) (k : State → Result) :
    pushWords (n + 1) a s k = pushWords n (a + 1) (s.setStack (w :: s.stack)) k := by
  simp only [pushWords, fetchInside, hw, push_room hroom]

/-- Settles O3: decoding goes by the fields, which are of the low 36 bits, and `orb` pushes the fetched word. -/
theorem highBitsOfAWordAreIgnoredButKept : Obligations.HighBitsOfAWordAreIgnoredButKept := by
  refine ⟨fun w w' h => congrArg matchFields (fields_congr h), fun i => encFields_high i.toFields,
    fun s w hroom hw => ?orb⟩
  have hpc : s.pc + 1 + BitVec.ofNat 64 1 = s.pc + 2 := BitVec.add_assoc s.pc 1 1
  calc exec (.orb 1) s
      = advancePast 1 (s.setStack (w :: s.stack)) := pushWords_succ_of_fetch hroom hw 0 _
    _ = .next { s with stack := w :: s.stack, pc := s.pc + 2 } := by rw [← hpc]; rfl

/-! ## The unlisted words (R57) -/

/-- R57(a): the iids that no row has. -/
abbrev UnlistedIid (b : Byte) : Prop :=
  b = 0x02 ∨ (0x04 ≤ b ∧ b ≤ 0x07) ∨ (0x09 ≤ b ∧ b ≤ 0x0E) ∨ (0x10 ≤ b ∧ b ≤ 0x35) ∨
    (0x39 ≤ b ∧ b ≤ 0x9F) ∨ b = 0xA2 ∨ b = 0xA3 ∨ (0xA6 ≤ b ∧ b ≤ 0xB0) ∨
    (0xB7 ≤ b ∧ b ≤ 0xC0) ∨ (0xC2 ≤ b ∧ b ≤ 0xC9) ∨ 0xE9 ≤ b

theorem not_unlistedIid_of_mem_rows : ∀ r ∈ rows, ¬UnlistedIid r.iid := by decide

theorem exists_row_of_not_unlistedIid : ∀ b : Byte, ¬UnlistedIid b → b ∈ rows.map (·.iid) := by decide

/-- The iids whose rows have selector fields. -/
def selectorIids : List Byte := [0x01, 0x08, 0x0F, 0xA5, 0xC1]

theorem no_selectors_of_not_mem : ∀ r ∈ rows, r.iid ∉ selectorIids → r.u2 = none ∧ r.x1 = none ∧ r.x2 = none := by
  decide

/-- The selector fields u2, x1, x2 of the rows with an iid. -/
def selectorsOf (iid : Byte) : List (Option Nibble × Option Nibble × Option Nibble) :=
  (rows.filter (fun r => iid == r.iid)).map fun r => (r.u2, r.x1, r.x2)

section
variable {f : Fields}

/-- Where the rows have no selector fields, the iid alone decides. -/
theorem listed_iff_of_not_mem (h : f.iid ∉ selectorIids) : Listed f ↔ ¬UnlistedIid f.iid := by
  constructor
  · rintro ⟨r, hr, hsel⟩
    simp only [Row.selects, Bool.and_eq_true, beq_iff_eq] at hsel
    exact hsel.1 ▸ not_unlistedIid_of_mem_rows r hr
  · intro hiid
    obtain ⟨r, hr, hriid⟩ := List.mem_map.1 (exists_row_of_not_unlistedIid f.iid hiid)
    obtain ⟨hu2, hx1, hx2⟩ := no_selectors_of_not_mem r hr (hriid ▸ h)
    exact ⟨r, hr, by simp [Row.selects, hriid, hu2, hx1, hx2, selector]⟩

/-- In general the selector fields of the iid's rows decide. -/
theorem listed_iff : Listed f ↔ ∃ p ∈ selectorsOf f.iid,
    selector p.1 f.u2 = true ∧ selector p.2.1 f.x1 = true ∧ selector p.2.2 f.x2 = true := by
  simp [Listed, selectorsOf, Row.selects, and_assoc]

/-! The gaps of R57(b)..(f). -/

theorem listed_iff_of_iid_01 (h : f.iid = 0x01) : Listed f ↔ f.x2 = 0x0 ∨ f.x2 = 0xA := by
  rw [listed_iff, h, show selectorsOf 0x01 = [(none, none, some 0x0), (none, none, some 0xA)] from rfl]
  simp [selector]

theorem listed_iff_of_iid_08 (h : f.iid = 0x08) : Listed f ↔ f.u2 = 0xC ∨ f.u2 = 0xF ∧ ¬0x5 ≤ f.x1 := by
  have below : ∀ x : Nibble, ¬0x5 ≤ x ↔ x = 0x0 ∨ x = 0x1 ∨ x = 0x2 ∨ x = 0x3 ∨ x = 0x4 := by decide
  rw [listed_iff, h, below, show selectorsOf 0x08 =
    [(some 0xC, none, none), (some 0xF, some 0x0, none), (some 0xF, some 0x1, none), (some 0xF, some 0x2, none),
     (some 0xF, some 0x3, none), (some 0xF, some 0x4, none)] from rfl]
  simp [selector, and_or_left]

theorem listed_iff_of_iid_0F (h : f.iid = 0x0F) : Listed f ↔ f.x2 = 0xE ∨ f.x2 = 0xC ∨ f.x2 = 0xF := by
  rw [listed_iff, h, show selectorsOf 0x0F =
    [(none, none, some 0xE), (none, none, some 0xC), (none, none, some 0xF)] from rfl]
  simp [selector]

theorem listed_iff_of_iid_A5 (h : f.iid = 0xA5) : Listed f ↔ f.x2 = 0x1 ∨ f.x2 = 0x2 := by
  rw [listed_iff, h, show selectorsOf 0xA5 = [(none, none, some 0x1), (none, none, some 0x2)] from rfl]
  simp [selector]

theorem listed_iff_of_iid_C1 (h : f.iid = 0xC1) : Listed f ↔ f.x2 = 0x1 ∨ f.x2 = 0x2 ∨ f.x2 = 0x3 := by
  rw [listed_iff, h, show selectorsOf 0xC1 =
    [(none, none, some 0x1), (none, none, some 0x2), (none, none, some 0x3)] from rfl]
  simp [selector]

/-- Of the halt words only `halt_1` is in no row besides. -/
theorem unlisted_iff (f : Fields) :
    (∃ why, matchFields f = .error why) ↔ ¬Listed f ∧ ¬(f.iid = 0x01 ∧ f.allOnes = true) := by
  rw [matchFields_error_iff, haltPattern_eq_none_iff, and_comm]
  refine and_congr_right fun hnot => not_congr ⟨fun ⟨hones, hiid⟩ => ?_, fun ⟨hiid, hones⟩ => ⟨hones, .inr (.inr hiid)⟩⟩
  obtain hF | h0 | h1 := hiid
  · have hx2 : f.x2 = 0xF := by simp_all [Fields.allOnes]
    exact absurd ((listed_iff_of_iid_0F hF).2 (.inr (.inr hx2))) hnot
  · have hlisted : Listed f := (listed_iff_of_not_mem (by rw [h0]; decide)).2 (by rw [h0]; decide)
    exact absurd hlisted hnot
  · exact ⟨h1, hones⟩

end

/-- R68: the word `halt_1` by its fields. -/
theorem halt1_word_iff (w : Word) :
    w &&& 0xFFFFFFFFF#64 = 0x01FFFFFFF#64 ↔ (fields w).iid = 0x01 ∧ (fields w).allOnes = true := by
  rw [and_low36_eq_iff (by decide), show fields 0x01FFFFFFF#64 = ⟨0x01, 0xF, 0xF, 0xF, 0xF, 0xF, 0xF, 0xF⟩ from rfl]
  cases fields w
  simp only [Fields.mk.injEq, Fields.allOnes, Bool.and_eq_true, beq_iff_eq]
  tauto

/-- Settles O5: by the iid, as the rows that have it have selector fields or none; and R62 for the step. -/
theorem unlistedWordsAreExactlyTheseAndHalt : Obligations.UnlistedWordsAreExactlyTheseAndHalt := by
  refine ⟨fun w => ?gaps, fun s w why hrun hfetch hdecode hpolicy => ?halt⟩
  case gaps =>
    dsimp only
    rw [decode, unlisted_iff, ne_eq (w &&& _), halt1_word_iff]
    generalize fields w = f
    by_cases hsel : f.iid ∈ selectorIids
    · simp only [selectorIids, List.mem_cons, List.not_mem_nil, or_false] at hsel
      obtain h | h | h | h | h := hsel
      · simp [listed_iff_of_iid_01 h, h, and_assoc]
      · by_cases hu2 : f.u2 = 15#4 <;> simp [listed_iff_of_iid_08 h, h, hu2]
      · simp [listed_iff_of_iid_0F h, h, and_left_comm]
      · simp [listed_iff_of_iid_A5 h, h]
      · simp [listed_iff_of_iid_C1 h, h]
    · rw [listed_iff_of_not_mem hsel, not_not]
      simp only [selectorIids, List.mem_cons, List.not_mem_nil, or_false, not_or, BitVec.ofNat_eq_ofNat] at hsel
      simp [hsel, UnlistedIid]
  case halt =>
    rw [step_of_unlisted hrun hfetch hdecode, unlistedWord, preStep_params, hpolicy]
    exact ⟨_, rfl, rfl, preStep_pc s⟩

/-! ## The immediates of `ldi` (R54, R55) -/

theorem pairHigh_toNat (p : Byte) : (pairHigh p).toNat = p.toNat / 16 := by
  have hp := p.isLt
  rw [pairHigh, extractLsb'_toNat_eq]
  omega

theorem pairLow_toNat (p : Byte) : (pairLow p).toNat = p.toNat % 16 := by
  simp [pairLow]

/-- The word of `ldi` as a number. -/
theorem encode_ldi (rd : Nibble) (v : Byte) : encode (.ldi rd v) =
    BitVec.ofNat 64 (2 ^ 28 + rd.toNat * 2 ^ 24 + (immLdiU1 v).toNat * 2 ^ 12 + (immLdiU2 v).toNat * 2 ^ 8) := by
  have hrd := rd.isLt
  have hu1 := (immLdiU1 v).isLt
  have hu2 := (immLdiU2 v).isLt
  apply BitVec.eq_of_toNat_eq
  rw [encode, encFields_toNat, BitVec.toNat_ofNat]
  simp only [Instr.toFields, BitVec.ofNat_eq_ofNat, BitVec.toNat_ofNat]
  omega

theorem ldiEncodable_iff (v : Byte) : ldiEncodable v = true ↔ v.toNat < 16 ∨ v.toNat % 16 ≠ 0 := by
  simp [ldiEncodable]

/-- Every row builds a well-formed instruction; only that of `ldi` computes an operand with a restriction. -/
theorem wellFormed_build : ∀ r ∈ rows, ∀ f, (r.build f).wellFormed = true := by
  refine List.forall_mem_cons.2 ⟨fun _ => rfl, List.forall_mem_cons.2 ⟨fun f => ldiEncodable_immLdi f.u1 f.u2, ?_⟩⟩
  repeat refine List.forall_mem_cons.2 ⟨fun _ => rfl, ?_⟩
  exact List.forall_mem_nil _

theorem wellFormed_of_decode {w : Word} {i : Instr} (h : decode w = .ok i) : i.wellFormed = true := by
  obtain hhalt | ⟨r, hr, -, rfl⟩ := matchFields_ok_cases h
  · exact wellFormed_of_haltPattern hhalt
  · exact wellFormed_build r hr _

/-- Settles O8: the given words are the encoder's, and the decoder gives only well-formed instructions. -/
theorem ldiLoadsTheEncodableImmediates : Obligations.LdiLoadsTheEncodableImmediates := by
  have round := decodeOfEncodeGivesTheInstruction
  refine ⟨fun rd v hv => ?low, fun rd v hv hnibble => ?high, fun rd v w hv hnibble hd => ?none,
    fun c v => ⟨_, round (.ldiM c v) rfl⟩, fun w i => wellFormed_of_decode⟩
  case low =>
    have hword := round (.ldi rd v) ((ldiEncodable_iff v).2 (.inl hv))
    simpa [encode_ldi, immLdiU1, immLdiU2, hv, pairLow_toNat, Nat.mod_eq_of_lt hv] using hword
  case high =>
    have hword := round (.ldi rd v) ((ldiEncodable_iff v).2 (.inr hnibble))
    simpa [encode_ldi, immLdiU1, immLdiU2, hv.not_gt, pairHigh_toNat, pairLow_toNat] using hword
  case none =>
    have hv' := (ldiEncodable_iff v).1 (wellFormed_of_decode hd)
    omega

/-- Settles O7: each word is matched by evaluation. -/
theorem wordsOfTheSpecDecode : Obligations.WordsOfTheSpecDecode := by
  unfold Obligations.WordsOfTheSpecDecode
  decide

/-! ## Refusals (R56, R143) -/

theorem Answers.ne_refused {P : State → Prop} {F : Fault → Prop} {r : Result} (h : Answers P F r) (q : Refusal) :
    r ≠ .refused q := by
  rintro rfl; exact h

theorem exec_ne_refused (i : Instr) (s : State) (q : Refusal) : exec i s ≠ .refused q := (change_exec s i).ne_refused q

theorem unlistedWord_ne_refused (s : State) (q : Refusal) : unlistedWord s ≠ .refused q := by
  unfold unlistedWord
  cases s.params.unlistedPolicy with
  | haltFC => simp [raiseHalt]
  | refuse => simp

theorem afterExecute_ne_refused {r : Result} {q : Refusal} (h : r ≠ .refused q) : afterExecute r ≠ .refused q := by
  cases r with
  | next | fault => simp [afterExecute]
  | refused q' => exact h

theorem step_ne_refused (s : State) (q : Refusal) : step s ≠ .refused q := by
  cases hrun : s.run with
  | halted code msg => simp [step, hrun]
  | running =>
    cases hfetch : s.fetch s.pc.toNat with
    | none => simp [step, hrun, fetchAndExecute, hfetch]
    | some w =>
      cases hdecode : decode w with
      | error why => rw [step_of_unlisted hrun hfetch hdecode]; exact unlistedWord_ne_refused _ q
      | ok i => rw [step_of_decode hrun hfetch hdecode]; exact afterExecute_ne_refused (exec_ne_refused i _ q)

/-- Settles O25: an instruction answers a next state or a fault, and so does every phase around it. -/
theorem nothingIsRefused : Obligations.NothingIsRefused :=
  fun s q => ⟨fun i => exec_ne_refused i s q, step_ne_refused s q⟩

end Sys2Proof.Machine
end

section
/-!
PROOFS. The step, the no-op and the halt triplet (spec/40_system.md): what the step does with the word at the pc, from the
laws of the step, and the three halt words as the only ones that match their instructions.
-/

namespace Sys2Proof.Machine

/-! ## The word at the pc (R61, R62, R64) -/

/-- A step of a running machine with no word at the pc. -/
theorem step_of_fetch_none {s : State} (hrun : s.run = .running) (hfetch : s.fetch s.pc.toNat = none) :
    step s = .fault .endOfStream := by
  simp only [step, hrun, fetchAndExecute, preStep_fetch, preStep_pc, hfetch]

/-- Settles O10: no word of the stream stands at or past its length. -/
theorem fetchPastTheEndFaults : Obligations.FetchPastTheEndFaults :=
  fun _ hrun hlen => step_of_fetch_none hrun (List.getElem?_eq_none hlen)

/-- Settles O6: the pre-step phase keeps the policy, which decides. -/
theorem unlistedWordHaltsOrFaultsByPolicy : Obligations.UnlistedWordHaltsOrFaultsByPolicy := by
  intro s w why hrun hfetch hdecode
  rw [step_of_unlisted hrun hfetch hdecode, unlistedWord, preStep_params]
  constructor
  · intro hpolicy; rw [hpolicy]; rfl
  · intro hpolicy; rw [hpolicy]

/-- R105: the post-step phase belongs to the steps that go on. -/
theorem finishStep_eq_ite (s : State) : finishStep s = if s.run = .running then postStep s else s := by
  cases hrun : s.run with
  | running => rw [finishStep_of_running hrun, if_pos rfl]
  | halted code msg => rw [finishStep_of_halted hrun, if_neg (by simp)]

/-- Settles O9: the execute phase answers, and the end of the step changes only a next state. -/
theorem stepRunsTheDecodedInstruction : Obligations.StepRunsTheDecodedInstruction := by
  intro s w i hrun hfetch hdecode
  rw [step_of_decode hrun hfetch hdecode]
  cases exec i (preStep s) with
  | next t => exact congrArg _ (finishStep_eq_ite t)
  | fault | refused => rfl

/-! ## The no-op (R65) -/

/-- R53: a word that is no halt word matches the first row that selects it. -/
theorem matchFields_of_find {f : Fields} {r : Row} (hhalt : haltPattern f = none)
    (hfind : rows.find? (fun row => row.selects f) = some r) : matchFields f = .ok (r.build f) := by
  simp only [matchFields, hhalt, hfind]

/-- Settles O27: `nop` has the first row, which selects by the iid alone, and its rule is the pc's advance. -/
theorem nopAdvancesThePcOnly : Obligations.NopAdvancesThePcOnly := by
  refine ⟨encodedAs_iid fun f hiid hhalt => ?decodes, fun s => rfl⟩
  have hzero : f.iid = 0x00 := hiid
  have hfind : rows.find? (fun r => r.selects f) = some { iid := 0x00, build := fun _ => .nop } :=
    List.find?_cons_of_pos (by simp [Row.selects, selector, hzero])
  exact matchFields_of_find hhalt hfind

/-! ## The halt triplet (R66, R67, R68) -/

/-- The instructions of the halt words. -/
def haltInstrs : List Instr := [.haltF, .halt0, .halt1]

/-- A halt word of the match is the encoder's. -/
theorem eq_toFields_of_haltPattern {f : Fields} {i : Instr} (h : haltPattern f = some i) : f = i.toFields := by
  obtain ⟨iid, r1, r2, r3, u1, u2, x1, x2⟩ := f
  unfold haltPattern at h
  split_ifs at h with hones hiid hiid hiid <;> cases h <;> simp_all [Fields.allOnes, Instr.toFields]

/-- No row builds a halt instruction: stage 1 of the match is their only source. -/
theorem build_notMem_haltInstrs : ∀ r ∈ rows, ∀ f, r.build f ∉ haltInstrs := by
  simp [rows, rowsLow, rowsMiddle, rowsMath, haltInstrs]

theorem wellFormed_of_mem_haltInstrs : ∀ i ∈ haltInstrs, i.wellFormed = true := by decide

/-- A halt instruction is decoded from the encoder's word, bits 63:36 aside, and from no other. -/
theorem decode_eq_halt_iff {i : Instr} (hi : i ∈ haltInstrs) (w : Word) :
    decode w = .ok i ↔ w &&& 0xFFFFFFFFF#64 = encode i := by
  rw [encode, and_low36_eq_iff (encFields_high i.toFields), fields_encFields]
  constructor
  · intro h
    obtain hhalt | ⟨r, hr, -, rfl⟩ := matchFields_ok_cases h
    · exact eq_toFields_of_haltPattern hhalt
    · exact absurd hi (build_notMem_haltInstrs r hr _)
  · intro h; rw [decode, h, matchFields_toFields (wellFormed_of_mem_haltInstrs i hi)]

/-- Settles O4: each pattern is the encoder's word, and each rule is `raise Halt` with its code; the neighbouring words are
matched by evaluation. -/
theorem haltWordsMatchExactlyAndHalt : Obligations.HaltWordsMatchExactlyAndHalt := by
  refine ⟨fun i pattern code h => ?triplet, by decide, by decide, by decide⟩
  simp only [List.mem_cons, List.not_mem_nil, or_false, Prod.mk.injEq] at h
  obtain ⟨rfl, rfl, rfl⟩ | ⟨rfl, rfl, rfl⟩ | ⟨rfl, rfl, rfl⟩ := h <;>
    exact ⟨decode_eq_halt_iff (by decide), fun s => rfl⟩

end Sys2Proof.Machine
end

section
/-!
PROOFS. Immediate loads and cell moves (spec/41_data_move.md): a mask of the opcode table singles out the row, and the
laws of cells and stack give what each instruction does.
-/

namespace Sys2Proof.Machine

/-! ## The row that a mask singles out (R53, R56) -/

/-- The match may search for the selectors that a mask fixes: a row before the one found fails them, so it fails all its
selectors. -/
theorem matchFields_of_find_weaker {f : Fields} {r : Row} {q : Row → Bool} (hhalt : haltPattern f = none)
    (hfind : rows.find? q = some r) (hweaker : ∀ row : Row, row.selects f = true → q row = true)
    (hselects : r.selects f = true) : matchFields f = .ok (r.build f) := by
  obtain ⟨-, before, after, hrows, hbefore⟩ := List.find?_eq_some_iff_append.1 hfind
  have hskip : ∀ row ∈ before, (!row.selects f) = true := fun row hrow => by
    simpa using mt (hweaker row) (by simpa using hbefore row hrow)
  exact matchFields_of_find hhalt (List.find?_eq_some_iff_append.2 ⟨hselects, before, after, hrows, hskip⟩)

/-- Mask `0xFF0000000`: the first row of the iid, when it has no selectors. -/
theorem encodedAs_row_iid {p : Word} {build : Fields → Instr}
    (hfind : rows.find? (fun row => row.iid == (fields p).iid) = some { iid := (fields p).iid, build }) :
    EncodedAs p 0xFF0000000 build := by
  refine encodedAs_iid fun f hiid hhalt => matchFields_of_find_weaker hhalt hfind (fun row hrow => ?weaker) ?selects
  case weaker =>
    simp only [Row.selects, Bool.and_eq_true, beq_iff_eq] at hrow ⊢
    exact hrow.1.symm.trans hiid
  case selects => simp [Row.selects, selector, hiid]

/-- Mask `0xFF000000F`: the first row of the iid that accepts x2, when it has no other selector. -/
theorem encodedAs_row_x2 {p : Word} {build : Fields → Instr}
    (hfind : rows.find? (fun row => row.iid == (fields p).iid && selector row.x2 (fields p).x2) =
      some { iid := (fields p).iid, x2 := some (fields p).x2, build }) :
    EncodedAs p 0xFF000000F build := by
  refine encodedAs_x2 fun f hiid hx2 hhalt => matchFields_of_find_weaker hhalt hfind (fun row hrow => ?weaker) ?selects
  case weaker =>
    simp only [Row.selects, Bool.and_eq_true, beq_iff_eq] at hrow ⊢
    obtain ⟨hrowIid, -, -, hrowX2⟩ := hrow
    exact ⟨hrowIid.symm.trans hiid, hx2 ▸ hrowX2⟩
  case selects => simp [Row.selects, selector, hiid, hx2]

/-! ## Immediate loads (R69, R70) -/

/-- The decoder's immediate of `ldi`, by the spec's formula. -/
theorem immLdi_eq_sixteenths (u1 u2 : Nibble) :
    immLdi u1 u2 = if u2 = 0 then BitVec.ofNat 8 u1.toNat else sixteenths u1 u2 := by
  rw [immLdi, sixteenths_eq_pair, BitVec.ofNat_toNat]

/-- `zext_64` keeps the number. -/
theorem immWord_eq_ofNat (imm : Byte) : immWord imm = BitVec.ofNat 64 imm.toNat :=
  (BitVec.ofNat_toNat 64 imm).symm

/-- Settles O28: the two rows of iid 0x01 differ in x2, and each rule is one write of the immediate. -/
theorem immediateLoadsWriteTheirCell : Obligations.ImmediateLoadsWriteTheirCell := by
  refine ⟨?ldiWord, ?ldiMWord, fun s rd imm hregs => ?ldi, fun s c imm => ?ldiM⟩
  case ldiWord =>
    simp only [← immLdi_eq_sixteenths]
    exact encodedAs_row_x2 rfl
  case ldiMWord =>
    simp only [sixteenths_eq_pair]
    exact encodedAs_row_x2 rfl
  case ldi =>
    rw [← immWord_eq_ofNat]
    exact writesOnly_reg hregs rd _
  case ldiM =>
    rw [← immWord_eq_ofNat]
    exact inRangeElseHalts_writesOnly s (pairIndex c) _

/-! ## The exchange (R71) -/

theorem RegistersExist.setCells {s : State} (h : RegistersExist s) (m : Memory) : RegistersExist (s.setCells m) := h

/-- A line of the exchange on registers. -/
theorem xorCells_reg {s : State} (h : RegistersExist s) (d i j : Nibble) (k : State → Result) :
    xorCells d.toNat i.toNat j.toNat s k =
      k (s.setCells (s.cells.write d.toNat (s.cell i.toNat ^^^ s.cell j.toNat))) := by
  have hin : ∀ r : Nibble, r.toNat < s.params.memCells := regIndex_in_range h
  rw [xorCells, readCell_in_range (hin i), readCell_in_range (hin j), writeCell_in_range (hin d)]

/-- The cell store after the three lines of the exchange. -/
def xorExchanged (m : Memory) (i j : Nat) : Memory :=
  let first := m.write i (m.read i ^^^ m.read j)
  let second := first.write j (first.read i ^^^ first.read j)
  second.write i (second.read i ^^^ second.read j)

/-- The second line leaves the old `x[i]` in cell `j`, and the third cancels it in cell `i`. -/
theorem read_xorExchanged (m : Memory) {i j : Nat} (hij : i ≠ j) (a : Nat) :
    (xorExchanged m i j).read a = if a = i then m.read j else if a = j then m.read i else m.read a := by
  have hsecond : m.read i ^^^ m.read j ^^^ m.read j = m.read i := by rw [BitVec.xor_assoc]; simp
  have hthird : m.read i ^^^ m.read j ^^^ m.read i = m.read j := by rw [BitVec.xor_comm, ← BitVec.xor_assoc]; simp
  simp only [xorExchanged, Memory.read_write, hij, hij.symm, if_true, if_false, hsecond, hthird]
  split_ifs <;> rfl

/-- With different registers, the rule is the three lines. -/
theorem exec_swap_of_ne {s : State} (h : RegistersExist s) {ra rb : Nibble} (hne : ra.toNat ≠ rb.toNat) :
    exec (.swap ra rb) s = advance (s.setCells (xorExchanged s.cells ra.toNat rb.toNat)) := by
  calc exec (.swap ra rb) s
    _ = xorCells ra.toNat ra.toNat rb.toNat s fun s => xorCells rb.toNat ra.toNat rb.toNat s fun s =>
          xorCells ra.toNat ra.toNat rb.toNat s advance := if_neg hne
    _ = _ := by
      rw [xorCells_reg h, xorCells_reg (h.setCells _), xorCells_reg ((h.setCells _).setCells _)]
      rfl

/-- Settles O29: the guard answers for equal registers, the three lines for different ones. -/
theorem swapExchangesTwoRegisters : Obligations.SwapExchangesTwoRegisters := by
  refine ⟨encodedAs_row_iid rfl, fun s ra rb hregs => ?exchange⟩
  by_cases heq : ra.toNat = rb.toNat
  · have hcell : s.cell ra.toNat = s.cell rb.toNat := congrArg s.cell heq
    exact ⟨s.setPc (s.pc + 1), if_pos heq, hcell, hcell.symm, fun _ _ _ => rfl, rfl⟩
  · have hread := read_xorExchanged s.cells heq
    refine ⟨_, exec_swap_of_ne hregs heq, ?first, ?second, fun a ha hb => ?others, rfl⟩
    case first => simp [hread, State.cell_eq]
    case second => simp [hread, State.cell_eq, Ne.symm heq]
    case others => simp [hread, State.cell_eq, ha, hb]

/-! ## The copy (R72) -/

/-- Settles O30: a checked read, then a checked write that ends the rule. -/
theorem dupCopiesACell : Obligations.DupCopiesACell := by
  refine ⟨?word, fun s src dst => ?copy⟩
  case word =>
    simp only [sixteenths_eq_pair]
    exact encodedAs_row_iid rfl
  case copy =>
    exact inRangeElseHalts_readCell (k := fun v => writeCell (pairIndex dst) v s advance)
      (inRangeElseHalts_writesOnly s (pairIndex dst) _)

/-! ## The pop (R73) -/

theorem pop_cons {s : State} {v : Word} {rest : List Word} (h : s.stack = v :: rest) (k : Word → State → Result) :
    pop s k = k v (s.setStack rest) := by
  simp only [pop, h]

theorem pop_nil {s : State} (h : s.stack = []) (k : Word → State → Result) : pop s k = .fault .stackUnderflow := by
  simp only [pop, h]

/-- R73: `pull` is a pop, then a register write that ends the rule. -/
theorem exec_pull (rd : Nibble) (s : State) :
    exec (.pull rd) s = pop s fun v t => writeCell (regIndex rd) v t advance := rfl

/-- Settles O31: the two outcomes of the pop; the stack's update leaves the cells in range. -/
theorem pullPopsIntoARegister : Obligations.PullPopsIntoARegister := by
  refine ⟨encodedAs_row_iid rfl, fun s rd v rest hregs hstack => ?top, fun s rd hempty => ?empty⟩
  case top =>
    rw [exec_pull, pop_cons hstack]
    exact writesOnly_reg (s := s.setStack rest) hregs rd v
  case empty => rw [exec_pull, pop_nil hempty]

end Sys2Proof.Machine
end

section
/-!
PROOFS. The device bus (spec/42_device.md): a rule that finds its device records its writes or pushes the answer, and the
text of a cell is its decimal numeral.
-/

namespace Sys2Proof.Machine

/-! ## Finding the device (R37, R139) -/

theorem findDevice_of_mem {id : Nibble} {s : State} (h : id ∈ s.params.devices) (k : Result) : findDevice id s k = k :=
  if_pos h

theorem haltsOnly_findDevice {id : Nibble} {s : State} (h : id ∉ s.params.devices) (k : Result) :
    HaltsOnly s Config.deviceNotFoundCode (findDevice id s k) :=
  ⟨_, if_neg h⟩

/-! ## Device writes (R74, R75) -/

theorem exec_wdevS (d p rv : Nibble) (s : State) :
    exec (.wdevS d p rv) s =
      findDevice d s (readCell (regIndex rv) s fun v => advance (writeDevice d p (lowByte v) s)) := rfl

theorem exec_wdevL (d p n3 n2 n1 n0 : Nibble) (s : State) :
    exec (.wdevL d p n3 n2 n1 n0) s =
      findDevice d s (advance (writeDevice d p (immLong s.params.longAssembly n3 n2 n1 n0) s)) := rfl

/-- A write that ends a rule. -/
theorem advance_writeDevice (d p : Nibble) (v : Word) (s : State) :
    advance (writeDevice d p v s) = .next { s with devWrites := s.devWrites ++ [⟨d, p, v⟩], pc := s.pc + 1 } := rfl

/-- Bits 7:0 of a value. -/
theorem lowByte_eq_ofNat (v : Word) : lowByte v = BitVec.ofNat 64 (v.toNat % 256) := by
  apply BitVec.eq_of_toNat_eq
  have hlow : v.toNat &&& 0xFF = v.toNat % 256 := Nat.and_two_pow_sub_one_eq_mod v.toNat 8
  rw [lowByte, BitVec.toNat_and, BitVec.toNat_ofNat, show (0xFF : Word).toNat = 0xFF from rfl, hlow]
  omega

/-- `zext_64` of any field keeps the number. -/
theorem zeroExtend_eq_ofNat {w : Nat} (v : BitVec w) : v.zeroExtend 64 = BitVec.ofNat 64 v.toNat :=
  (BitVec.ofNat_toNat 64 v).symm

/-- A nibble put above a number that stays below its place. -/
theorem shiftLeft_or_ofNat (n : Nibble) {k m : Nat} (hm : m < 2 ^ k) :
    n.zeroExtend 64 <<< k ||| BitVec.ofNat 64 m = BitVec.ofNat 64 (n.toNat * 2 ^ k + m) := by
  have hshift : n.zeroExtend 64 <<< k = BitVec.ofNat 64 (2 ^ k * n.toNat) := by
    apply BitVec.eq_of_toNat_eq
    simp [Nat.shiftLeft_eq, Nat.mul_comm]
  rw [hshift, ← BitVec.ofNat_or, ← Nat.two_pow_add_eq_or_of_lt hm, Nat.mul_comm]

/-- A nibble put above a number stays below the next place. -/
theorem nibble_place_lt (n : Nibble) {k j m : Nat} (hm : m < 2 ^ k) (hj : k + 4 ≤ j) : n.toNat * 2 ^ k + m < 2 ^ j := by
  have hn : n.toNat * 2 ^ k ≤ 15 * 2 ^ k := Nat.mul_le_mul_right _ (Nat.le_of_lt_succ n.isLt)
  calc n.toNat * 2 ^ k + m
    _ < 2 ^ (k + 4) := by rw [Nat.pow_add]; omega
    _ ≤ 2 ^ j := Nat.pow_le_pow_right (by decide) hj

/-- Four nibbles at places that lie four bits apart or more. -/
theorem nibbles_or_eq_ofNat (n3 n2 n1 n0 : Nibble) {k1 k2 k3 : Nat}
    (h1 : 4 ≤ k1) (h2 : k1 + 4 ≤ k2) (h3 : k2 + 4 ≤ k3) :
    n3.zeroExtend 64 <<< k3 ||| n2.zeroExtend 64 <<< k2 ||| n1.zeroExtend 64 <<< k1 ||| n0.zeroExtend 64 =
      BitVec.ofNat 64 (n3.toNat * 2 ^ k3 + n2.toNat * 2 ^ k2 + n1.toNat * 2 ^ k1 + n0.toNat) := by
  have hm1 : n0.toNat < 2 ^ k1 := n0.isLt.trans_le (Nat.pow_le_pow_right (by decide) h1)
  have hm2 := nibble_place_lt n1 hm1 h2
  have hm3 := nibble_place_lt n2 hm2 h3
  rw [BitVec.or_assoc, BitVec.or_assoc, zeroExtend_eq_ofNat n0, shiftLeft_or_ofNat n1 hm1, shiftLeft_or_ofNat n2 hm2,
    shiftLeft_or_ofNat n3 hm3, ← Nat.add_assoc, ← Nat.add_assoc]

theorem immLong_spread (n3 n2 n1 n0 : Nibble) : immLong .spread n3 n2 n1 n0 =
    BitVec.ofNat 64 (n3.toNat * 2 ^ 24 + n2.toNat * 2 ^ 16 + n1.toNat * 2 ^ 8 + n0.toNat) :=
  nibbles_or_eq_ofNat n3 n2 n1 n0 (by decide) (by decide) (by decide)

theorem immLong_dense (n3 n2 n1 n0 : Nibble) : immLong .dense n3 n2 n1 n0 =
    BitVec.ofNat 64 (n3.toNat * 2 ^ 12 + n2.toNat * 2 ^ 8 + n1.toNat * 2 ^ 4 + n0.toNat) :=
  nibbles_or_eq_ofNat n3 n2 n1 n0 (by decide) (by decide) (by decide)

/-- Settles O32: with the device found, each rule is one write of the value by its formula. -/
theorem deviceWritesRecordOneWrite : Obligations.DeviceWritesRecordOneWrite := by
  refine ⟨encodedAs_row_x2 rfl, encodedAs_row_x2 rfl,
    fun s d p rv => ⟨fun hd hregs => ?short, fun hd => haltsOnly_findDevice hd _⟩,
    fun s d p n3 n2 n1 n0 => ⟨fun hd how => ?spread, fun hd how => ?dense, fun hd => haltsOnly_findDevice hd _⟩⟩
  case short =>
    rw [exec_wdevS, findDevice_of_mem hd, readCell_reg hregs, advance_writeDevice, lowByte_eq_ofNat]
  case spread => rw [exec_wdevL, findDevice_of_mem hd, advance_writeDevice, how, immLong_spread]
  case dense => rw [exec_wdevL, findDevice_of_mem hd, advance_writeDevice, how, immLong_dense]

/-! ## Device reads (R76) -/

theorem exec_rdev (d p : Nibble) (s : State) :
    exec (.rdev d p) s = findDevice d s (push (Config.deviceAnswer s.draws d p) s.drawn advance) := rfl

/-- Settles O33: with the device found, the rule is a push, and the draw leaves the room on the stack as it is. -/
theorem deviceReadPushesTheAnswer : Obligations.DeviceReadPushesTheAnswer := by
  refine ⟨encodedAs_row_iid rfl, fun s d p =>
    ⟨fun hd hroom => ?room, fun hd hfull => ?full, fun hd => haltsOnly_findDevice hd _⟩⟩
  case room =>
    have hroom' : s.drawn.hasRoom 1 = true := hroom
    rw [exec_rdev, findDevice_of_mem hd, push_room hroom']
    rfl
  case full =>
    have hfull' : s.drawn.hasRoom 1 = false := hfull
    rw [exec_rdev, findDevice_of_mem hd, push_full hfull']

/-! ## The decimal numeral of a cell (R77) -/

/-- The digits of the decimal numeral of `n`, most significant first, with no leading zero but that of zero itself. -/
structure DecimalNumeral (digits : List Nat) (n : Nat) : Prop where
  ne_nil : digits ≠ []
  lt_ten : ∀ d ∈ digits, d < 10
  no_leading_zero : digits.head? = some 0 → digits = [0]
  value : digits.foldl (fun acc d => 10 * acc + d) 0 = n

theorem DecimalNumeral.singleton {n : Nat} (h : n < 10) : DecimalNumeral [n] n where
  ne_nil := List.cons_ne_nil _ _
  lt_ten := by simpa using h
  no_leading_zero := by simp
  value := by simp

/-- One more digit: the leading digit is zero only when the number without the last digit is. -/
theorem DecimalNumeral.append {digits : List Nat} {n : Nat} (h : DecimalNumeral digits (n / 10)) (hn : 10 ≤ n) :
    DecimalNumeral (digits ++ [n % 10]) n where
  ne_nil := by simp
  lt_ten d hd := by
    obtain hd | rfl : d ∈ digits ∨ d = n % 10 := by simpa using hd
    · exact h.lt_ten d hd
    · exact Nat.mod_lt n (by decide)
  no_leading_zero hhead := by
    rw [List.head?_append_of_ne_nil _ h.ne_nil] at hhead
    have hzero : 0 = n / 10 := by simpa [h.no_leading_zero hhead] using h.value
    omega
  value := by
    rw [List.foldl_concat, h.value]
    exact Nat.div_add_mod n 10

/-- The model's digits are the bytes of the numeral, when there are enough of them. -/
theorem exists_decimalNumeral_map_eq_decimalDigits {k n : Nat} (h : n < 10 ^ (k + 1)) :
    ∃ digits, DecimalNumeral digits n ∧ decimalDigits (k + 1) n = digits.map digitByte := by
  induction k generalizing n with
  | zero => exact ⟨[n], .singleton h, if_pos h⟩
  | succ k ih =>
    rw [decimalDigits]
    split_ifs with hn
    · exact ⟨[n], .singleton hn, rfl⟩
    · obtain ⟨digits, hdigits, heq⟩ := ih (n := n / 10) (Nat.div_lt_of_lt_mul (by rwa [Nat.mul_comm]))
      exact ⟨digits ++ [n % 10], hdigits.append (not_lt.1 hn), by simp [heq]⟩

/-- A cell is below 10^20, so the 20 digits of its text are enough. -/
theorem exists_decimalNumeral_emitText (v : Word) :
    ∃ digits, DecimalNumeral digits v.toNat ∧ emitText false v = digits.map digitByte :=
  exists_decimalNumeral_map_eq_decimalDigits (k := 19) (v.isLt.trans (by decide))

theorem digitByte_zeroExtend {d : Nat} (h : d < 10) : (digitByte d).zeroExtend 64 = BitVec.ofNat 64 (0x30 + d) := by
  rw [zeroExtend_eq_ofNat, digitByte, BitVec.toNat_ofNat, Nat.mod_eq_of_lt (by omega)]

/-! ## The writes of a text (R77) -/

/-- With the device found, `emit` records one write for each byte of the text. -/
theorem exec_emit {s : State} {d : Nibble} (hd : d ∈ s.params.devices) (hregs : RegistersExist s) (p rv : Nibble) :
    exec (.emit d p rv) s = .next { s with
      devWrites := s.devWrites ++ (emitText s.ff (s.cell rv.toNat)).map fun c => ⟨d, p, BitVec.zeroExtend 64 c⟩,
      pc := s.pc + 1 } := by
  calc exec (.emit d p rv) s
    _ = findDevice d s (readCell (regIndex rv) s fun v => advance (writeDeviceText d p (emitText s.ff v) s)) := rfl
    _ = _ := by
      rw [findDevice_of_mem hd, readCell_reg hregs, writeDeviceText_eq]
      rfl

/-- Settles O34: with the device found, the rule writes the text of the cell, in integer mode its numeral. -/
theorem emitWritesTheTextOfACell : Obligations.EmitWritesTheTextOfACell := by
  refine ⟨encodedAs_row_x2 rfl, fun s d p rv =>
    ⟨fun hd hregs hff => ?decimal, fun hd hregs hff => ?float, fun hd => haltsOnly_findDevice hd _⟩⟩
  case decimal =>
    obtain ⟨digits, ⟨hne, hten, hzero, hvalue⟩, htext⟩ := exists_decimalNumeral_emitText (s.cell rv.toNat)
    refine ⟨digits, hne, hten, hzero, hvalue, ?_⟩
    have hwrites : (digits.map digitByte).map (fun c => (⟨d, p, c.zeroExtend 64⟩ : DevWrite)) =
        digits.map fun n => ⟨d, p, BitVec.ofNat 64 (0x30 + n)⟩ := by
      rw [List.map_map]
      exact List.map_congr_left fun n hn => by rw [Function.comp, digitByte_zeroExtend (hten n hn)]
    rw [exec_emit hd hregs, hff, htext, hwrites]
  case float =>
    simp only [exec_emit hd hregs, hff, emitText, if_true, zeroExtend_eq_ofNat]

end Sys2Proof.Machine
end

section
/-!
PROOFS. Control (spec/43_control.md): the pc captured and redirected, the replay by the words it pushes one at a time, and
the scan by the first `ret` in the rest of the stream.
-/

namespace Sys2Proof.Machine

/-! ## The rows of iid 0x08 (R53, R56) -/

/-- Mask `0xFF0000F00`: the first row of the iid that accepts u2, when it has no other selector. -/
theorem encodedAs_row_u2 {p : Word} {build : Fields → Instr}
    (hfind : rows.find? (fun row => row.iid == (fields p).iid && selector row.u2 (fields p).u2) =
      some { iid := (fields p).iid, u2 := some (fields p).u2, build }) :
    EncodedAs p 0xFF0000F00 build := by
  refine encodedAs_u2 fun f hiid hu2 hhalt => matchFields_of_find_weaker hhalt hfind (fun row hrow => ?weaker) ?selects
  case weaker =>
    simp only [Row.selects, Bool.and_eq_true, beq_iff_eq] at hrow ⊢
    obtain ⟨hrowIid, hrowU2, -, -⟩ := hrow
    exact ⟨hrowIid.symm.trans hiid, hu2 ▸ hrowU2⟩
  case selects => simp [Row.selects, selector, hiid, hu2]

/-- Mask `0xFF0000FF0`: the first row of the iid that accepts u2 and x1, when it has no other selector. -/
theorem encodedAs_row_u2_x1 {p : Word} {build : Fields → Instr}
    (hfind : rows.find? (fun row =>
        row.iid == (fields p).iid && (selector row.u2 (fields p).u2 && selector row.x1 (fields p).x1)) =
      some { iid := (fields p).iid, u2 := some (fields p).u2, x1 := some (fields p).x1, build }) :
    EncodedAs p 0xFF0000FF0 build := by
  refine encodedAs_u2_x1 fun f hiid hu2 hx1 hhalt =>
    matchFields_of_find_weaker hhalt hfind (fun row hrow => ?weaker) ?selects
  case weaker =>
    simp only [Row.selects, Bool.and_eq_true, beq_iff_eq] at hrow ⊢
    obtain ⟨hrowIid, hrowU2, hrowX1, -⟩ := hrow
    exact ⟨hrowIid.symm.trans hiid, hu2 ▸ hrowU2, hx1 ▸ hrowX1⟩
  case selects => simp [Row.selects, selector, hiid, hu2, hx1]

/-! ## Capture and the unconditional jump (R78, R79) -/

theorem exec_pcap (rd : Nibble) (s : State) : exec (.pcap rd) s = writeCell (regIndex rd) s.pc s advance := rfl

theorem exec_jumpT (rt : Nibble) (s : State) : exec (.jumpT rt) s = readCell (regIndex rt) s fun t => jumpTo t s := rfl

theorem goesOnlyTo_jumpTo (s : State) (a : Word) : GoesOnlyTo s a (jumpTo a s) := rfl

/-- Settles O35: `pcap` is one register write, and `jump_t` one register read that the jump ends. -/
theorem pcapAndUnconditionalJumpUseTheProgramCounter : Obligations.PcapAndUnconditionalJumpUseTheProgramCounter := by
  refine ⟨encodedAs_row_u2 rfl, encodedAs_row_u2_x1 rfl, fun s rd hregs => ?pcap, fun s rt hregs => ?jumpT⟩
  case pcap =>
    rw [exec_pcap]
    exact writesOnly_reg hregs rd s.pc
  case jumpT =>
    rw [exec_jumpT, readCell_reg hregs]
    exact goesOnlyTo_jumpTo s _

/-! ## The conditional jumps (R80..R83, D16) -/

section
variable {a b : Int}

@[simp] theorem JumpTest.onInt_e : JumpTest.e.onInt a b = true ↔ a ≥ b := decide_eq_true_iff

@[simp] theorem JumpTest.onInt_g : JumpTest.g.onInt a b = true ↔ a > b := decide_eq_true_iff

@[simp] theorem JumpTest.onInt_u : JumpTest.u.onInt a b = true ↔ a < b := decide_eq_true_iff

@[simp] theorem JumpTest.onInt_y : JumpTest.y.onInt a b = true ↔ a ≤ b := decide_eq_true_iff

end

@[simp] theorem JumpTest.holds_unsigned (test : JumpTest) (ff : Bool) (a b : Word) :
    test.holds .unsigned ff a b = test.onInt a.toNat b.toNat := rfl

@[simp] theorem JumpTest.holds_signed (test : JumpTest) (ff : Bool) (a b : Word) :
    test.holds .signed ff a b = test.onInt a.toInt b.toInt := rfl

/-- A conditional jump goes to its register when the comparison holds; `c` says that it does. -/
theorem goesOnlyTo_conditionalJump {s : State} (h : RegistersExist s) {test : JumpTest} {rt ra rb : Nibble}
    {c : Prop} [Decidable c]
    (hc : test.holds s.params.jumpCmp s.ff (s.cell ra.toNat) (s.cell rb.toNat) = true ↔ c) :
    GoesOnlyTo s (if c then s.cell rt.toNat else s.pc + 1) (conditionalJump test rt ra rb s) := by
  rw [conditionalJump, readCell_reg h, readCell_reg h, readCell_reg h]
  by_cases hholds : c
  · rw [if_pos (hc.2 hholds), if_pos hholds]
    exact goesOnlyTo_jumpTo s _
  · rw [if_neg (mt hc.1 hholds), if_neg hholds]
    exact goesOnlyTo_jumpTo s _

/-- Settles O36: the four jumps are one rule with four comparisons, of natural numbers or of two's complement integers. -/
theorem conditionalJumpsCompareTwoRegisters : Obligations.ConditionalJumpsCompareTwoRegisters := by
  refine ⟨encodedAs_row_u2_x1 rfl, encodedAs_row_u2_x1 rfl, encodedAs_row_u2_x1 rfl, encodedAs_row_u2_x1 rfl, ?jumps⟩
  intro s rt ra rb hregs a b pcWhen
  refine ⟨fun how => ⟨?_, ?_, ?_, ?_⟩, fun how => ⟨?_, ?_, ?_, ?_⟩⟩ <;>
    exact goesOnlyTo_conditionalJump hregs (by simp [how, a, b])

/-! ## The replay (R84) -/

theorem exec_orb (n : Nibble) (s : State) :
    exec (.orb n) s = pushWords n.toNat (s.pc.toNat + 1) s fun t => advancePast n.toNat t := rfl

/-- Words that the stream holds and the stack has room for are pushed, the last on top, before the rest. -/
theorem pushWords_of_fetch (ws : List Word) (n : Nat) {a : Nat} {s : State} (hroom : s.hasRoom ws.length = true)
    (hfetch : ∀ k < ws.length, s.fetch (a + k) = ws[k]?) (k : State → Result) :
    pushWords (ws.length + n) a s k = pushWords n (a + ws.length) (s.setStack (ws.reverse ++ s.stack)) k := by
  induction ws generalizing a s with
  | nil => rw [List.length_nil, Nat.zero_add]; rfl
  | cons w ws ih =>
    have hfirst : s.fetch a = some w := hfetch 0 (by simp)
    have hone : s.hasRoom 1 = true := hasRoom_of_le s hroom (by simp)
    have hlater : ∀ j < ws.length, (s.setStack (w :: s.stack)).fetch (a + 1 + j) = ws[j]? := fun j hj => by
      simpa [Nat.add_assoc, Nat.add_comm 1] using hfetch (j + 1) (by simpa using hj)
    calc pushWords ((w :: ws).length + n) a s k
      _ = pushWords (ws.length + n + 1) a s k := by rw [List.length_cons, Nat.add_right_comm]
      _ = pushWords (ws.length + n) (a + 1) (s.setStack (w :: s.stack)) k := pushWords_succ_of_fetch hone hfirst _ _
      _ = pushWords n (a + 1 + ws.length) ((s.setStack (w :: s.stack)).setStack (ws.reverse ++ w :: s.stack)) k :=
          ih (by simpa using hroom) hlater
      _ = _ := by simp [State.setStack, Nat.add_assoc, Nat.add_comm 1]

theorem haltsOnly_pushWords_of_fetch_none {a : Nat} {s : State} (h : s.fetch a = none) (n : Nat) (k : State → Result) :
    HaltsOnly s 0xA1 (pushWords (n + 1) a s k) := by
  simp only [pushWords, fetchInside, h]
  exact ⟨_, rfl⟩

theorem pushWords_succ_of_full {s : State} {w : Word} {a : Nat} (hfull : s.hasRoom 1 = false) (hw : s.fetch a = some w)
    (n : Nat) (k : State → Result) : pushWords (n + 1) a s k = .fault .stackOverflow := by
  simp only [pushWords, fetchInside, hw, push_full hfull]

/-- A stack without room for `m + 1` words fills at one of them, when the stream holds them. -/
theorem pushWords_of_full {m n a : Nat} {s : State} (hm : m < n) (hfull : s.hasRoom (m + 1) = false)
    (hfetch : ∀ j ≤ m, s.fetch (a + j) ≠ none) (k : State → Result) : pushWords n a s k = .fault .stackOverflow := by
  induction n generalizing m a s with
  | zero => exact absurd hm (Nat.not_lt_zero m)
  | succ n ih =>
    obtain ⟨w, hw⟩ := Option.ne_none_iff_exists'.1 (hfetch 0 (Nat.zero_le m))
    cases hone : s.hasRoom 1 with
    | false => exact pushWords_succ_of_full hone hw n k
    | true =>
      obtain ⟨m, rfl⟩ := Nat.exists_eq_succ_of_ne_zero (n := m) (by rintro rfl; simp [hone] at hfull)
      refine (pushWords_succ_of_fetch hone hw n k).trans
        (ih (Nat.lt_of_succ_lt_succ hm) (by simpa using hfull) fun j hj => ?_)
      simpa [Nat.add_assoc, Nat.add_comm 1] using hfetch (j + 1) (Nat.succ_le_succ hj)

/-- Settles O38: the words held are pushed, and then the count is over or the stream is; or the stack fills before. -/
theorem orbPushesTheNextWords : Obligations.OrbPushesTheNextWords := by
  refine ⟨encodedAs_row_iid rfl, fun s n ws hlen hroom hfetch => ?all, fun s n ws hlen hroom hfetch hend => ?ends,
    fun s n k hk hfull hfetch => ?full⟩
  case all =>
    rw [← hlen] at hroom hfetch
    rw [exec_orb, ← hlen]
    exact pushWords_of_fetch ws 0 hroom hfetch _
  case ends =>
    obtain ⟨m, hm⟩ : ∃ m, n.toNat = ws.length + (m + 1) := Nat.exists_eq_add_of_lt hlen
    rw [exec_orb, hm, pushWords_of_fetch ws (m + 1) hroom hfetch]
    exact haltsOnly_pushWords_of_fetch_none (s := s.setStack (ws.reverse ++ s.stack)) hend m _
  case full =>
    rw [exec_orb]
    exact pushWords_of_full hk hfull hfetch _

/-! ## The scan (R85) -/

/-- One word of the scan, when the stream holds it. -/
theorem scanForRet_drop {s : State} {b : Nat} {v : Word} (h : s.fetch b = some v) :
    scanForRet (s.program.drop b) b =
      if decode v = .ok .ret then some b else scanForRet (s.program.drop (b + 1)) (b + 1) := by
  obtain ⟨hb, rfl⟩ := List.getElem?_eq_some_iff.1 h
  rw [List.drop_eq_getElem_cons hb, scanForRet]

/-- The scan passes words that are no `ret`, and ends at the first that is one. -/
theorem scanForRet_eq_some {s : State} {w : Word} (d : Nat) {b : Nat}
    (hbefore : ∀ j, b ≤ j → j < b + d → ∃ v, s.fetch j = some v ∧ decode v ≠ .ok .ret)
    (hw : s.fetch (b + d) = some w) (hret : decode w = .ok .ret) :
    scanForRet (s.program.drop b) b = some (b + d) := by
  induction d generalizing b with
  | zero => exact (scanForRet_drop hw).trans (if_pos hret)
  | succ d ih =>
    obtain ⟨v, hv, hpass⟩ := hbefore b le_rfl (by omega)
    have hnext : b + 1 + d = b + (d + 1) := by omega
    rw [scanForRet_drop hv, if_neg hpass, ih (fun j hj hj' => hbefore j (by omega) (by omega)) (hnext ▸ hw), hnext]

theorem scanForRet_eq_none {ws : List Word} (h : ∀ v ∈ ws, decode v ≠ .ok .ret) (a : Nat) : scanForRet ws a = none := by
  induction ws generalizing a with
  | nil => rfl
  | cons w ws ih =>
    rw [scanForRet, if_neg (h w List.mem_cons_self)]
    exact ih (fun v hv => h v (List.mem_cons_of_mem w hv)) (a + 1)

/-- The scan of the rest of the stream finds nothing when no word of it is a `ret`. -/
theorem scanForRet_drop_eq_none {s : State} {b : Nat} (h : ∀ j v, b ≤ j → s.fetch j = some v → decode v ≠ .ok .ret) :
    scanForRet (s.program.drop b) b = none := by
  refine scanForRet_eq_none (fun v hv => ?_) b
  obtain ⟨j, hj⟩ := List.mem_iff_getElem?.1 hv
  rw [List.getElem?_drop] at hj
  exact h (b + j) v (Nat.le_add_right b j) hj

/-- Room for two is room for one, and for one more after it. -/
theorem push_push_of_room {s : State} (hroom : s.hasRoom 2 = true) (v : Word) (w : State → Word) (k : State → Result) :
    push v s (fun t => push (w t) t k) =
      k ((s.setStack (v :: s.stack)).setStack (w (s.setStack (v :: s.stack)) :: v :: s.stack)) := by
  have hmore : (s.setStack (v :: s.stack)).hasRoom 1 = true := by rw [hasRoom_setStack_cons]; exact hroom
  rw [push_room (hasRoom_of_le s hroom one_le_two), push_room hmore]
  rfl

theorem push_push_of_full {s : State} (hfull : s.hasRoom 2 = false) (v : Word) (w : State → Word) (k : State → Result) :
    push v s (fun t => push (w t) t k) = .fault .stackOverflow := by
  cases hone : s.hasRoom 1 with
  | false => exact push_full hone v _
  | true =>
    have hmore : (s.setStack (v :: s.stack)).hasRoom 1 = false := by rw [hasRoom_setStack_cons]; exact hfull
    rw [push_room hone, push_full hmore]

theorem exec_sig (rd : Nibble) (s : State) : exec (.sig rd) s = execSig rd s := rfl

section
variable {s : State} (hregs : RegistersExist s) (rd : Nibble)
include hregs

/-- The call-site pc stands in the first cell and on the stack when the scan ends; a `ret` moves it on to the second cell. -/
theorem exec_sig_of_room (hroom : s.hasRoom 2 = true) :
    exec (.sig rd) s =
      (scanForRet (s.program.drop (s.pc.toNat + 1)) (s.pc.toNat + 1)).elim
        (raiseHaltFor .streamExhausted streamExhaustedCode
          ((s.setCells (s.cells.write rd.toNat s.pc)).setStack (s.pc :: s.stack)))
        fun a => jumpTo (BitVec.ofNat 64 (a + 1))
          (s.setCells ((s.cells.write rd.toNat s.pc).write (rd.toNat + 1) s.pc)) := by
  rw [exec_sig, execSig, writeCell_in_range (regIndex_in_range hregs rd)]
  refine (push_push_of_room (s := s.setCells (s.cells.write (regIndex rd) s.pc)) hroom _ _ _).trans ?_
  rw [pop_cons rfl]
  simp only [State.setStack_program, State.setStack_pc, State.setCells_program, State.setCells_pc]
  cases scanForRet (s.program.drop (s.pc.toNat + 1)) (s.pc.toNat + 1) with
  | none => rfl
  | some a =>
    refine (pop_cons rfl _).trans (writeCell_in_range ?inRange s.pc _)
    exact nextIndex_in_range hregs rd

theorem exec_sig_of_full (hfull : s.hasRoom 2 = false) : exec (.sig rd) s = .fault .stackOverflow := by
  rw [exec_sig, execSig, writeCell_in_range (regIndex_in_range hregs rd)]
  exact push_push_of_full (s := s.setCells (s.cells.write (regIndex rd) s.pc)) hfull _ _ _

end

/-- Settles O39: the scan ends at the first `ret` or finds none, and the second push needs the room. -/
theorem sigScansToTheFirstRet : Obligations.SigScansToTheFirstRet := by
  refine ⟨encodedAs_row_x2 rfl, fun s rd a w hregs hroom ha hbefore hw hret => ?found,
    fun s rd hregs hroom hno => ?exhausted, fun s rd hregs hfull => exec_sig_of_full hregs rd hfull⟩
  case found =>
    obtain ⟨d, rfl⟩ := Nat.exists_eq_add_of_le (Nat.succ_le_of_lt ha)
    refine ⟨_, (exec_sig_of_room hregs rd hroom).trans (by rw [scanForRet_eq_some d hbefore hw hret]; rfl),
      fun c => ?_, rfl⟩
    rw [State.setPc_cell, State.setCells_cell, Memory.read_write, Memory.read_write, ← ite_or]
    exact if_congr or_comm rfl rfl
  case exhausted =>
    refine ⟨_, _, (exec_sig_of_room hregs rd hroom).trans (by rw [scanForRet_drop_eq_none hno]; rfl),
      fun c => ?_, rfl⟩
    exact Memory.read_write s.cells rd.toNat s.pc c

/-! ## The sentinel (R86) -/

/-- Settles O40: `ret` has the second row of iid 0xA5, and its rule is the fault. -/
theorem retExecutedFaults : Obligations.RetExecutedFaults := ⟨encodedAs_row_x2 rfl, fun _ => rfl⟩

end Sys2Proof.Machine
end

section
/-!
PROOFS. The arithmetic unit (spec/44_alu.md): the two paths that `ff` selects, the model's integer functions as functions of
numbers, and the test of a cell for a finite datum.
-/

namespace Sys2Proof.Machine

/-! ## Increment and decrement (R90, R91) -/

theorem exec_inc (rd : Nibble) (s : State) :
    exec (.inc rd) s = readCell (regIndex rd) s fun v => writeCell (regIndex rd) (v + 1) s advance := rfl

theorem exec_dec (rd : Nibble) (s : State) :
    exec (.dec rd) s = readCell (regIndex rd) s fun v => writeCell (regIndex rd) (v - 1) s advance := rfl

theorem add_one_eq_ofNat (v : Word) : v + 1 = BitVec.ofNat 64 (v.toNat + 1) := by
  rw [BitVec.ofNat_add, BitVec.ofNat_toNat, BitVec.setWidth_eq]
  rfl

theorem sub_one_eq_ofNat (v : Word) : v - 1 = BitVec.ofNat 64 (v.toNat + 2 ^ 64 - 1) := by
  apply BitVec.eq_of_toNat_eq
  rw [BitVec.toNat_sub, BitVec.toNat_ofNat, show (1 : Word).toNat = 1 from rfl]
  omega

/-- Settles O41: both rules are a register read and a register write of the sum modulo 2^64. -/
theorem incAndDecWrapInTheRegister : Obligations.IncAndDecWrapInTheRegister := by
  refine ⟨encodedAs_row_iid rfl, encodedAs_row_iid rfl, fun s rd hregs => ⟨?inc, ?dec⟩⟩
  case inc =>
    rw [exec_inc, readCell_reg hregs, add_one_eq_ofNat]
    exact writesOnly_reg hregs rd _
  case dec =>
    rw [exec_dec, readCell_reg hregs, sub_one_eq_ofNat]
    exact writesOnly_reg hregs rd _

/-! ## The path that `ff` selects (R87) -/

section
variable {s : State} (hregs : RegistersExist s) {rd ra rb : Nibble}
include hregs

/-- With `ff = 0` the integer path is taken; `v` is the value that the operation computes. -/
theorem delivers_intBinary_of_not_ff (hff : s.ff = false) {op : Word → Word → Word} {v : Word}
    (hv : op (s.cell ra.toNat) (s.cell rb.toNat) = v) (floatPath : Result) :
    Delivers s rd.toNat v (if s.ff then floatPath else intBinary op rd ra rb s) := by
  rw [hff, if_neg Bool.false_ne_true, ← hv]
  exact intBinary_delivers hregs rd ra rb op

theorem deliversFloat_floatBinary_of_ff (hff : s.ff = true) (op : F32 → F32 → Option F32) (intPath : Result) :
    DeliversFloat s rd.toNat (op (f32 (s.cell ra.toNat)) (f32 (s.cell rb.toNat)))
      (if s.ff then floatBinary op rd ra rb s else intPath) := by
  rw [if_pos hff]
  exact floatBinary_delivers hregs rd ra rb op

end

/-! ## Sum, difference and product (R92, R93, R94) -/

theorem exec_add (rd ra rb : Nibble) (s : State) :
    exec (.add rd ra rb) s =
      if s.ff then floatBinary floatAdd rd ra rb s else intBinary (fun a b => a + b) rd ra rb s := rfl

theorem exec_sub (rd ra rb : Nibble) (s : State) :
    exec (.sub rd ra rb) s =
      if s.ff then floatBinary floatSub rd ra rb s else intBinary (fun a b => a - b) rd ra rb s := rfl

theorem exec_mul (rd ra rb : Nibble) (s : State) :
    exec (.mul rd ra rb) s =
      if s.ff then floatBinary floatMul rd ra rb s else intBinary (fun a b => a * b) rd ra rb s := rfl

/-- A cell as a number modulo 2^64. -/
theorem ofInt_toNat (a : Word) : BitVec.ofInt 64 a.toNat = a := by
  rw [BitVec.ofInt_natCast, BitVec.ofNat_toNat, BitVec.setWidth_eq]

theorem add_eq_ofInt (a b : Word) : a + b = BitVec.ofInt 64 (a.toNat + b.toNat) := by
  rw [BitVec.ofInt_add, ofInt_toNat, ofInt_toNat]

theorem sub_eq_ofInt (a b : Word) : a - b = BitVec.ofInt 64 (a.toNat - b.toNat) := by
  rw [Int.sub_eq_add_neg, BitVec.ofInt_add, BitVec.ofInt_neg, ofInt_toNat, ofInt_toNat, BitVec.sub_eq_add_neg]

theorem mul_eq_ofInt (a b : Word) : a * b = BitVec.ofInt 64 (a.toNat * b.toNat) := by
  rw [BitVec.ofInt_mul, ofInt_toNat, ofInt_toNat]

/-- Settles O42: the two paths of each rule, and the integer operation as the exact one modulo 2^64. -/
theorem addSubMulDeliverTheirResult : Obligations.AddSubMulDeliverTheirResult := by
  refine ⟨encodedAs_row_iid rfl, encodedAs_row_iid rfl, encodedAs_row_iid rfl, fun s rd ra rb hregs => ?_⟩
  rw [exec_add, exec_sub, exec_mul]
  refine ⟨fun hff => ?int, fun hff => ?float⟩
  case int =>
    exact ⟨delivers_intBinary_of_not_ff hregs hff (add_eq_ofInt _ _) _,
      delivers_intBinary_of_not_ff hregs hff (sub_eq_ofInt _ _) _,
      delivers_intBinary_of_not_ff hregs hff (mul_eq_ofInt _ _) _⟩
  case float =>
    exact ⟨deliversFloat_floatBinary_of_ff hregs hff floatAdd _, deliversFloat_floatBinary_of_ff hregs hff floatSub _,
      deliversFloat_floatBinary_of_ff hregs hff floatMul _⟩

/-! ## Quotient (R95) -/

theorem exec_div (rd ra rb : Nibble) (s : State) :
    exec (.div rd ra rb) s = if s.ff then floatBinary floatDiv rd ra rb s else intDivide rd ra rb s := rfl

theorem udiv_eq_ofNat (a b : Word) : a / b = BitVec.ofNat 64 (a.toNat / b.toNat) := by
  rw [← BitVec.toNat_udiv, BitVec.ofNat_toNat, BitVec.setWidth_eq]

theorem sdiv_eq_ofInt (a b : Word) : a.sdiv b = BitVec.ofInt 64 (a.toInt.tdiv b.toInt) :=
  BitVec.eq_of_toInt_eq (by rw [BitVec.toInt_sdiv, BitVec.toInt_ofInt])

/-- The operands of the one signed quotient that does not fit. -/
theorem divOverflow_test_iff (a b : Word) :
    (a = minSigned && b = -1) = true ↔ a.toInt = -2 ^ 63 ∧ b.toInt = -1 := by
  rw [Bool.and_eq_true, decide_eq_true_iff, decide_eq_true_iff, ← BitVec.toInt_inj (x := a), ← BitVec.toInt_inj (x := b)]
  rfl

/-- R95: both operands are read before the divisor is tested. -/
theorem exec_div_of_not_ff {s : State} (hregs : RegistersExist s) (hff : s.ff = false) (rd ra rb : Nibble) :
    exec (.div rd ra rb) s =
      if s.cell rb.toNat = 0 then raiseHaltFor .divisionByZero divisionByZeroCode s
      else if s.params.intDivSigned then
        if s.cell ra.toNat = minSigned && s.cell rb.toNat = -1 then .fault .divOverflow
        else dest (regIndex rd) ((s.cell ra.toNat).sdiv (s.cell rb.toNat)) s
      else dest (regIndex rd) (s.cell ra.toNat / s.cell rb.toNat) s := by
  rw [exec_div, hff, if_neg Bool.false_ne_true, intDivide, readCell_reg hregs, readCell_reg hregs]

/-- Settles O43: the branches of the integer path, and the float path. -/
theorem divDeliversTheQuotientOrHalts : Obligations.DivDeliversTheQuotientOrHalts := by
  refine ⟨encodedAs_row_iid rfl, fun s rd ra rb hregs => ?_⟩
  refine ⟨fun hff hzero => ?zero, fun hff hzero hsigned => ?unsigned, fun hff hzero hsigned hfits => ?signed,
    fun hff hsigned ha hb => ?overflow, fun hff => ?float⟩
  case zero =>
    rw [exec_div_of_not_ff hregs hff, if_pos hzero]
    exact ⟨_, rfl⟩
  case unsigned =>
    rw [exec_div_of_not_ff hregs hff, if_neg hzero, hsigned, if_neg Bool.false_ne_true, udiv_eq_ofNat]
    exact delivers_dest (regIndex_in_range hregs rd) _
  case signed =>
    rw [exec_div_of_not_ff hregs hff, if_neg hzero, if_pos hsigned, if_neg (mt (divOverflow_test_iff _ _).1 hfits),
      sdiv_eq_ofInt]
    exact delivers_dest (regIndex_in_range hregs rd) _
  case overflow =>
    have hzero : s.cell rb.toNat ≠ 0 := fun h0 => by rw [h0] at hb; exact absurd hb (by decide)
    rw [exec_div_of_not_ff hregs hff, if_neg hzero, if_pos hsigned, if_pos ((divOverflow_test_iff _ _).2 ⟨ha, hb⟩)]
  case float =>
    rw [exec_div]
    exact deliversFloat_floatBinary_of_ff hregs hff floatDiv _

/-! ## Power (R96) -/

theorem exec_pow (rd ra rb : Nibble) (s : State) :
    exec (.pow rd ra rb) s =
      if s.ff then floatBinary (fun a b => hostResult (Config.mathf2 .pow a b)) rd ra rb s
      else intBinary intPow rd ra rb s := rfl

/-- Squaring over `k` bits gives the power by an exponent of `k` bits: `a^b` is `(a*a)^(b/2)`, once more `a` when `b` is
odd. -/
theorem powBits_eq_pow (k : Nat) (a : Word) {b : Nat} (hb : b < 2 ^ k) : powBits k a b = a ^ b := by
  induction k generalizing a b with
  | zero =>
    obtain rfl : b = 0 := Nat.lt_one_iff.1 hb
    exact (pow_zero a).symm
  | succ k ih =>
    have hhalf : powBits k (a * a) (b / 2) = a ^ (2 * (b / 2)) := by
      rw [ih (a * a) (by omega), ← pow_two, ← pow_mul]
    rw [powBits, hhalf]
    split_ifs with hodd
    · rw [← pow_succ', show 2 * (b / 2) + 1 = b by omega]
    · rw [show 2 * (b / 2) = b by omega]

theorem intPow_eq_ofNat (a b : Word) : intPow a b = BitVec.ofNat 64 (a.toNat ^ b.toNat) := by
  rw [intPow, powBits_eq_pow 64 a b.isLt, BitVec.ofNat_pow, BitVec.ofNat_toNat, BitVec.setWidth_eq]

/-- Settles O44: the two paths, and the integer one as the exact power modulo 2^64. -/
theorem powDeliversThePower : Obligations.PowDeliversThePower := by
  refine ⟨encodedAs_row_iid rfl, fun s rd ra rb hregs => ?_⟩
  rw [exec_pow]
  exact ⟨fun hff => delivers_intBinary_of_not_ff hregs hff (intPow_eq_ofNat _ _) _,
    fun hff => deliversFloat_floatBinary_of_ff hregs hff (fun a b => hostResult (Config.mathf2 .pow a b)) _⟩

/-! ## Root (R97) -/

theorem exec_sqrt (rd ra : Nibble) (s : State) :
    exec (.sqrt rd ra) s = if s.ff then floatUnary floatSqrt rd ra s else intUnary intSqrt rd ra s := rfl

/-- The search keeps the root between `r` and `r + 2^k`, and ends on it. -/
theorem rootBits_eq_sqrt {k n r : Nat} (hlow : r * r ≤ n) (hhigh : n < (r + 2 ^ k) * (r + 2 ^ k)) :
    rootBits k n r = Nat.sqrt n := by
  induction k generalizing r with
  | zero => exact Nat.eq_sqrt.2 ⟨hlow, hhigh⟩
  | succ k ih =>
    have hstep : r + 2 ^ (k + 1) = r + 2 ^ k + 2 ^ k := by rw [pow_succ, mul_two, add_assoc]
    rw [rootBits]
    split_ifs with hbit
    · exact ih hbit (hstep ▸ hhigh)
    · exact ih hlow (Nat.lt_of_not_le hbit)

theorem floorSqrt_eq_sqrt {k n : Nat} (h : n < 2 ^ k * 2 ^ k) : floorSqrt k n = Nat.sqrt n :=
  rootBits_eq_sqrt (Nat.zero_le n) (by simpa using h)

theorem intSqrt_eq_ofNat (a : Word) : intSqrt a = BitVec.ofNat 64 (Nat.sqrt a.toNat) := by
  rw [intSqrt, floorSqrt_eq_sqrt a.isLt]

/-- Settles O45: the two paths, and the integer one as the floor of the root. -/
theorem sqrtDeliversTheRoot : Obligations.SqrtDeliversTheRoot := by
  refine ⟨encodedAs_row_iid rfl, fun s rd ra hregs => ?_⟩
  rw [exec_sqrt]
  refine ⟨fun hff => ?int, fun hff => ?float⟩
  case int =>
    refine ⟨Nat.sqrt (s.cell ra.toNat).toNat, Nat.sqrt_le _, Nat.lt_succ_sqrt _, ?_⟩
    rw [hff, if_neg Bool.false_ne_true, ← intSqrt_eq_ofNat]
    exact intUnary_delivers hregs rd ra intSqrt
  case float =>
    rw [if_pos hff]
    exact floatUnary_delivers hregs rd ra floatSqrt

/-! ## Bitwise operations (R98, R99) -/

theorem exec_xor (ca cb : Byte) (s : State) : exec (.xor ca cb) s = bitwise (fun a b => a ^^^ b) ca cb s := rfl

theorem exec_or (ca cb : Byte) (s : State) : exec (.or ca cb) s = bitwise (fun a b => a ||| b) ca cb s := rfl

theorem bitwise_of_ff {s : State} (hff : s.ff = true) (op : Word → Word → Word) (ca cb : Byte) :
    bitwise op ca cb s = .fault .bitwiseInFloatMode := if_pos hff

theorem bitwise_of_not_ff {s : State} (hff : s.ff = false) (op : Word → Word → Word) (ca cb : Byte) :
    bitwise op ca cb s = readCell (pairIndex ca) s fun a => readCell (pairIndex cb) s fun b =>
      dest (pairIndex ca) (op a b) s := if_neg (by simp [hff])

/-- The first range check covers the destination. -/
theorem inRangeElseHalts_bitwise {s : State} (hff : s.ff = false) (op : Word → Word → Word) (ca cb : Byte) :
    InRangeElseHalts s ca.toNat (InRangeElseHalts s cb.toNat
      (Delivers s ca.toNat (op (s.cell ca.toNat) (s.cell cb.toNat)))) (bitwise op ca cb s) := by
  rw [bitwise_of_not_ff hff]
  unfold InRangeElseHalts
  by_cases hca : ca.toNat < s.params.memCells
  · rw [if_pos hca, readCell_in_range (i := pairIndex ca) hca]
    exact inRangeElseHalts_readCell (k := fun b => dest (pairIndex ca) (op (s.cell ca.toNat) b) s) (delivers_dest hca _)
  · rw [if_neg hca, readCell, if_neg (show ¬pairIndex ca < s.params.memCells from hca)]
    exact haltOutOfRange_haltsOnly s

/-- Settles O46: both rules are one, of two operations. -/
theorem xorAndOrCombineTwoCells : Obligations.XorAndOrCombineTwoCells := by
  refine ⟨?xorWord, ?orWord, fun s ca cb => ?_⟩
  case xorWord =>
    simp only [sixteenths_eq_pair]
    exact encodedAs_row_iid rfl
  case orWord =>
    simp only [sixteenths_eq_pair]
    exact encodedAs_row_iid rfl
  rw [exec_xor, exec_or]
  exact ⟨fun hff => ⟨bitwise_of_ff hff _ ca cb, bitwise_of_ff hff _ ca cb⟩,
    fun hff => ⟨inRangeElseHalts_bitwise hff (fun a b => a ^^^ b) ca cb,
      inRangeElseHalts_bitwise hff (fun a b => a ||| b) ca cb⟩⟩

/-! ## The test for a finite datum (R100) -/

theorem exec_ckft (c : Byte) (s : State) :
    exec (.ckft c) s =
      if s.ff then
        readCell (pairIndex c) s fun v =>
          if isFinite (f32 v) then advance s else raiseHaltFor .nonFinite floatCode s
      else advance s := rfl

/-- A cell reads as a finite datum unless its bits 30:23 are all ones. -/
theorem isFinite_f32_iff (v : Word) : isFinite (f32 v) = true ↔ v.extractLsb' 23 8 ≠ 0xFF := by
  have hexponent : (v.extractLsb' 23 8).toNat = v.toNat / 2 ^ 23 % 2 ^ 8 := extractLsb'_toNat_eq v 23 8
  have hpattern : (f32 v).toNat = v.toNat % 2 ^ 32 := by rw [f32, extractLsb'_toNat_eq, pow_zero, Nat.div_one]
  rw [isFinite_iff, magnitudeCode, hpattern, infinityCode, Ne, ← BitVec.toNat_inj, hexponent,
    show (0xFF : BitVec 8).toNat = 0xFF from rfl]
  omega

/-- Settles O47: the test of the exponent in float mode, and no read else. -/
theorem ckftHaltsOnNonFiniteInFloatMode : Obligations.CkftHaltsOnNonFiniteInFloatMode := by
  refine ⟨?word, fun s c => ?_⟩
  case word =>
    simp only [sixteenths_eq_pair]
    exact encodedAs_row_iid rfl
  rw [exec_ckft]
  refine ⟨fun hff => ?int, fun hff => ?float⟩
  case int =>
    rw [hff, if_neg Bool.false_ne_true]
    rfl
  case float =>
    rw [if_pos hff]
    refine inRangeElseHalts_readCell (i := pairIndex c) ⟨fun hones => ?nonFinite, fun hones => ?finite⟩
    case nonFinite =>
      rw [if_neg (mt (isFinite_f32_iff (s.cell (pairIndex c))).1 (not_not.2 hones))]
      exact ⟨_, rfl⟩
    case finite =>
      rw [if_pos ((isFinite_f32_iff (s.cell (pairIndex c))).2 hones)]
      rfl

end Sys2Proof.Machine
end

section
/-!
PROOFS. Binary32 arithmetic on finite data (spec/44_alu R89(b), (c)): each operation is one rounding of its exact result, and
the square root is one rounding of a number on the same side of every midpoint as the root.
-/

namespace Sys2Proof.Machine

/-! ## Signs -/

@[simp] theorem isNegative_roundSigned (negative : Bool) (num den : Nat) :
    isNegative (roundSigned negative num den) = negative := isNegative_withSign _ (roundCode_le num den)

theorem signedUnits_of_nonneg {a : F32} (h : isNegative a = false) : signedUnits a = units a := by
  rw [signedUnits, if_neg (by simp [h])]

@[simp] theorem units_floatNeg (a : F32) : units (floatNeg a) = units a := by
  rw [units_eq_codeUnits, units_eq_codeUnits, magnitudeCode_floatNeg]

@[simp] theorem signedUnits_floatNeg (a : F32) : signedUnits (floatNeg a) = -signedUnits a := by
  unfold signedUnits
  rw [isNegative_floatNeg, units_floatNeg]
  cases isNegative a <;> simp

/-! ## Sum and difference (R92, R93) -/

/-- A sum is rounded with its own sign, and a zero sum with the sign given for it. -/
theorem roundSum_eq_roundSigned (zeroSign : Bool) (v : Int) :
    roundSum zeroSign v = roundSigned (if v = 0 then zeroSign else decide (v < 0)) v.natAbs 1 := by
  unfold roundSum
  split_ifs with h
  · subst h; rfl
  · rfl

theorem roundSum_roundsTo (zeroSign : Bool) (v : Int) : RoundsTo v 1 (roundSum zeroSign v) := by
  have hrounds := roundSigned_roundsTo (if v = 0 then zeroSign else decide (v < 0)) v.natAbs Nat.one_pos
  have hsigned : (if (if v = 0 then zeroSign else decide (v < 0)) then -(v.natAbs : Int) else v.natAbs) = v := by
    rcases lt_trichotomy v 0 with hv | rfl | hv
    · rw [if_neg hv.ne, if_pos (decide_eq_true hv)]; omega
    · simp
    · rw [if_neg hv.ne', if_neg (by simp [hv.le])]; omega
  rwa [← roundSum_eq_roundSigned, hsigned] at hrounds

theorem isNegative_roundSum_zero (zeroSign : Bool) : isNegative (roundSum zeroSign 0) = zeroSign := by
  rw [roundSum_eq_roundSigned, isNegative_roundSigned, if_pos rfl]

section
variable {a b : F32} (ha : isFinite a = true) (hb : isFinite b = true)
include ha hb

theorem floatAdd_of_isFinite :
    floatAdd a b = some (roundSum (isNegative a && isNegative b) (signedUnits a + signedUnits b)) := by
  simp [floatAdd, isNaN_of_isFinite, isInfinite_of_isFinite, ha, hb]

theorem floatSub_of_isFinite :
    floatSub a b = some (roundSum (isNegative a && !isNegative b) (signedUnits a - signedUnits b)) := by
  rw [floatSub, floatAdd_of_isFinite ha (by rwa [isFinite_floatNeg]), isNegative_floatNeg, signedUnits_floatNeg,
    ← Int.sub_eq_add_neg]

end

/-- Settles O55: both are one rounding of the exact result. -/
theorem floatAddAndSubAreCorrectlyRounded : Obligations.FloatAddAndSubAreCorrectlyRounded := by
  intro a b ha hb
  refine ⟨⟨_, floatAdd_of_isFinite ha hb, roundSum_roundsTo _ _, fun hzero => ?addSign⟩,
    ⟨_, floatSub_of_isFinite ha hb, roundSum_roundsTo _ _, fun hzero => ?subSign⟩⟩
  case addSign => rw [hzero, isNegative_roundSum_zero, Bool.and_eq_true]
  case subSign => rw [hzero, isNegative_roundSum_zero, Bool.and_eq_true, Bool.not_eq_true']

/-! ## Product and quotient (R94, R95) -/

/-- A signed product of units is the product of the units with the sign of the operands' signs. -/
theorem signedUnits_mul (a b : F32) :
    signedUnits a * signedUnits b =
      if isNegative a != isNegative b then -((units a * units b : Nat) : Int) else (units a * units b : Nat) := by
  unfold signedUnits
  cases isNegative a <;> cases isNegative b <;> simp

/-- The sign of a divisor that is not zero is the factor by which its units differ from their magnitude. -/
theorem sign_signedUnits {b : F32} (h : units b ≠ 0) : Int.sign (signedUnits b) = if isNegative b then -1 else 1 := by
  have hpos : 0 < (units b : Int) := by omega
  unfold signedUnits
  cases isNegative b
  · exact Int.sign_eq_one_of_pos hpos
  · exact Int.sign_eq_neg_one_of_neg (neg_lt_zero.2 hpos)

theorem sign_mul_signedUnits (a : F32) {b : F32} (h : units b ≠ 0) :
    Int.sign (signedUnits b) * signedUnits a * 2 ^ 149 =
      if isNegative a != isNegative b then -((units a * 2 ^ 149 : Nat) : Int) else (units a * 2 ^ 149 : Nat) := by
  rw [sign_signedUnits h, signedUnits]
  cases isNegative a <;> cases isNegative b <;> simp

section
variable {a b : F32} (ha : isFinite a = true) (hb : isFinite b = true)
include ha hb

theorem floatMul_of_isFinite :
    floatMul a b = some (roundSigned (isNegative a != isNegative b) (units a * units b) (2 ^ 149)) := by
  simp [floatMul, isNaN_of_isFinite, isInfinite_of_isFinite, ha, hb]

theorem floatDiv_of_isFinite (h : units b ≠ 0) :
    floatDiv a b = some (roundSigned (isNegative a != isNegative b) (units a * 2 ^ 149) (units b)) := by
  simp [floatDiv, isNaN_of_isFinite, isInfinite_of_isFinite, ha, hb, h]

end

/-- Settles O56: both are one rounding of the exact result, with the sign that the operands' signs make. -/
theorem floatMulAndDivAreCorrectlyRounded : Obligations.FloatMulAndDivAreCorrectlyRounded := by
  intro a b ha hb
  refine ⟨⟨_, floatMul_of_isFinite ha hb, ?product, ?productSign⟩,
    fun h0 => ⟨_, floatDiv_of_isFinite ha hb h0, ?quotient, ?quotientSign⟩⟩
  case product =>
    rw [signedUnits_mul]
    exact roundSigned_roundsTo _ _ (by positivity)
  case quotient =>
    rw [sign_mul_signedUnits a h0]
    exact roundSigned_roundsTo _ _ (Nat.pos_of_ne_zero h0)
  case productSign => rw [isNegative_roundSigned, bne_iff_ne]
  case quotientSign => rw [isNegative_roundSigned, bne_iff_ne]

/-! ## Root (R97) -/

/-- Twice the root of `n`, when that is a whole number, and else the odd number between its two neighbours. -/
def twiceRoot (n : Nat) : Nat := 2 * Nat.sqrt n + if Nat.sqrt n * Nat.sqrt n = n then 0 else 1

theorem twiceRoot_div_two (n : Nat) : twiceRoot n / 2 = Nat.sqrt n := by
  unfold twiceRoot
  split_ifs <;> omega

theorem twiceRoot_le (n : Nat) : twiceRoot n ≤ 2 * Nat.sqrt n + 1 := by
  unfold twiceRoot
  split_ifs <;> omega

/-- A number other than that odd one is on the same side of `twiceRoot n` as of twice the root of `n`. -/
theorem sq_le_of_le_twiceRoot {n m : Nat} (hm : m ≠ 2 * Nat.sqrt n + 1) (h : m ≤ twiceRoot n) : m ^ 2 ≤ 4 * n := by
  have hle : m ≤ 2 * Nat.sqrt n := by unfold twiceRoot at h; split_ifs at h <;> omega
  calc m ^ 2 ≤ (2 * Nat.sqrt n) ^ 2 := Nat.pow_le_pow_left hle 2
    _ = 4 * (Nat.sqrt n * Nat.sqrt n) := by ring
    _ ≤ 4 * n := Nat.mul_le_mul_left 4 (Nat.sqrt_le n)

theorem le_sq_of_twiceRoot_le {n m : Nat} (hm : m ≠ 2 * Nat.sqrt n + 1) (h : twiceRoot n ≤ m) : 4 * n ≤ m ^ 2 := by
  unfold twiceRoot at h
  split_ifs at h with hsquare
  · calc 4 * n = (2 * Nat.sqrt n) ^ 2 := by rw [mul_pow, pow_two (Nat.sqrt n), hsquare]; rfl
      _ ≤ m ^ 2 := Nat.pow_le_pow_left h 2
  · calc 4 * n ≤ 4 * ((Nat.sqrt n + 1) * (Nat.sqrt n + 1)) := Nat.mul_le_mul_left 4 (Nat.lt_succ_sqrt n).le
      _ = (2 * Nat.sqrt n + 2) ^ 2 := by ring
      _ ≤ m ^ 2 := Nat.pow_le_pow_left (by omega) 2

/-- A magnitude of at least 2^24 units is a whole number of steps of two. -/
theorem units_even_of_ge {a : F32} (h : 2 ^ 24 ≤ units a) : units a % 2 = 0 := by
  rw [units_eq_codeUnits] at h ⊢
  obtain hsmall | ⟨m, hm⟩ := codeUnits_small_or_multiple 1 (magnitudeCode a) <;> omega

/-- The magnitude of a rounded quotient below the limit at infinity. -/
theorem units_roundSigned (negative : Bool) (num : Nat) {den : Nat} (hd : 0 < den)
    (hfits : 2 * num < (2 ^ 25 - 1) * 2 ^ 253 * den) :
    units (roundSigned negative num den) =
      divNearestEven num (den * 2 ^ excessBits (num / den)) * 2 ^ excessBits (num / den) := by
  obtain ⟨hmax, hmin⟩ := significand_bounds num hd
  have hfinite := lt_of_not_ge fun h => hfits.not_ge ((roundCode_overflow num hd).1 h)
  rw [units_eq_codeUnits, roundSigned, magnitudeCode_withSign _ (roundCode_le num den), ← codeUnits_step hmax hmin]
  exact congrArg codeUnits (Nat.min_eq_right hfinite.le)

section
variable (negative : Bool) (num : Nat) {den : Nat} (hd : 0 < den) (hfits : 2 * num < (2 ^ 25 - 1) * 2 ^ 253 * den)
  (hsteps : excessBits (num / den) ≠ 0)
include hd hfits hsteps

/-- A rounded quotient whose step is more than one unit is even. -/
theorem units_roundSigned_even : units (roundSigned negative num den) % 2 = 0 := by
  obtain ⟨e, he⟩ := Nat.exists_eq_succ_of_ne_zero hsteps
  rw [units_roundSigned negative num hd hfits, he, pow_succ, ← mul_assoc, Nat.mul_mod_left]

/-- It is at most half a step above the quotient, which is at least 2^23 steps. -/
theorem units_roundSigned_mul_le : 2 ^ 24 * (units (roundSigned negative num den) * den) ≤ (2 ^ 24 + 1) * num := by
  have hmin := (excessBits_bounds num hd).2.resolve_left hsteps
  have hnear := (divNearestEven_half num (den := den * 2 ^ excessBits (num / den)) (by positivity)).1
  rw [units_roundSigned negative num hd hfits, mul_assoc, mul_comm _ den]
  generalize den * 2 ^ excessBits (num / den) = step at *
  generalize divNearestEven num step = significand at *
  zify
  zify at hmin
  generalize (significand * step : Int) = rounded at *
  omega

end

theorem units_lt_of_isFinite {a : F32} (h : isFinite a = true) : units a < 2 ^ 24 * 2 ^ 253 := by
  have hcode : magnitudeCode a < infinityCode := isFinite_iff.1 h
  unfold infinityCode at hcode
  unfold units
  dsimp only
  split_ifs
  · exact lt_of_lt_of_le (Nat.mod_lt _ (by decide)) (by decide)
  · exact Nat.mul_lt_mul_of_lt_of_le (by omega) (Nat.pow_le_pow_right (by decide) (by omega)) (by decide)

/-- The radicand of a positive finite datum, in units of 2^-298. -/
def radicand (a : F32) : Nat := units a * 2 ^ 149

/-- The root of `n` units of 2^-298, rounded to a datum. -/
def roundedRoot (n : Nat) : F32 := roundSigned false (twiceRoot n) 2

section
variable {a : F32} (hfinite : isFinite a = true)

include hfinite in
theorem radicand_lt : radicand a < 2 ^ 213 * 2 ^ 213 :=
  calc radicand a < 2 ^ 24 * 2 ^ 253 * 2 ^ 149 :=
        Nat.mul_lt_mul_of_pos_right (units_lt_of_isFinite hfinite) (by positivity)
    _ = 2 ^ 213 * 2 ^ 213 := by rw [← pow_add, ← pow_add, ← pow_add]

include hfinite in
theorem sqrt_radicand_lt : Nat.sqrt (radicand a) < 2 ^ 213 := Nat.sqrt_lt.2 (radicand_lt hfinite)

theorem le_sqrt_radicand (h0 : units a ≠ 0) : 2 ^ 74 ≤ Nat.sqrt (radicand a) := by
  refine Nat.le_sqrt.2 ?_
  calc 2 ^ 74 * 2 ^ 74 ≤ 1 * 2 ^ 149 := by decide
    _ ≤ radicand a := Nat.mul_le_mul_right _ (Nat.pos_of_ne_zero h0)

include hfinite in
theorem floatSqrt_of_positive (hsign : isNegative a = false) (h0 : units a ≠ 0) :
    floatSqrt a = some (roundedRoot (radicand a)) := by
  have hroot : floorSqrt 213 (units a * 2 ^ 149) = Nat.sqrt (radicand a) := floorSqrt_eq_sqrt (radicand_lt hfinite)
  simp only [floatSqrt, isNaN_of_isFinite hfinite, isInfinite_of_isFinite hfinite, hsign, mt units_eq_zero_iff.2 h0, hroot,
    Bool.false_eq_true, if_false]
  rfl

end

/-! The root of a positive datum lies between 2^74 and 2^213 units. -/

section
variable {n : Nat} (hlow : 2 ^ 74 ≤ Nat.sqrt n) (hhigh : Nat.sqrt n < 2 ^ 213)

include hhigh in
theorem twiceRoot_fits : 2 * twiceRoot n < (2 ^ 25 - 1) * 2 ^ 253 * 2 := by
  have hle := twiceRoot_le n
  omega

include hlow in
theorem excessBits_twiceRoot_ne_zero : excessBits (twiceRoot n / 2) ≠ 0 := by
  have hbits := (Nat.le_log2 (Nat.ne_zero_of_lt hlow)).2 hlow
  rw [twiceRoot_div_two, excessBits]
  omega

include hhigh in
theorem roundedRoot_nearest :
    isFinite (roundedRoot n) = true ∧ ∀ g : F32, isFinite g = true → isNegative g = false →
      ((twiceRoot n : Int) - units (roundedRoot n) * 2).natAbs ≤ ((twiceRoot n : Int) - units g * 2).natAbs := by
  obtain ⟨-, hrounds⟩ := roundSigned_roundsTo false (twiceRoot n) two_pos
  rw [if_neg Bool.false_ne_true, Int.natAbs_natCast, if_neg (twiceRoot_fits hhigh).not_ge] at hrounds
  obtain ⟨hfinite, hnearest⟩ := hrounds
  refine ⟨hfinite, fun g hg hgsign => ?_⟩
  have hnear := (hnearest g hg).1
  rwa [signedUnits_of_nonneg (isNegative_roundSigned false _ 2), signedUnits_of_nonneg hgsign] at hnear

include hlow hhigh in
/-- The root is far above the data with odd units, so the odd number that stands for it is the middle of no two data of
which one is the rounded root. -/
theorem units_roundedRoot_add_ne (g : F32) : units (roundedRoot n) + units g ≠ 2 * Nat.sqrt n + 1 := by
  intro hmiddle
  have hfits := twiceRoot_fits hhigh
  have hsteps := excessBits_twiceRoot_ne_zero hlow
  have heven : units (roundedRoot n) % 2 = 0 := units_roundSigned_even false (twiceRoot n) two_pos hfits hsteps
  have habove : 2 ^ 24 * (units (roundedRoot n) * 2) ≤ (2 ^ 24 + 1) * twiceRoot n :=
    units_roundSigned_mul_le false (twiceRoot n) two_pos hfits hsteps
  have hodd : units g < 2 ^ 24 := by
    by_contra hlarge
    have := units_even_of_ge (not_lt.1 hlarge)
    omega
  have hle := twiceRoot_le n
  omega

end

/-- Settles O57: a datum that is not nearer to `twiceRoot` than the rounded root leaves it on the rounded root's side of the
middle, and the root is on the same side. -/
theorem floatSqrtIsCorrectlyRounded : Obligations.FloatSqrtIsCorrectlyRounded := by
  intro a ha hsign h0
  have hlow := le_sqrt_radicand h0
  have hhigh := sqrt_radicand_lt ha
  obtain ⟨hfinite, hnearest⟩ := roundedRoot_nearest hhigh
  refine ⟨_, floatSqrt_of_positive ha hsign h0, hfinite, isNegative_roundSigned false _ 2, fun g hg hgsign => ?_⟩
  have hnear := hnearest g hg hgsign
  have hmiddle := units_roundedRoot_add_ne hlow hhigh g
  exact ⟨fun hlt => le_sq_of_twiceRoot_le (n := radicand a) hmiddle (by omega),
    fun hlt => sq_le_of_le_twiceRoot (n := radicand a) hmiddle (by omega)⟩

end Sys2Proof.Machine
end

section
/-!
PROOFS. Native call and evaluation frame (spec/45_frame_extern.md): the outcomes of a resolution and of a routine, the
descriptors read one at a time into a fresh frame, and the frame's release.
-/

namespace Sys2Proof.Machine

/-! ## The native call (R101) -/

/-- The signature is the low 32 bits as a number. -/
theorem signatureOf_eq_ofNat (v : Word) : signatureOf v = BitVec.ofNat 32 (v.toNat % 2 ^ 32) := by
  apply BitVec.eq_of_toNat_eq
  rw [signatureOf, extractLsb'_toNat_eq, pow_zero, Nat.div_one, BitVec.toNat_ofNat, Nat.mod_mod]

theorem exec_xcall (rs : Nibble) (s : State) : exec (.xcall rs) s = execXcall rs s := rfl

section
variable {s : State} (hregs : RegistersExist s) {rs : Nibble}
include hregs

theorem exec_xcall_of_failed {kind : Nat}
    (h : resolveIn s.params.registry (signatureOf (s.cell rs.toNat)) = .failed kind) :
    exec (.xcall rs) s = raiseHaltFor .externUnresolved (Config.externHaltBase + externKindOffset kind) s := by
  rw [exec_xcall, execXcall, readCell_reg hregs]
  simp only [h]

variable {routine : Routine} (h : resolveIn s.params.registry (signatureOf (s.cell rs.toNat)) = .found routine)
include h

theorem exec_xcall_of_hasArgs (hargs : routine.hasArgs = true) :
    exec (.xcall rs) s = raiseHaltFor .argumentsUnimplemented nativeCallCode s := by
  rw [exec_xcall, execXcall, readCell_reg hregs]
  simp only [h, hargs, if_true]

variable (hargs : routine.hasArgs = false)
include hargs

theorem exec_xcall_of_error {text : String}
    (hout : Config.nativeOutcome s.draws (signatureOf (s.cell rs.toNat)) = .error text) :
    exec (.xcall rs) s = raiseHalt nativeCallCode (some text) s.drawn := by
  rw [exec_xcall, execXcall, readCell_reg hregs]
  simp only [h, hargs, hout, Bool.false_eq_true, if_false]

theorem exec_xcall_of_ok {v : Word} (hout : Config.nativeOutcome s.draws (signatureOf (s.cell rs.toNat)) = .ok v) :
    exec (.xcall rs) s = if routine.returnsValue then push v s.drawn advance else advance s.drawn := by
  rw [exec_xcall, execXcall, readCell_reg hregs]
  simp only [h, hargs, hout, Bool.false_eq_true, if_false]

end

/-- Settles O48: the resolution, and then the routine's outcome, select the end of the rule. -/
theorem xcallResolvesAndInvokes : Obligations.XcallResolvesAndInvokes := by
  refine ⟨encodedAs_row_iid rfl, fun s rs hregs => ?_⟩
  rw [← signatureOf_eq_ofNat]
  refine ⟨fun kind h => ⟨_, exec_xcall_of_failed hregs h⟩,
    fun routine h hargs => ⟨_, exec_xcall_of_hasArgs hregs h hargs⟩, fun routine h hargs => ?outcome⟩
  cases hout : Config.nativeOutcome s.draws (signatureOf (s.cell rs.toNat)) with
  | error text => exact exec_xcall_of_error hregs h hargs hout
  | ok v =>
    dsimp only
    rw [exec_xcall_of_ok hregs h hargs hout]
    refine ⟨fun hvoid => ?void, fun hvalue hroom => ?room, fun hvalue hfull => ?full⟩
    case void =>
      rw [hvoid, if_neg Bool.false_ne_true]
      rfl
    case room =>
      have hroom' : s.drawn.hasRoom 1 = true := hroom
      rw [if_pos hvalue, push_room hroom']
      rfl
    case full =>
      have hfull' : s.drawn.hasRoom 1 = false := hfull
      rw [if_pos hvalue, push_full hfull']

/-! ## The descriptors of a frame (R102) -/

/-- The frame with its slots filled by descriptors in their order. -/
def Frame.fill (f : Frame) (ds : List (Word × Word)) : Frame :=
  { f with slots := ds.foldl (fun slots d => slots.set d.2.toNat (some ⟨d.1⟩)) f.slots }

/-- A descriptor that the stream holds at `a`, with a legal tag and a legal slot of a frame of `count` slots. -/
structure LegalDescriptor (s : State) (count a : Nat) (d : Word × Word) : Prop where
  tag : s.fetch a = some d.1
  slot : s.fetch (a + 1) = some d.2
  tag_mem : d.1 ∈ s.params.typeTags
  slot_lt : d.2.toNat < count

theorem installSlot_setFrame (d : Word × Word) (s : State) (f : Frame) :
    installSlot d.2.toNat d.1 (s.setFrame (some f)) = s.setFrame (some (f.fill [d])) := rfl

section
variable {s : State} {count a : Nat} (n : Nat) (k : State → Result)

theorem readDescriptors_succ_of_fetch {tag slot : Word} (htag : s.fetch a = some tag) (hslot : s.fetch (a + 1) = some slot) :
    readDescriptors count (n + 1) a s k =
      if tag ∉ s.params.typeTags then .fault .badTypeTag
      else if count ≤ slot.toNat then .fault .badSlot
      else readDescriptors count n (a + 2) (installSlot slot.toNat tag s) k := by
  simp only [readDescriptors, fetchInside, htag, hslot]

theorem haltsOnly_readDescriptors_of_fetch_none (h : s.fetch a = none ∨ s.fetch (a + 1) = none) :
    HaltsOnly s 0xA1 (readDescriptors count (n + 1) a s k) := by
  refine ⟨Config.haltMessage .streamExhausted s.pc, ?_⟩
  rw [readDescriptors, fetchInside]
  cases htag : s.fetch a with
  | none => rfl
  | some tag =>
    have hslot : s.fetch (a + 1) = none := h.resolve_left (by simp [htag])
    simp only [fetchInside, hslot]
    rfl

/-- Legal descriptors fill the frame, the later over the earlier, before the rest is read. -/
theorem readDescriptors_of_legal (ds : List (Word × Word)) (f : Frame)
    (hlegal : ∀ j d, ds[j]? = some d → LegalDescriptor s count (a + 2 * j) d) :
    readDescriptors count (ds.length + n) a (s.setFrame (some f)) k =
      readDescriptors count n (a + 2 * ds.length) (s.setFrame (some (f.fill ds))) k := by
  induction ds generalizing a f with
  | nil => rw [List.length_nil, Nat.zero_add]; rfl
  | cons d ds ih =>
    have hfirst : LegalDescriptor s count a d := hlegal 0 d rfl
    have hlater : ∀ j e, ds[j]? = some e → LegalDescriptor s count (a + 2 + 2 * j) e := fun j e he => by
      simpa only [Nat.mul_succ, Nat.add_assoc, Nat.add_comm 2] using hlegal (j + 1) e he
    calc readDescriptors count ((d :: ds).length + n) a (s.setFrame (some f)) k
      _ = readDescriptors count (ds.length + n + 1) a (s.setFrame (some f)) k := by
          rw [List.length_cons, Nat.add_right_comm]
      _ = readDescriptors count (ds.length + n) (a + 2) (s.setFrame (some (f.fill [d]))) k := by
          rw [readDescriptors_succ_of_fetch (s := s.setFrame (some f)) _ k hfirst.tag hfirst.slot,
            State.setFrame_params, if_neg (not_not.2 hfirst.tag_mem), if_neg hfirst.slot_lt.not_ge, installSlot_setFrame]
      _ = readDescriptors count n (a + 2 + 2 * ds.length) (s.setFrame (some ((f.fill [d]).fill ds))) k := ih _ hlater
      _ = _ := by rw [List.length_cons, Nat.mul_succ, Nat.add_assoc, Nat.add_comm 2]; rfl

end

theorem exec_locals (n : Nibble) (s : State) :
    exec (.locals n) s =
      readDescriptors n.toNat n.toNat (s.pc.toNat + 1) (s.setFrame (some (freshFrame n.toNat)))
        fun t => advancePast (2 * n.toNat) t := rfl

/-- Settles O49: the legal descriptors fill the fresh frame, and then the count is over or the next one ends the rule. -/
theorem localsReadsItsDescriptors : Obligations.LocalsReadsItsDescriptors := by
  refine ⟨encodedAs_row_iid rfl, fun s n ds hlen hds => ?_⟩
  intro frame tag slot
  obtain ⟨m, hm⟩ : ∃ m, n.toNat = ds.length + m := Nat.exists_eq_add_of_le hlen
  have hsecond : ∀ j, s.pc.toNat + 2 + 2 * j = s.pc.toNat + 1 + 2 * j + 1 := by omega
  have hlegal : ∀ j d, ds[j]? = some d → LegalDescriptor s n.toNat (s.pc.toNat + 1 + 2 * j) d := fun j d hd => by
    obtain ⟨htag, hslot, hmem, hlt⟩ := hds j d hd
    exact ⟨htag, hsecond j ▸ hslot, hmem, hlt⟩
  have hread :=
    calc exec (.locals n) s
      _ = readDescriptors n.toNat (ds.length + m) (s.pc.toNat + 1) (s.setFrame (some (freshFrame n.toNat)))
            fun t => advancePast (2 * n.toNat) t := by rw [exec_locals, ← hm]
      _ = readDescriptors n.toNat m (s.pc.toNat + 1 + 2 * ds.length) (s.setFrame (some frame))
            fun t => advancePast (2 * n.toNat) t := readDescriptors_of_legal m _ ds (freshFrame n.toNat) hlegal
  rw [hread]
  cases m with
  | zero => exact ⟨fun _ => rfl, fun hlt => absurd hlt (by omega), fun _ _ hlt => absurd hlt (by omega)⟩
  | succ m =>
    have hnext : s.fetch (s.pc.toNat + 1 + 2 * ds.length + 1) = slot := congrArg s.fetch (hsecond _).symm
    refine ⟨fun hall => absurd hall (by omega), fun _ hnone => ?ends, fun vt vs _ hvt hvs => ?illegal⟩
    case ends =>
      exact haltsOnly_readDescriptors_of_fetch_none (s := s.setFrame (some frame)) m _ (hnone.imp_right hnext.trans)
    case illegal =>
      rw [readDescriptors_succ_of_fetch (s := s.setFrame (some frame)) m _ hvt (hnext.trans hvs),
        State.setFrame_params]
      exact ⟨fun htag => if_pos htag, fun htag hslot => (if_neg (not_not.2 htag)).trans (if_pos hslot)⟩

/-! ## The release of the frame (R103) -/

theorem exec_prune (s : State) : exec .prune s = execPrune s := rfl

theorem exec_prune_of_frame {s : State} {f : Frame} (h : s.frame = some f) :
    exec .prune s = advance (s.setFrame none) := by
  simp only [exec_prune, execPrune, h]

theorem exec_prune_of_frame_none {s : State} (h : s.frame = none) : exec .prune s = .fault .pruneWithoutFrame := by
  simp only [exec_prune, execPrune, h]

/-- Settles O50: the frame present or absent decides. -/
theorem pruneReleasesTheFrame : Obligations.PruneReleasesTheFrame :=
  ⟨encodedAs_row_iid rfl, fun _ => ⟨fun _ h => exec_prune_of_frame h, exec_prune_of_frame_none⟩⟩

end Sys2Proof.Machine
end

section
/-!
PROOFS. Breakpoint control (spec/46_debug.md): the two phases as closed forms over the break cell and the hook record, a
step around a rule that answers, and the three instructions as one update each.
-/

namespace Sys2Proof.Machine

/-! ## The two phases (R104, R105) -/

/-- R104 by the break cell alone. -/
theorem escalate_eq_ite (b : BreakMode) : escalate b = if b = .armedDeferred then .triggerNow else b := by
  cases b <;> rfl

theorem firesAfterStep_iff (b : BreakMode) : firesAfterStep b = true ↔ b = .afterThisStep ∨ b = .triggerNow := by
  cases b <;> decide

/-- A trigger that the pre-step phase saw, armed or deferred, fires after the step if the rule leaves it. -/
theorem firesAfterStep_escalate (b : BreakMode) : firesAfterStep (escalate b) = true ↔ b ≠ .idle := by
  cases b <;> decide

/-- `preStep_eq` with the event of `bf = 1` as what the record grows by. -/
theorem preStep_eq_append (s : State) : preStep s =
    (s.setHookEvents (s.hookEvents ++ if s.bf = true then [s.pc] else [])).setBrk (escalate s.brk) := by
  rw [preStep_eq]
  cases s.bf with
  | false => exact congrArg (fun l => (s.setHookEvents l).setBrk _) (List.append_nil _).symm
  | true => rfl

@[simp] theorem preStep_hookEvents (s : State) :
    (preStep s).hookEvents = s.hookEvents ++ if s.bf = true then [s.pc] else [] := by
  rw [preStep_eq_append]; rfl

theorem postStep_of_fires {s : State} (h : firesAfterStep s.brk = true) :
    postStep s = (s.setHookEvents (s.hookEvents ++ [s.pc])).setBrk .idle := if_pos h

theorem postStep_of_not_fires {s : State} (h : firesAfterStep s.brk = false) : postStep s = s := if_neg (by simp [h])

theorem finishStep_of_fires {s : State} (hrun : s.run = .running) (h : firesAfterStep s.brk = true) :
    finishStep s = (s.setHookEvents (s.hookEvents ++ [s.pc])).setBrk .idle :=
  (finishStep_of_running hrun).trans (postStep_of_fires h)

theorem finishStep_of_not_fires {s : State} (h : firesAfterStep s.brk = false) : finishStep s = s := by
  rw [finishStep_eq_ite, postStep_of_not_fires h, ite_self]

/-! ## A step around a rule that answers -/

section
variable {s t u : State} {w : Word} {i : Instr}

/-- A step whose word decodes and that has a next state ran the instruction, and ended its answer. -/
theorem step_next_of_decode (hfetch : s.fetch s.pc.toNat = some w) (hdecode : decode w = .ok i) (h : step s = .next u) :
    ∃ t, exec i (preStep s) = .next t ∧ u = finishStep t := by
  obtain ⟨-, w', hw, ⟨why, hd, -⟩ | ⟨j, t, hd, hexec, hu⟩⟩ := step_next_cases h <;>
    cases hfetch.symm.trans hw
  · cases hdecode.symm.trans hd
  · cases hdecode.symm.trans hd
    exact ⟨t, hexec, hu⟩

/-- A step whose instruction ends with the pc one further. -/
theorem step_of_exec_advance (hrun : s.run = .running) (hfetch : s.fetch s.pc.toNat = some w) (hdecode : decode w = .ok i)
    (hexec : exec i (preStep s) = advance u) : step s = .next (finishStep (u.setPc (u.pc + 1))) := by
  rw [step_of_decode hrun hfetch hdecode, hexec]; rfl

/-- R109: only breakpoint control touches the break cell and the hook record in the execute phase. -/
theorem exec_keeps_brk_and_hookEvents (hi : isBreak i = false) (h : exec i s = .next t) :
    t.brk = s.brk ∧ t.hookEvents = s.hookEvents := by
  obtain ⟨-, hbrk, hhooks, -⟩ := frameBreakCellAndRecordsChangeOnlyWhereListed i s t h
  exact ⟨hbrk (by rintro rfl; cases hi) (by rintro rfl; cases hi), hhooks (by rintro rfl; cases hi)⟩

end

/-- Settles O12: the phases by their closed forms, and the end of a step by whether its rule halted. -/
theorem preStepAndPostStepPhases : Obligations.PreStepAndPostStepPhases := by
  refine ⟨fun s => ?pre, fun s => ?post, fun s u w i hfetch hdecode h => ?place⟩
  case pre => rw [preStep_eq, escalate_eq_ite]; rfl
  case post => simp only [postStep_eq, firesAfterStep_iff]; rfl
  case place =>
    obtain ⟨t, hexec, hu⟩ := step_next_of_decode hfetch hdecode h
    rw [finishStep_eq_ite] at hu
    exact ⟨t, hexec, fun hrun => hu.trans (if_pos hrun), fun hhalted => hu.trans (if_neg hhalted)⟩

/-! ## The three instructions (R106, R107, R108) -/

theorem exec_brkNow (s : State) : exec .brkNow s = advance (hook s.pc s) := rfl

theorem exec_brkNext (s : State) : exec .brkNext s = advance (s.setBrk .afterThisStep) := rfl

theorem exec_brkAfter (s : State) : exec .brkAfter s = advance (s.setBrk .armedDeferred) := rfl

/-- Settles O13: a deferred trigger does not fire, and the next step's first phase makes it one that does. -/
theorem deferredBreakFiresOnceAtTheEndOfTheNextStep : Obligations.DeferredBreakFiresOnceAtTheEndOfTheNextStep := by
  refine ⟨encodedAs_row_x2 rfl, fun s => exec_brkAfter s, fun s t w hfetch hdecode h => ?arms,
    fun s t w i hbrk hfetch hdecode hi h => ?fires⟩
  case arms =>
    obtain ⟨u, hexec, rfl⟩ := step_next_of_decode hfetch hdecode h
    cases (exec_brkAfter _).symm.trans hexec
    rw [finishStep_of_not_fires (by rfl)]
    exact ⟨preStep_hookEvents s, rfl⟩
  case fires =>
    obtain ⟨u, hexec, rfl⟩ := step_next_of_decode hfetch hdecode h
    obtain ⟨hubrk, huhooks⟩ := exec_keeps_brk_and_hookEvents hi hexec
    rw [preStep_brk, hbrk] at hubrk
    rw [preStep_hookEvents] at huhooks
    rw [finishStep_run]
    refine ⟨fun hrun => ?_, fun hhalted => ?_⟩
    · rw [finishStep_of_fires hrun (by rw [hubrk]; rfl)]
      exact ⟨congrArg (· ++ [u.pc]) huhooks, rfl⟩
    · rw [finishStep_eq_ite, if_neg hhalted]
      exact ⟨huhooks, hubrk⟩

/-- Settles O51: each step is the pre-step phase, one update, and the post-step phase, which the break cell decides. -/
theorem breakNowAndBreakNextFireTheHook : Obligations.BreakNowAndBreakNextFireTheHook := by
  refine ⟨encodedAs_row_x2 rfl, encodedAs_row_x2 rfl, fun s => exec_brkNow s, fun s => exec_brkNext s,
    fun s w hrun hfetch => ⟨fun hdecode hbrk => ?nowArmed, fun hdecode hbrk => ?nowIdle, fun hdecode => ?next⟩⟩
  case nowArmed =>
    have hfires : firesAfterStep (preStep s).brk = true := by rwa [preStep_brk, firesAfterStep_escalate]
    rw [step_of_exec_advance hrun hfetch hdecode (exec_brkNow _),
      finishStep_of_fires (by exact (preStep_run s).trans hrun) (by exact hfires), preStep_eq_append,
      List.append_cons _ s.pc [s.pc + 1]]
    rfl
  case nowIdle =>
    have hquiet : firesAfterStep (preStep s).brk = false := by rw [preStep_brk, hbrk]; rfl
    rw [step_of_exec_advance hrun hfetch hdecode (exec_brkNow _), finishStep_of_not_fires (by exact hquiet),
      preStep_eq_append, hbrk]
    rfl
  case next =>
    rw [step_of_exec_advance hrun hfetch hdecode (exec_brkNext _),
      finishStep_of_fires (by exact (preStep_run s).trans hrun) (by rfl), preStep_eq_append]
    rfl

end Sys2Proof.Machine
end

section
/-!
PROOFS. The math table (spec/47_math_table.md): the test of `ff` before each row's operation, the rounding to an integral
value as an exact rounding, and the order of the data that minimum, maximum and the two neighbours follow.
-/

namespace Sys2Proof.Machine

/-! ## A row in float mode and without it (R110) -/

theorem haltsOnly_requireFloatMode {s : State} (hff : s.ff = false) (k : Result) :
    HaltsOnly s 0xA9 (requireFloatMode s k) := by
  rw [requireFloatMode, hff, if_neg Bool.false_ne_true]
  exact ⟨_, rfl⟩

theorem mathOp1_deliversOrHalts (fn : F32 → Option F32) (s : State) (rd ra : Nibble) :
    (s.ff = true → RegistersExist s → DeliversFloat s rd.toNat (fn (f32 (s.cell ra.toNat))) (mathOp1 fn rd ra s)) ∧
    (s.ff = false → HaltsOnly s 0xA9 (mathOp1 fn rd ra s)) :=
  ⟨fun hff hregs => mathOp1_delivers hregs rd ra fn hff, fun hff => haltsOnly_requireFloatMode hff _⟩

theorem mathOp2_deliversOrHalts (fn : F32 → F32 → Option F32) (s : State) (rd ra rb : Nibble) :
    (s.ff = true → RegistersExist s →
      DeliversFloat s rd.toNat (fn (f32 (s.cell ra.toNat)) (f32 (s.cell rb.toNat))) (mathOp2 fn rd ra rb s)) ∧
    (s.ff = false → HaltsOnly s 0xA9 (mathOp2 fn rd ra rb s)) :=
  ⟨fun hff hregs => mathOp2_delivers hregs rd ra rb fn hff, fun hff => haltsOnly_requireFloatMode hff _⟩

theorem hostOp1_deliversOrHalts (fn : HostFn1) (s : State) (rd ra : Nibble) :
    (s.ff = true → RegistersExist s →
      DeliversFloat s rd.toNat (hostResult (Config.mathf1 fn (f32 (s.cell ra.toNat)))) (hostOp1 fn rd ra s)) ∧
    (s.ff = false → HaltsOnly s 0xA9 (hostOp1 fn rd ra s)) :=
  mathOp1_deliversOrHalts (fun a => hostResult (Config.mathf1 fn a)) s rd ra

/-- Settles O52: each row's word selects it, and each rule is `MathOp` of its operation. -/
theorem exactMathFunctionsDeliverOrHalt : Obligations.ExactMathFunctionsDeliverOrHalt := by
  refine ⟨fun pattern i fn hrow => ?oneOperand, fun pattern i fn hrow => ?twoOperands⟩
  case oneOperand =>
    have hexec : ∀ rd ra s, exec (i rd ra) s = mathOp1 fn rd ra s := by
      fin_cases hrow <;> exact fun _ _ _ => rfl
    simp only [hexec]
    exact ⟨by fin_cases hrow <;> exact encodedAs_row_iid rfl, mathOp1_deliversOrHalts fn⟩
  case twoOperands =>
    have hexec : ∀ rd ra rb s, exec (i rd ra rb) s = mathOp2 fn rd ra rb s := by
      fin_cases hrow <;> exact fun _ _ _ _ => rfl
    simp only [hexec]
    exact ⟨by fin_cases hrow <;> exact encodedAs_row_iid rfl, mathOp2_deliversOrHalts fn⟩

/-- Settles O53: each row's word selects it, and each rule is `MathOp` of its host function. -/
theorem trigonometricAndHyperbolicFunctionsDeliverOrHalt :
    Obligations.TrigonometricAndHyperbolicFunctionsDeliverOrHalt := by
  intro pattern i fn hrow
  have hexec : ∀ rd ra s, exec (i rd ra) s = hostOp1 fn rd ra s := by
    fin_cases hrow <;> exact fun _ _ _ => rfl
  simp only [hexec]
  exact ⟨by fin_cases hrow <;> exact encodedAs_row_iid rfl, hostOp1_deliversOrHalts fn⟩

theorem exec_atan2 (rd ra rb : Nibble) (s : State) :
    exec (.atan2 rd ra rb) s = mathOp2 (fun y x => hostResult (Config.mathf2 .atan2 y x)) rd ra rb s := rfl

/-- Settles O54: as for O53, and `atan2` is `MathOp` of its host function of two operands. -/
theorem logarithmsRootsAndAtan2DeliverOrHalt : Obligations.LogarithmsRootsAndAtan2DeliverOrHalt := by
  refine ⟨fun pattern i fn hrow => ?oneOperand, encodedAs_row_iid rfl, ?atan2⟩
  case oneOperand =>
    have hexec : ∀ rd ra s, exec (i rd ra) s = hostOp1 fn rd ra s := by
      fin_cases hrow <;> exact fun _ _ _ => rfl
    simp only [hexec]
    exact ⟨by fin_cases hrow <;> exact encodedAs_row_iid rfl, hostOp1_deliversOrHalts fn⟩
  case atan2 =>
    simp only [exec_atan2]
    exact mathOp2_deliversOrHalts fun y x => hostResult (Config.mathf2 .atan2 y x)

/-! ## Rounding to an integral value (R124, R125, R126) -/

/-- A finite magnitude is a significand of at most 24 bits above at most 253 low bits. -/
theorem units_eq_significand {a : F32} (h : isFinite a = true) :
    ∃ m k, m < 2 ^ 24 ∧ k ≤ 253 ∧ units a = m * 2 ^ k := by
  have hcode : magnitudeCode a < infinityCode := isFinite_iff.1 h
  unfold infinityCode at hcode
  unfold units
  dsimp only
  split_ifs
  · exact ⟨_, 0, by omega, by omega, (mul_one _).symm⟩
  · exact ⟨_, _, by omega, by omega, rfl⟩

theorem divNearestEven_mul (q : Nat) {den : Nat} (hd : 0 < den) : divNearestEven (q * den) den = q := by
  simp [divNearestEven, hd]

section
variable (negative : Bool) {m k : Nat} (hm : m < 2 ^ 24) (hk : k ≤ 253)
include hm hk

theorem significand_fits : 2 * (m * 2 ^ k) < (2 ^ 25 - 1) * 2 ^ 253 * 1 :=
  calc 2 * (m * 2 ^ k) ≤ 2 * ((2 ^ 24 - 1) * 2 ^ 253) :=
        Nat.mul_le_mul_left 2 (Nat.mul_le_mul (by omega) (Nat.pow_le_pow_right two_pos hk))
    _ < (2 ^ 25 - 1) * 2 ^ 253 * 1 := by norm_num

theorem isFinite_roundSigned_significand : isFinite (roundSigned negative (m * 2 ^ k) 1) = true := by
  have hlt := lt_of_not_ge fun h => (significand_fits hm hk).not_ge ((roundCode_overflow _ Nat.one_pos).1 h)
  rw [isFinite_iff, roundSigned, magnitudeCode_withSign _ (roundCode_le _ _)]
  exact lt_of_le_of_lt (Nat.min_le_right _ _) hlt

/-- What has a significand of at most 24 bits is not rounded. -/
theorem units_roundSigned_significand : units (roundSigned negative (m * 2 ^ k) 1) = m * 2 ^ k := by
  rw [units_roundSigned negative _ Nat.one_pos (significand_fits hm hk), Nat.div_one, one_mul]
  have hsteps : excessBits (m * 2 ^ k) ≤ k := by
    obtain rfl | hpos := Nat.eq_zero_or_pos m
    · simp [excessBits]
    · have hlog : Nat.log2 (m * 2 ^ k) < 24 + k :=
        (Nat.log2_lt (by positivity)).2 (by rw [pow_add]; exact Nat.mul_lt_mul_of_pos_right hm (by positivity))
      unfold excessBits
      omega
  generalize excessBits (m * 2 ^ k) = e at *
  obtain ⟨q, hq⟩ := (pow_dvd_pow 2 hsteps).mul_left m
  rw [hq, mul_comm _ q, divNearestEven_mul q (by positivity)]

end

/-- The integral part of a magnitude of `u` units, or one more where there is a fraction and `up` holds, in units. -/
def integralUnits (up : Bool) (u : Nat) : Nat :=
  (if u % unitsPerOne ≠ 0 && up then u / unitsPerOne + 1 else u / unitsPerOne) * unitsPerOne

theorem integralUnits_of_dvd {u : Nat} (h : unitsPerOne ∣ u) (up : Bool) : integralUnits up u = u := by
  rw [integralUnits, Nat.mod_eq_zero_of_dvd h, if_neg (by simp), Nat.div_mul_cancel h]

/-- Without going up it is the floor of the magnitude. -/
theorem integralUnits_false (u : Nat) : (integralUnits false u : Int) = u / 2 ^ 149 * 2 ^ 149 := by
  simp [integralUnits, unitsPerOne]

/-- Going up it is the ceiling of the magnitude. -/
theorem integralUnits_true (u : Nat) : (integralUnits true u : Int) = -(-u / 2 ^ 149) * 2 ^ 149 := by
  unfold integralUnits unitsPerOne
  simp only [Bool.and_true, decide_eq_true_eq]
  split_ifs <;> push_cast <;> omega

/-- A magnitude with a significand of at most 24 bits in steps of one or more is whole; below that, fewer than 2^23 ones. -/
theorem integralUnits_eq_significand {a : F32} (h : isFinite a = true) (up : Bool) :
    ∃ m k, m < 2 ^ 24 ∧ k ≤ 253 ∧ integralUnits up (units a) = m * 2 ^ k := by
  obtain ⟨m, k, hm, hk, hu⟩ := units_eq_significand h
  by_cases hwhole : 149 ≤ k
  · have hdvd : unitsPerOne ∣ units a := hu ▸ (pow_dvd_pow 2 hwhole).mul_left m
    exact ⟨m, k, hm, hk, (integralUnits_of_dvd hdvd up).trans hu⟩
  · have hsmall : units a < unitsPerOne * 2 ^ 23 :=
      calc units a < 2 ^ 24 * 2 ^ k := hu ▸ Nat.mul_lt_mul_of_pos_right hm (by positivity)
        _ ≤ 2 ^ 24 * 2 ^ 148 := Nat.mul_le_mul_left _ (Nat.pow_le_pow_right two_pos (by omega))
        _ = unitsPerOne * 2 ^ 23 := by norm_num [unitsPerOne]
    have hdiv : units a / unitsPerOne < 2 ^ 23 := Nat.div_lt_of_lt_mul hsmall
    exact ⟨_, 149, by split_ifs <;> omega, by omega, rfl⟩

section
variable {a : F32} (up : F32 → Bool)

/-- The integral rounding of a finite datum is exact, and keeps its sign. -/
theorem roundIntegral_of_isFinite (h : isFinite a = true) :
    ∃ f, roundIntegral up a = some f ∧ isFinite f = true ∧ isNegative f = isNegative a ∧
      signedUnits f = if isNegative a then -(integralUnits (up a) (units a) : Int) else integralUnits (up a) (units a) := by
  obtain ⟨m, k, hm, hk, hpart⟩ := integralUnits_eq_significand h (up a)
  refine ⟨roundSigned (isNegative a) (integralUnits (up a) (units a)) 1, ?result, ?finite, isNegative_roundSigned _ _ _,
    ?value⟩
  case result => simp [roundIntegral, isNaN_of_isFinite, isInfinite_of_isFinite, h, integralUnits]
  case finite => rw [hpart]; exact isFinite_roundSigned_significand _ hm hk
  case value => rw [signedUnits, isNegative_roundSigned, hpart, units_roundSigned_significand _ hm hk]

theorem roundIntegral_of_isInfinite (h : isInfinite a = true) : roundIntegral up a = some a := by
  simp [roundIntegral, isNaN_of_isInfinite, h]

theorem roundIntegral_of_isNaN (h : isNaN a = true) : roundIntegral up a = none := if_pos h

end

section
variable {a : F32} (h : isFinite a = true)
include h

theorem floatCeiling_of_isFinite :
    ∃ f, floatCeiling a = some f ∧ isFinite f = true ∧ isNegative f = isNegative a ∧
      signedUnits f = -(-signedUnits a / 2 ^ 149) * 2 ^ 149 := by
  obtain ⟨f, hf, hfinite, hsign, hvalue⟩ := roundIntegral_of_isFinite (fun x => !isNegative x) h
  refine ⟨f, hf, hfinite, hsign, hvalue.trans ?_⟩
  unfold signedUnits
  cases isNegative a
  · exact integralUnits_true _
  · simp [integralUnits_false]

theorem floatFloor_of_isFinite :
    ∃ f, floatFloor a = some f ∧ isFinite f = true ∧ isNegative f = isNegative a ∧
      signedUnits f = signedUnits a / 2 ^ 149 * 2 ^ 149 := by
  obtain ⟨f, hf, hfinite, hsign, hvalue⟩ := roundIntegral_of_isFinite isNegative h
  refine ⟨f, hf, hfinite, hsign, hvalue.trans ?_⟩
  unfold signedUnits
  cases isNegative a
  · exact integralUnits_false _
  · simp [integralUnits_true]

theorem floatTruncate_of_isFinite :
    ∃ f, floatTruncate a = some f ∧ isFinite f = true ∧ isNegative f = isNegative a ∧
      signedUnits f = (signedUnits a).tdiv (2 ^ 149) * 2 ^ 149 := by
  obtain ⟨f, hf, hfinite, hsign, hvalue⟩ := roundIntegral_of_isFinite (fun _ => false) h
  refine ⟨f, hf, hfinite, hsign, hvalue.trans ?_⟩
  unfold signedUnits
  cases isNegative a <;> simp [integralUnits_false, Int.tdiv_eq_ediv_of_nonneg]

end

/-- Settles O59: going one up is going away from zero, which each function does on the side of its direction. -/
theorem integralRoundingFunctions : Obligations.IntegralRoundingFunctions :=
  ⟨fun _ h => ⟨floatCeiling_of_isFinite h, floatFloor_of_isFinite h, floatTruncate_of_isFinite h⟩,
    fun _ h => ⟨roundIntegral_of_isInfinite _ h, roundIntegral_of_isInfinite _ h, roundIntegral_of_isInfinite _ h⟩,
    fun _ h => ⟨roundIntegral_of_isNaN _ h, roundIntegral_of_isNaN _ h, roundIntegral_of_isNaN _ h⟩⟩

/-! ## Minimum and maximum (R132, R133) -/

/-- The order of minimum and maximum refines the order of comparison. -/
theorem compareKey_le_of_orderKey_le {a b : F32} (h : orderKey a ≤ orderKey b) : compareKey a ≤ compareKey b := by
  unfold orderKey at h
  unfold compareKey
  split_ifs at h ⊢ <;> omega

section
variable {a b : F32}

theorem floatMin_of_isNaN (h : isNaN a = true ∨ isNaN b = true) : floatMin a b = none :=
  if_pos ((Bool.or_eq_true _ _).mpr h)

theorem floatMax_of_isNaN (h : isNaN a = true ∨ isNaN b = true) : floatMax a b = none :=
  if_pos ((Bool.or_eq_true _ _).mpr h)

variable (ha : isNaN a = false) (hb : isNaN b = false)
include ha hb

theorem floatMin_of_not_isNaN : floatMin a b = some (if orderKey a ≤ orderKey b then a else b) := by
  simp [floatMin, ha, hb]

theorem floatMax_of_not_isNaN : floatMax a b = some (if orderKey a ≤ orderKey b then b else a) := by
  simp [floatMax, ha, hb]

/-- The minimum is an operand, and no operand is less; the maximum is one, and no operand is greater. -/
theorem floatMin_floatMax_bounds :
    (∃ f, floatMin a b = some f ∧ (f = a ∨ f = b) ∧ compareKey f ≤ compareKey a ∧ compareKey f ≤ compareKey b) ∧
    (∃ f, floatMax a b = some f ∧ (f = a ∨ f = b) ∧ compareKey a ≤ compareKey f ∧ compareKey b ≤ compareKey f) := by
  rw [floatMin_of_not_isNaN ha hb, floatMax_of_not_isNaN ha hb]
  by_cases h : orderKey a ≤ orderKey b
  · have hle := compareKey_le_of_orderKey_le h
    rw [if_pos h, if_pos h]
    exact ⟨⟨a, rfl, .inl rfl, le_rfl, hle⟩, ⟨b, rfl, .inr rfl, hle, le_rfl⟩⟩
  · have hle := compareKey_le_of_orderKey_le (le_of_not_ge h)
    rw [if_neg h, if_neg h]
    exact ⟨⟨b, rfl, .inr rfl, hle, le_rfl⟩, ⟨a, rfl, .inl rfl, le_rfl, hle⟩⟩

end

/-! ## Neighbours (R134, R135) -/

section
variable {a : F32}

theorem floatBitInc_of_isNaN (h : isNaN a = true) : floatBitInc a = none := if_pos h

theorem floatBitDec_of_isNaN (h : isNaN a = true) : floatBitDec a = none := if_pos h

/-- Below infinity, one more in the pattern is one more in the magnitude code, with the same sign. -/
theorem parts_add_one (h : isFinite a = true) :
    isNegative (a + 1) = isNegative a ∧ magnitudeCode (a + 1) = magnitudeCode a + 1 := by
  have hcode : a.toNat % 2 ^ 31 < infinityCode := isFinite_iff.1 h
  have hbits := a.isLt
  unfold infinityCode at hcode
  have hsucc : (a + 1).toNat = a.toNat + 1 := by
    rw [BitVec.toNat_add, show (1 : F32).toNat = 1 from rfl]; omega
  unfold isNegative magnitudeCode
  rw [hsucc, show (a.toNat + 1) / 2 ^ 31 = a.toNat / 2 ^ 31 by omega]
  exact ⟨rfl, by omega⟩

/-- Above zero, one less in the pattern is one less in the magnitude code, with the same sign. -/
theorem parts_sub_one (h : magnitudeCode a ≠ 0) :
    isNegative (a - 1) = isNegative a ∧ magnitudeCode (a - 1) = magnitudeCode a - 1 := by
  have hcode : a.toNat % 2 ^ 31 ≠ 0 := h
  have hbits := a.isLt
  have hpred : (a - 1).toNat = a.toNat - 1 := by
    rw [BitVec.toNat_sub, show (1 : F32).toNat = 1 from rfl]; omega
  unfold isNegative magnitudeCode
  rw [hpred, show (a.toNat - 1) / 2 ^ 31 = a.toNat / 2 ^ 31 by omega]
  exact ⟨rfl, by omega⟩

theorem isNaN_add_one (h : isFinite a = true) : isNaN (a + 1) = false := by
  have hcode := isFinite_iff.1 h
  rw [isNaN, (parts_add_one h).2, decide_eq_false_iff_not]
  omega

theorem isNaN_sub_one (hnan : isNaN a = false) (h : magnitudeCode a ≠ 0) : isNaN (a - 1) = false := by
  rw [isNaN, decide_eq_false_iff_not] at hnan ⊢
  rw [(parts_sub_one h).2]
  omega

theorem compareKey_add_one (h : isFinite a = true) :
    compareKey (a + 1) = if isNegative a then compareKey a - 1 else compareKey a + 1 := by
  obtain ⟨hsign, hcode⟩ := parts_add_one h
  unfold compareKey
  rw [hsign, hcode]
  split_ifs <;> omega

theorem compareKey_sub_one (h : magnitudeCode a ≠ 0) :
    compareKey (a - 1) = if isNegative a then compareKey a + 1 else compareKey a - 1 := by
  obtain ⟨hsign, hcode⟩ := parts_sub_one h
  unfold compareKey
  rw [hsign, hcode]
  split_ifs <;> omega

theorem compareKey_of_magnitudeCode_eq_zero (h : magnitudeCode a = 0) : compareKey a = 0 := by
  simp [compareKey, h]

theorem isFinite_of_not_isNaN_of_not_isInfinite (hnan : isNaN a = false) (hinf : isInfinite a = false) :
    isFinite a = true := by
  simp only [isNaN, isInfinite, decide_eq_false_iff_not, beq_eq_false_iff_ne] at hnan hinf
  exact isFinite_iff.2 (by omega)

/-- A datum that is not the infinity of its own sign is not infinite. -/
theorem isInfinite_eq_false_of_ne {negative : Bool} (hne : a ≠ withSign negative infinityCode)
    (hsign : isNegative a = negative) : isInfinite a = false := by
  refine Bool.eq_false_iff.2 fun h => hne ?_
  rw [← withSign_parts a, hsign, isInfinite_iff.1 h]

/-- `bitinc` goes to the next place in the order of comparison. -/
theorem floatBitInc_succ (hnan : isNaN a = false) (hne : a ≠ 0x7F800000) :
    ∃ f, floatBitInc a = some f ∧ isNaN f = false ∧ compareKey f = compareKey a + 1 := by
  unfold floatBitInc
  rw [if_neg (by simp [hnan])]
  by_cases hzero : magnitudeCode a = 0
  · rw [if_pos hzero, compareKey_of_magnitudeCode_eq_zero hzero]
    exact ⟨_, rfl, rfl, rfl⟩
  rw [if_neg hzero]
  cases hsign : isNegative a with
  | true => exact ⟨_, rfl, isNaN_sub_one hnan hzero, by rw [compareKey_sub_one hzero, if_pos hsign]⟩
  | false =>
    have hinf : isInfinite a = false := isInfinite_eq_false_of_ne (by exact hne) hsign
    have hfinite := isFinite_of_not_isNaN_of_not_isInfinite hnan hinf
    rw [hinf]
    exact ⟨_, rfl, isNaN_add_one hfinite, by rw [compareKey_add_one hfinite, hsign]; rfl⟩

/-- `bitdec` goes to the place before in the order of comparison. -/
theorem floatBitDec_pred (hnan : isNaN a = false) (hne : a ≠ 0xFF800000) :
    ∃ f, floatBitDec a = some f ∧ isNaN f = false ∧ compareKey f = compareKey a - 1 := by
  unfold floatBitDec
  rw [if_neg (by simp [hnan])]
  by_cases hzero : magnitudeCode a = 0
  · rw [if_pos hzero, compareKey_of_magnitudeCode_eq_zero hzero]
    exact ⟨_, rfl, rfl, rfl⟩
  rw [if_neg hzero]
  cases hsign : isNegative a with
  | false => exact ⟨_, rfl, isNaN_sub_one hnan hzero, by rw [compareKey_sub_one hzero, hsign]; rfl⟩
  | true =>
    have hinf : isInfinite a = false := isInfinite_eq_false_of_ne (by exact hne) hsign
    have hfinite := isFinite_of_not_isNaN_of_not_isInfinite hnan hinf
    rw [hinf]
    exact ⟨_, rfl, isNaN_add_one hfinite, by rw [compareKey_add_one hfinite, if_pos hsign]⟩

end

/-- Settles O60: minimum and maximum by the order of their keys, and the neighbours as the places next to a datum's. -/
theorem minimumMaximumAndNeighbours : Obligations.MinimumMaximumAndNeighbours := by
  refine ⟨fun a b h => ⟨floatMin_of_isNaN h, floatMax_of_isNaN h⟩, fun a b => floatMin_floatMax_bounds,
    rfl, rfl, rfl, rfl, fun a h => ⟨floatBitInc_of_isNaN h, floatBitDec_of_isNaN h⟩,
    fun a hnan hne => ?above, fun a hnan hne => ?below, rfl, rfl⟩
  case above =>
    obtain ⟨f, hf, hfnan, hkey⟩ := floatBitInc_succ hnan hne
    exact ⟨f, hf, hfnan, by omega, fun g _ hg => by omega⟩
  case below =>
    obtain ⟨f, hf, hfnan, hkey⟩ := floatBitDec_pred hnan hne
    exact ⟨f, hf, hfnan, by omega, fun g _ hg => by omega⟩

end Sys2Proof.Machine
end

section
/-!
PROOFS. The halt codes (spec/60_exceptions.md), the launch state (spec/70_reset_and_hazards.md), and the float comparison of
the conditional jumps (92 D16, log 17).
-/

namespace Sys2Proof.Machine

/-! ## Halt codes (R136) -/

/-- Settles O23: a step's halt is the end of a rule, or the unlisted word's, which `change_of_step_next` counts among them. -/
theorem everyHaltCodeIsListed : Obligations.EveryHaltCodeIsListed := by
  intro s t code msg h ht
  obtain ⟨hrunning, i, u, hc, rfl⟩ := change_of_step_next h
  rw [finishStep_run] at ht
  obtain ⟨hrun, -⟩ | ⟨_, _, hhalt, hlisted, -⟩ := hc.ended
  · rw [hrun, preStep_run, hrunning] at ht; cases ht
  · rw [hhalt] at ht; cases ht; exact hlisted

/-! ## The launch state (R19, R23, R149) -/

theorem State.reset_inv : State.reset.Inv where
  cells_wf := rfl
  cells_in_range := fun _ he => nomatch he
  stack_in_depth := rfl
  frame_wf := fun _ hf => nomatch hf

/-- The default `MEM_CELLS` is 256. -/
theorem registersExist_reset : RegistersExist State.reset := show 17 ≤ 256 by decide

/-- Settles O15: the empty store and stack and the absent frame meet the invariant; the other values are the fields'. -/
theorem launchStateMeetsTheInvariant : Obligations.LaunchStateMeetsTheInvariant :=
  ⟨State.reset_inv, registersExist_reset, rfl, rfl, rfl, rfl, rfl, rfl, rfl, rfl, rfl, rfl, rfl⟩

/-! ## The float comparison of the conditional jumps (D16, log 17) -/

theorem JumpTest.holds_floatInFloatMode_of_isNaN (test : JumpTest) {a b : Word}
    (h : isNaN (f32 a) = true ∨ isNaN (f32 b) = true) : test.holds .floatInFloatMode true a b = false := by
  show test.onFloat (f32 a) (f32 b) = false
  obtain ha | hb := h
  · simp [JumpTest.onFloat, ha]
  · simp [JumpTest.onFloat, hb]

theorem JumpTest.holds_floatInFloatMode_of_not_isNaN (test : JumpTest) {a b : Word} (ha : isNaN (f32 a) = false)
    (hb : isNaN (f32 b) = false) :
    test.holds .floatInFloatMode true a b = test.onInt (compareKey (f32 a)) (compareKey (f32 b)) := by
  show test.onFloat (f32 a) (f32 b) = _
  simp [JumpTest.onFloat, ha, hb]

@[simp] theorem JumpTest.holds_floatInFloatMode_of_not_ff (test : JumpTest) (a b : Word) :
    test.holds .floatInFloatMode false a b = test.onInt a.toNat b.toNat := rfl

section
variable {s : State} (hregs : RegistersExist s) (test : JumpTest) (rt ra rb : Nibble)
include hregs

theorem goesOnlyTo_conditionalJump_of_holds
    (h : test.holds s.params.jumpCmp s.ff (s.cell ra.toNat) (s.cell rb.toNat) = true) :
    GoesOnlyTo s (s.cell rt.toNat) (conditionalJump test rt ra rb s) :=
  goesOnlyTo_conditionalJump (c := True) hregs (iff_true_intro h)

theorem goesOnlyTo_conditionalJump_of_not_holds
    (h : ¬ test.holds s.params.jumpCmp s.ff (s.cell ra.toNat) (s.cell rb.toNat) = true) :
    GoesOnlyTo s (s.pc + 1) (conditionalJump test rt ra rb s) :=
  goesOnlyTo_conditionalJump (c := False) hregs (iff_false_intro h)

end

/-- Settles O37: in float mode no test holds of a NaN, and each is the integer test of the keys of two other data; in integer
mode each is the unsigned test. -/
theorem floatComparisonOfJumpsIsTheModelsChoice : Obligations.FloatComparisonOfJumpsIsTheModelsChoice := by
  intro s rt ra rb hregs how
  have jump (test : JumpTest) := goesOnlyTo_conditionalJump_of_holds hregs test rt ra rb
  have fall (test : JumpTest) := goesOnlyTo_conditionalJump_of_not_holds hregs test rt ra rb
  refine ⟨fun hff hnan => ?nan, fun hff hx hy => ?ordered, fun hff => ?integer⟩
  case nan =>
    have falls (test : JumpTest) := fall test (by simp [how, hff, test.holds_floatInFloatMode_of_isNaN hnan])
    exact ⟨falls .e, falls .g, falls .u, falls .y⟩
  case ordered =>
    simp only [how, hff, JumpTest.holds_floatInFloatMode_of_not_isNaN _ hx hy] at jump fall
    refine ⟨fun hless => ⟨fall .e ?_, fall .g ?_, jump .u ?_, jump .y ?_⟩,
      fun hmore => ⟨jump .e ?_, jump .g ?_, fall .u ?_, fall .y ?_⟩,
      fun hequal => ⟨jump .e ?_, fall .g ?_, fall .u ?_, jump .y ?_⟩⟩ <;>
      simp only [JumpTest.onInt_e, JumpTest.onInt_g, JumpTest.onInt_u, JumpTest.onInt_y] <;> omega
  case integer =>
    refine ⟨?_, ?_, ?_, ?_⟩ <;> exact goesOnlyTo_conditionalJump hregs (by simp [how, hff])

end Sys2Proof.Machine
end
